-- ==== Sys2Proof/Word.lean ====
section
/-! DEFINITION. Word.lean: the two word types of DHE (00_scope.md section 5, Notation). -/

namespace Sys2Proof

/-- A byte: 8 bits (00_scope.md section 5). -/
abbrev Byte := BitVec 8

/-- A Pixel, and any other 16-bit operand of a descriptor (00_scope.md section 5, 30_encoding.md R73). -/
abbrev Pixel := BitVec 16

end Sys2Proof
end

