-- ==== Sys2Proof/Config.lean ====
section
/-! DEFINITION. Config.lean: the configuration CFG (00_scope.md R2), its well-formedness, the session layout
(45_display_session.md R160), the values the source fixes (R4), and the fixture CFG_REF with FONT_FIX and LAYOUT_FIX
(95_test_vectors.md part 1). -/

namespace Sys2Proof

/-- STRING_AXIS: the coordinate `draw_string` advances (00_scope.md R2, 43_glyph_rasterizer.md R143). -/
inductive Axis where
  | x
  | y
  deriving DecidableEq, Repr

/-- One static label of LAYOUT.LABELS (45_display_session.md R160). -/
structure Label where
  x : Nat
  y : Nat
  text : List Byte
  color : Pixel
  scale : Nat
  deriving DecidableEq, Repr

/-- One decorative line of LAYOUT.LINES (45_display_session.md R160). -/
structure Line where
  xs : Nat
  ys : Nat
  xe : Nat
  ye : Nat
  color : Pixel
  deriving DecidableEq, Repr

/-- Origin and scale of one value element: SLOT(b, q, e) (45_display_session.md R160). -/
structure Slot where
  x : Nat
  y : Nat
  scale : Nat
  deriving DecidableEq, Repr

/-- The three elements of one quantity: integer part, symbol, decimal digit (45_display_session.md R160). -/
structure QuantitySlots where
  int : Slot
  sym : Slot
  dec : Slot
  deriving DecidableEq, Repr

/-- The two quantities of one block (45_display_session.md R160). -/
structure BlockSlots where
  temperature : QuantitySlots
  humidity : QuantitySlots
  deriving DecidableEq, Repr

/-- LAYOUT, the Display Session's layout constants (45_display_session.md R160). -/
structure Layout where
  labels : List Label
  lines : List Line
  valueColor : Pixel
  inside : BlockSlots
  outside : BlockSlots
  deriving DecidableEq, Repr

/-- CFG (00_scope.md R2), but for the three OPEN durations, which are `Config.duration`. `font` lists the glyphs of the
codes FONT_FIRST, FONT_FIRST + 1, ... in order, each as its row bytes, row 0 first (20_memory.md R45). -/
structure Cfg where
  nativeCols : Nat
  nativeRows : Nat
  margin : Nat
  cmdSwreset : Byte
  cmdColmod : Byte
  cmdMadctl : Byte
  cmdCaset : Byte
  cmdRaset : Byte
  cmdRamwr : Byte
  cmdDispon : Byte
  colmod16bit : Byte
  madctlValue : Byte
  fontFirst : Byte
  fontLast : Byte
  font : List (List Byte)
  glyphMsbFirst : Bool
  stringAxis : Axis
  digitBase : Byte
  percentCode : Byte
  degreeCode : Byte
  layout : Layout
  deriving DecidableEq, Repr

/-- The three delays of `reset` by name (00_scope.md R2, 10_state.md R30). -/
inductive Delay where
  | tResetLow
  | tPowerup1
  | tPowerup2
  deriving DecidableEq, Repr

/-- T_RESET_LOW, T_POWERUP_1, T_POWERUP_2: OPEN, each greater than 0, no default (00_scope.md R2, D31). The machine is
untimed and reads none of them. DESIGN CHOICE: a constant without a body, log entry 17. -/
opaque Config.duration : Delay → ℕ+

/-- BG, the background pixel fixed by the source (00_scope.md R4). -/
abbrev bg : Pixel := 0xFFFF

/-- USABLE_COLS (00_scope.md R3). -/
def Cfg.usableCols (c : Cfg) : Nat := c.nativeCols - 2 * c.margin

/-- USABLE_ROWS (00_scope.md R3). -/
def Cfg.usableRows (c : Cfg) : Nat := c.nativeRows - 2 * c.margin

/-- The seven command codes, in the order of 00_scope.md R2. -/
def Cfg.commands (c : Cfg) : List Byte :=
  [c.cmdSwreset, c.cmdColmod, c.cmdMadctl, c.cmdCaset, c.cmdRaset, c.cmdRamwr, c.cmdDispon]

/-- `code` has a glyph: FONT_FIRST ≤ code ≤ FONT_LAST (20_memory.md R45). -/
abbrev Cfg.InFont (c : Cfg) (code : Byte) : Prop :=
  c.fontFirst.toNat ≤ code.toNat ∧ code.toNat ≤ c.fontLast.toNat

/-- The constraints of the table of 00_scope.md R2, LAYOUT apart (see `Layout.WellFormed`). -/
abbrev Cfg.WellFormed (c : Cfg) : Prop :=
  (1 ≤ c.nativeCols ∧ c.nativeCols ≤ 256) ∧
  (1 ≤ c.nativeRows ∧ c.nativeRows ≤ 256) ∧
  (2 * c.margin < c.nativeCols ∧ 2 * c.margin < c.nativeRows) ∧
  c.commands.Nodup ∧
  c.fontFirst.toNat ≤ c.fontLast.toNat ∧
  (c.font.length = c.fontLast.toNat - c.fontFirst.toNat + 1 ∧ ∀ g ∈ c.font, g.length = 8) ∧
  (c.fontFirst.toNat ≤ c.digitBase.toNat ∧ c.digitBase.toNat + 9 ≤ c.fontLast.toNat) ∧
  c.InFont c.percentCode ∧
  c.InFont c.degreeCode

/-- A rectangle of logical cells: origin, width, height. -/
structure Box where
  x : Nat
  y : Nat
  w : Nat
  h : Nat
  deriving DecidableEq, Repr

/-- No cell at all. -/
abbrev Box.Empty (b : Box) : Prop := b.w = 0 ∨ b.h = 0

/-- Every cell of the box lies in the usable area (an empty box has none: log entry 23). -/
abbrev Box.Inside (c : Cfg) (b : Box) : Prop :=
  b.Empty ∨ (b.x + b.w ≤ c.usableCols ∧ b.y + b.h ≤ c.usableRows)

/-- Two boxes share a cell. -/
abbrev Box.Meets (a b : Box) : Prop :=
  ¬ a.Empty ∧ ¬ b.Empty ∧ a.x < b.x + b.w ∧ b.x < a.x + a.w ∧ a.y < b.y + b.h ∧ b.y < a.y + a.h

/-- The box of `n` glyphs drawn at `scale` along STRING_AXIS (43_glyph_rasterizer.md R140, R143). -/
def Cfg.textBox (c : Cfg) (x y n scale : Nat) : Box :=
  match c.stringAxis with
  | .y => ⟨x, y, if n = 0 then 0 else 8 * scale, n * (8 * scale)⟩
  | .x => ⟨x, y, n * (8 * scale), if n = 0 then 0 else 8 * scale⟩

/-- The box of a label (45_display_session.md R160). -/
def Cfg.labelBox (c : Cfg) (l : Label) : Box := c.textBox l.x l.y l.text.length l.scale

/-- The box of a decorative line: the window `draw_line` programs (44_line_primitive.md R151). -/
def Line.box (l : Line) : Box :=
  if l.xs = l.xe then ⟨l.xs, l.ys, 1, l.ye - l.ys⟩ else ⟨l.xs, l.ys, l.xe - l.xs, 1⟩

/-- `draw_line` accepts the line (44_line_primitive.md R151, R153). -/
abbrev Line.Drawable (c : Cfg) (l : Line) : Prop :=
  ((l.xs = l.xe ∧ l.ys < l.ye) ∨ (l.ys = l.ye ∧ l.xs < l.xe)) ∧
  l.box.x + l.box.w ≤ c.usableCols ∧ l.box.y + l.box.h ≤ c.usableRows

/-- The three slot boxes of one quantity, the integer part taken for up to three digits (45_display_session.md R160). -/
def Cfg.quantityBoxes (c : Cfg) (q : QuantitySlots) : List Box :=
  [c.textBox q.int.x q.int.y 3 q.int.scale, c.textBox q.sym.x q.sym.y 1 q.sym.scale,
   c.textBox q.dec.x q.dec.y 1 q.dec.scale]

/-- The four quantities in the order REFRESH draws them (45_display_session.md R163). -/
def Layout.quantities (l : Layout) : List QuantitySlots :=
  [l.inside.temperature, l.inside.humidity, l.outside.temperature, l.outside.humidity]

/-- The twelve slots (45_display_session.md R160). -/
def Layout.slots (l : Layout) : List Slot :=
  l.quantities.flatMap fun q => [q.int, q.sym, q.dec]

/-- The twelve slot boxes (45_display_session.md R160). -/
def Cfg.slotBoxes (c : Cfg) : List Box := c.layout.quantities.flatMap c.quantityBoxes

/-- Well-formedness of LAYOUT (45_display_session.md R160). -/
abbrev Cfg.LayoutWellFormed (c : Cfg) : Prop :=
  (∀ l ∈ c.layout.labels, l.text.length ≤ 255 ∧ (∀ code ∈ l.text, c.InFont code) ∧ 1 ≤ l.scale ∧
    (c.labelBox l).Inside c) ∧
  (∀ l ∈ c.layout.lines, l.Drawable c) ∧
  (∀ s ∈ c.layout.slots, 1 ≤ s.scale) ∧
  (∀ b ∈ c.slotBoxes, b.Inside c) ∧
  (∀ b ∈ c.slotBoxes, (∀ l ∈ c.layout.labels, ¬ b.Meets (c.labelBox l)) ∧ ∀ l ∈ c.layout.lines, ¬ b.Meets l.box)

/-- The glyphs of FONT_FIX that are not blank (95_test_vectors.md section 1.1). -/
def glyphFix (code : Nat) : List Byte :=
  match code with
  | 0x25 => [0x62, 0x66, 0x0C, 0x18, 0x30, 0x66, 0x46, 0x00]
  | 0x30 => [0x3C, 0x66, 0x6E, 0x76, 0x66, 0x66, 0x3C, 0x00]
  | 0x31 => [0x18, 0x38, 0x18, 0x18, 0x18, 0x18, 0x7E, 0x00]
  | 0x32 => [0x3C, 0x66, 0x06, 0x0C, 0x30, 0x60, 0x7E, 0x00]
  | 0x33 => [0x3C, 0x66, 0x06, 0x1C, 0x06, 0x66, 0x3C, 0x00]
  | 0x34 => [0x0C, 0x1C, 0x3C, 0x6C, 0x7E, 0x0C, 0x0C, 0x00]
  | 0x35 => [0x7E, 0x60, 0x7C, 0x06, 0x06, 0x66, 0x3C, 0x00]
  | 0x36 => [0x3C, 0x66, 0x60, 0x7C, 0x66, 0x66, 0x3C, 0x00]
  | 0x37 => [0x7E, 0x66, 0x0C, 0x18, 0x18, 0x18, 0x18, 0x00]
  | 0x38 => [0x3C, 0x66, 0x66, 0x3C, 0x66, 0x66, 0x3C, 0x00]
  | 0x39 => [0x3C, 0x66, 0x66, 0x3E, 0x06, 0x66, 0x3C, 0x00]
  | 0x41 => [0x18, 0x3C, 0x66, 0x66, 0x7E, 0x66, 0x66, 0x00]
  | 0x49 => [0x3C, 0x18, 0x18, 0x18, 0x18, 0x18, 0x3C, 0x00]
  | 0x4E => [0x66, 0x76, 0x7E, 0x7E, 0x6E, 0x66, 0x66, 0x00]
  | 0x4F => [0x3C, 0x66, 0x66, 0x66, 0x66, 0x66, 0x3C, 0x00]
  | 0x54 => [0x7E, 0x18, 0x18, 0x18, 0x18, 0x18, 0x18, 0x00]
  | 0x55 => [0x66, 0x66, 0x66, 0x66, 0x66, 0x66, 0x3C, 0x00]
  | 0x7F => [0x1C, 0x36, 0x36, 0x1C, 0x00, 0x00, 0x00, 0x00]
  | _ => [0, 0, 0, 0, 0, 0, 0, 0]

/-- FONT_FIX, codes 0x20 to 0x7F (95_test_vectors.md section 1.1). -/
def fontFix : List (List Byte) := (List.range 96).map fun k => glyphFix (0x20 + k)

/-- One quantity of LAYOUT_FIX at column `x` (95_test_vectors.md section 1.2). -/
def quantityFix (x : Nat) : QuantitySlots := ⟨⟨x, 0, 2⟩, ⟨x, 48, 1⟩, ⟨x, 56, 1⟩⟩

/-- LAYOUT_FIX (95_test_vectors.md section 1.2). -/
def layoutFix : Layout where
  labels := [⟨0, 0, [0x49, 0x4E], 0x0000, 1⟩, ⟨64, 0, [0x4F, 0x55, 0x54], 0x0000, 1⟩]
  lines := [⟨60, 0, 60, 128, 0x0000⟩]
  valueColor := 0x1F00
  inside := ⟨quantityFix 16, quantityFix 36⟩
  outside := ⟨quantityFix 80, quantityFix 100⟩

/-- CFG_REF: every default of 00_scope.md R2, with FONT_FIX and LAYOUT_FIX. A fixture, not a description of a panel. -/
def cfgRef : Cfg where
  nativeCols := 132
  nativeRows := 132
  margin := 2
  cmdSwreset := 0x01
  cmdColmod := 0x3A
  cmdMadctl := 0x36
  cmdCaset := 0x2A
  cmdRaset := 0x2B
  cmdRamwr := 0x2C
  cmdDispon := 0x29
  colmod16bit := 0x05
  madctlValue := 0x00
  fontFirst := 0x20
  fontLast := 0x7F
  font := fontFix
  glyphMsbFirst := true
  stringAxis := .y
  digitBase := 0x30
  percentCode := 0x25
  degreeCode := 0x7F
  layout := layoutFix

end Sys2Proof
end

