-- ==== Sys2Proof/Syntax.lean ====
section
/-! DEFINITION. Syntax.lean: the operations of DHE, one constructor per row of spec/opcode_table.json: the thirteen host
operations (30_encoding.md R74) and the seven wire commands the PANEL receives (30_encoding.md R82). -/

namespace Sys2Proof

/-- PACK's channel (30_encoding.md R76): 0 red, 1 green, 2 blue. -/
inductive Channel where
  | red
  | green
  | blue
  deriving DecidableEq, Repr

/-- One unit of work. A host operation carries its immediate operands as 30_encoding.md R71 lays them out; the four
readings of REFRESH are s16 bit patterns (R73). A wire command is the one command byte; its data bytes reach the PANEL as
data (20_memory.md R54 to R58). -/
inductive Instr where
  | reset
  | configure
  | sendCommand (code : Byte)
  | sendData (byte : Byte)
  | setDrawWindow (x y w h : BitVec 16)
  | beginPixelWrite
  | writePixel (pixel : Pixel)
  | pack (channel : Channel) (pct : Byte)
  | drawCharacter (x y : BitVec 16) (code : Byte) (color : Pixel) (scale : Byte)
  | drawString (x y : BitVec 16) (color : Pixel) (scale : Byte) (text : List Byte)
  | drawLine (xs ys xe ye : BitVec 16) (color : Pixel)
  | init
  | refresh (it ih ot oh : BitVec 16)
  | cmdSwreset
  | cmdColmod
  | cmdMadctl
  | cmdCaset
  | cmdRaset
  | cmdRamwr
  | cmdDispon
  deriving DecidableEq, Repr

/-- The thirteen host operations by name (30_encoding.md R74), for the tables of 41_panel_protocol.md R119 and R120. -/
inductive Op where
  | reset
  | configure
  | sendCommand
  | sendData
  | setDrawWindow
  | beginPixelWrite
  | writePixel
  | pack
  | drawCharacter
  | drawString
  | drawLine
  | init
  | refresh
  deriving DecidableEq, Repr

/-- The seven wire commands by name (30_encoding.md R82). -/
inductive WireCmd where
  | swreset
  | colmod
  | madctl
  | caset
  | raset
  | ramwr
  | dispon
  deriving DecidableEq, Repr

end Sys2Proof
end

