-- ==== Sys2Proof/WellFormed.lean ====
section
/-! DEFINITION. WellFormed.lean: which terms of Instr stand for a descriptor or a wire command (30_encoding.md R71 to R77). -/

namespace Sys2Proof

/-- The one check on a term: DRAW_STRING's text has a length `n8` can say, 0 to 255 (30_encoding.md R77). Every other
operand has exactly the values its field has (30_encoding.md R73, R76). -/
def Instr.wellFormed : Instr → Bool
  | .reset => true
  | .configure => true
  | .sendCommand _ => true
  | .sendData _ => true
  | .setDrawWindow _ _ _ _ => true
  | .beginPixelWrite => true
  | .writePixel _ => true
  | .pack _ _ => true
  | .drawCharacter _ _ _ _ _ => true
  | .drawString _ _ _ _ text => text.length ≤ 255
  | .drawLine _ _ _ _ _ => true
  | .init => true
  | .refresh _ _ _ _ => true
  | .cmdSwreset => true
  | .cmdColmod => true
  | .cmdMadctl => true
  | .cmdCaset => true
  | .cmdRaset => true
  | .cmdRamwr => true
  | .cmdDispon => true

end Sys2Proof
end

