-- ==== Sys2Proof/Decode.lean ====
section
/-! DEFINITION. Decode.lean: the descriptor decoder of SEQ and its encoder (30_encoding.md part A), the wire-command
decoder of the PANEL (part B, R82). The assembler (R78) is Machine/Assembler.lean. -/

namespace Sys2Proof

/-! ## Bytes of a 16-bit operand (30_encoding.md R73: most significant byte first) -/

/-- The 16-bit operand whose bytes are `hi lo`. -/
def be16 (hi lo : Byte) : BitVec 16 := hi ++ lo

/-- `hi8` (00_scope.md section 5). -/
def hi8 (v : BitVec 16) : Byte := v.extractLsb' 8 8

/-- `lo8` (00_scope.md section 5). -/
def lo8 (v : BitVec 16) : Byte := v.extractLsb' 0 8

/-- An operand as the two bytes the descriptor holds. -/
def bytes16 (v : BitVec 16) : List Byte := [hi8 v, lo8 v]

/-! ## Descriptors -/

/-- Why bytes are not a descriptor. -/
inductive Reject where
  /-- Fewer than `oplen` bytes remain (30_encoding.md R79). -/
  | truncated
  /-- Byte 0 selects no operation (30_encoding.md R75). -/
  | illegalOpcode (b0 : Byte)
  /-- PACK's channel byte is 3..255 (30_encoding.md R76). -/
  | illegalChannel (chan8 : Byte)
  deriving DecidableEq, Repr

/-- PACK's channel byte (30_encoding.md R76). -/
def channelOf (chan8 : Byte) : Option Channel :=
  match chan8.toNat with
  | 0 => some .red
  | 1 => some .green
  | 2 => some .blue
  | _ => none

/-- The channel byte of a channel (30_encoding.md R76). -/
def chan8Of : Channel → Byte
  | .red => 0
  | .green => 1
  | .blue => 2

/-- Formats B, P and K (30_encoding.md R71): the operands after the opcode byte, with the bytes that follow. -/
def decodeByte (f : Byte → Instr) : List Byte → Except Reject (Instr × List Byte)
  | b1 :: rest => .ok (f b1, rest)
  | [] => .error .truncated

/-- Format P. -/
def decodePixel (f : Pixel → Instr) : List Byte → Except Reject (Instr × List Byte)
  | b1 :: b2 :: rest => .ok (f (be16 b1 b2), rest)
  | _ => .error .truncated

/-- Format K. A truncated descriptor is reported as truncated whatever its channel byte (R79, log entry 18). -/
def decodePack : List Byte → Except Reject (Instr × List Byte)
  | b1 :: b2 :: rest =>
    match channelOf b1 with
    | some ch => .ok (.pack ch b2, rest)
    | none => .error (.illegalChannel b1)
  | _ => .error .truncated

/-- Formats W and R: four 16-bit operands. -/
def decodeFour (f : BitVec 16 → BitVec 16 → BitVec 16 → BitVec 16 → Instr) :
    List Byte → Except Reject (Instr × List Byte)
  | b1 :: b2 :: b3 :: b4 :: b5 :: b6 :: b7 :: b8 :: rest =>
    .ok (f (be16 b1 b2) (be16 b3 b4) (be16 b5 b6) (be16 b7 b8), rest)
  | _ => .error .truncated

/-- Format C. -/
def decodeCharacter : List Byte → Except Reject (Instr × List Byte)
  | b1 :: b2 :: b3 :: b4 :: code8 :: b6 :: b7 :: scale8 :: rest =>
    .ok (.drawCharacter (be16 b1 b2) (be16 b3 b4) code8 (be16 b6 b7) scale8, rest)
  | _ => .error .truncated

/-- Format S: `n8` text bytes follow byte 8 (R77). -/
def decodeString : List Byte → Except Reject (Instr × List Byte)
  | b1 :: b2 :: b3 :: b4 :: b5 :: b6 :: scale8 :: n8 :: rest =>
    if n8.toNat ≤ rest.length then
      .ok (.drawString (be16 b1 b2) (be16 b3 b4) (be16 b5 b6) scale8 (rest.take n8.toNat), rest.drop n8.toNat)
    else .error .truncated
  | _ => .error .truncated

/-- Format L. -/
def decodeLine : List Byte → Except Reject (Instr × List Byte)
  | b1 :: b2 :: b3 :: b4 :: b5 :: b6 :: b7 :: b8 :: b9 :: b10 :: rest =>
    .ok (.drawLine (be16 b1 b2) (be16 b3 b4) (be16 b5 b6) (be16 b7 b8) (be16 b9 b10), rest)
  | _ => .error .truncated

/-- The operation at the head of a byte stream and the bytes after it (30_encoding.md R70 to R77, opcode map R74). -/
def decode : List Byte → Except Reject (Instr × List Byte)
  | [] => .error .truncated
  | b0 :: rest =>
    match b0.toNat with
    | 0x01 => .ok (.reset, rest)
    | 0x02 => .ok (.configure, rest)
    | 0x03 => decodeByte .sendCommand rest
    | 0x04 => decodeByte .sendData rest
    | 0x05 => decodeFour .setDrawWindow rest
    | 0x06 => .ok (.beginPixelWrite, rest)
    | 0x07 => decodePixel .writePixel rest
    | 0x08 => decodePack rest
    | 0x09 => decodeCharacter rest
    | 0x0A => decodeString rest
    | 0x0B => decodeLine rest
    | 0x0C => .ok (.init, rest)
    | 0x0D => decodeFour .refresh rest
    | _ => .error (.illegalOpcode b0)

/-! ## Wire commands (30_encoding.md R82) -/

/-- The code CFG gives a wire command (00_scope.md R2). -/
def Cfg.code (c : Cfg) : WireCmd → Byte
  | .swreset => c.cmdSwreset
  | .colmod => c.cmdColmod
  | .madctl => c.cmdMadctl
  | .caset => c.cmdCaset
  | .raset => c.cmdRaset
  | .ramwr => c.cmdRamwr
  | .dispon => c.cmdDispon

/-- The wire command a command byte stands for; none outside the seven (20_memory.md R53). DESIGN CHOICE: where an ill-formed
CFG gives two commands one code, the first in this order, of which the spec says nothing (log entry 20). -/
def Cfg.wireCmd (c : Cfg) (b : Byte) : Option WireCmd :=
  if b = c.cmdSwreset then some .swreset
  else if b = c.cmdColmod then some .colmod
  else if b = c.cmdMadctl then some .madctl
  else if b = c.cmdCaset then some .caset
  else if b = c.cmdRaset then some .raset
  else if b = c.cmdRamwr then some .ramwr
  else if b = c.cmdDispon then some .dispon
  else none

/-- A wire command as a term of Instr. -/
def WireCmd.instr : WireCmd → Instr
  | .swreset => .cmdSwreset
  | .colmod => .cmdColmod
  | .madctl => .cmdMadctl
  | .caset => .cmdCaset
  | .raset => .cmdRaset
  | .ramwr => .cmdRamwr
  | .dispon => .cmdDispon

/-- The wire command a term of Instr is; none for a host operation. -/
def Instr.wire : Instr → Option WireCmd
  | .cmdSwreset => some .swreset
  | .cmdColmod => some .colmod
  | .cmdMadctl => some .madctl
  | .cmdCaset => some .caset
  | .cmdRaset => some .raset
  | .cmdRamwr => some .ramwr
  | .cmdDispon => some .dispon
  | .reset => none
  | .configure => none
  | .sendCommand _ => none
  | .sendData _ => none
  | .setDrawWindow _ _ _ _ => none
  | .beginPixelWrite => none
  | .writePixel _ => none
  | .pack _ _ => none
  | .drawCharacter _ _ _ _ _ => none
  | .drawString _ _ _ _ _ => none
  | .drawLine _ _ _ _ _ => none
  | .init => none
  | .refresh _ _ _ _ => none

/-- The PANEL's decoder: the wire command of a command byte, as a term of Instr (30_encoding.md R82). -/
def decodeWire (c : Cfg) (b : Byte) : Option Instr := (c.wireCmd b).map WireCmd.instr

/-! ## The encoder -/

/-- The bytes of a well-formed instruction: a descriptor (30_encoding.md R71, R74), or the one command byte of a wire
command under `c` (R82). -/
def encode (c : Cfg) : Instr → List Byte
  | .reset => [0x01]
  | .configure => [0x02]
  | .sendCommand code => [0x03, code]
  | .sendData byte => [0x04, byte]
  | .setDrawWindow x y w h => 0x05 :: (bytes16 x ++ bytes16 y ++ bytes16 w ++ bytes16 h)
  | .beginPixelWrite => [0x06]
  | .writePixel pixel => 0x07 :: bytes16 pixel
  | .pack ch pct => [0x08, chan8Of ch, pct]
  | .drawCharacter x y code color scale => 0x09 :: (bytes16 x ++ bytes16 y ++ code :: (bytes16 color ++ [scale]))
  | .drawString x y color scale text =>
    0x0A :: (bytes16 x ++ bytes16 y ++ bytes16 color ++ scale :: BitVec.ofNat 8 text.length :: text)
  | .drawLine xs ys xe ye color => 0x0B :: (bytes16 xs ++ bytes16 ys ++ bytes16 xe ++ bytes16 ye ++ bytes16 color)
  | .init => [0x0C]
  | .refresh it ih ot oh => 0x0D :: (bytes16 it ++ bytes16 ih ++ bytes16 ot ++ bytes16 oh)
  | .cmdSwreset => [c.cmdSwreset]
  | .cmdColmod => [c.cmdColmod]
  | .cmdMadctl => [c.cmdMadctl]
  | .cmdCaset => [c.cmdCaset]
  | .cmdRaset => [c.cmdRaset]
  | .cmdRamwr => [c.cmdRamwr]
  | .cmdDispon => [c.cmdDispon]

/-- Length in bytes: `oplen` for a descriptor (30_encoding.md R72), 1 for a wire command (R85). -/
def oplen : Instr → Nat
  | .reset => 1
  | .configure => 1
  | .sendCommand _ => 2
  | .sendData _ => 2
  | .setDrawWindow _ _ _ _ => 9
  | .beginPixelWrite => 1
  | .writePixel _ => 3
  | .pack _ _ => 3
  | .drawCharacter _ _ _ _ _ => 9
  | .drawString _ _ _ _ text => 9 + text.length
  | .drawLine _ _ _ _ _ => 11
  | .init => 1
  | .refresh _ _ _ _ => 9
  | .cmdSwreset => 1
  | .cmdColmod => 1
  | .cmdMadctl => 1
  | .cmdCaset => 1
  | .cmdRaset => 1
  | .cmdRamwr => 1
  | .cmdDispon => 1

/-! ## The opcode table's numbering -/

/-- The longest descriptor: DRAW_STRING with 255 text bytes (30_encoding.md R72). -/
def maxOplen : Nat := 264

/-- The bytes of a table word: byte k is bits 8k+7..8k of `w`, every bit from `nbits` on 0, up to the longest descriptor. -/
def tableBytes (nbits w : Nat) : List Byte :=
  (List.range maxOplen).map fun k => BitVec.ofNat 8 (w % 2 ^ nbits / 2 ^ (8 * k))

/-- The instruction a table word stands for: what SEQ's decoder reads, and for a one-byte word SEQ's decoder refuses, the
wire command the PANEL's decoder reads under CFG_REF, whose defaults the table shows (log entry 14). -/
def decodeTableWord (nbits w : Nat) : Option Instr :=
  match decode (tableBytes nbits w) with
  | .ok (i, _) => some i
  | .error _ => if nbits ≤ 8 then decodeWire cfgRef (BitVec.ofNat 8 (w % 2 ^ nbits)) else none

end Sys2Proof
end

