-- ==== Sys2Proof/Machine/State.lean ====
section
/-! DEFINITION. Machine/State.lean: the state of DHE and of the PANEL, the events of WIRE, the micro-actions of SEQ, the
reasons a step can stop, and the state after power-on reset (10_state.md, 20_memory.md R50, 60_exceptions.md R170). -/

namespace Sys2Proof.Machine

/-- PSTATE (10_state.md R14). Its fourth encoding is never taken. -/
inductive PState where
  | uninitialized
  | reset
  | configured
  deriving DecidableEq, Repr

/-- HALT_CAUSE (60_exceptions.md R170). -/
inductive Cause where
  | none
  | windowInvalid
  | scaleInvalid
  | charCodeInvalid
  | lineInvalid
  | transportFault
  | protocolOrder
  | streamCount
  | illegalOp
  | percentInvalid
  | readingInvalid
  | transferArg
  deriving DecidableEq, Repr

/-- An event of WIRE (10_state.md R30). `dc` is the DCX level: false for a command, true for data. -/
inductive Event where
  | resx (level : Bool)
  | delay (d : Delay)
  | xfer (dc : Bool) (bytes : List Byte)
  | xferFault (dc : Bool) (sent : List Byte)
  deriving DecidableEq, Repr

/-- INFLIGHT when it is not none (10_state.md R21). -/
structure InFlight where
  dc : Bool
  bytes : List Byte
  deriving DecidableEq, Repr

/-- What BUS does when it could step (10_state.md R25): perform (40_transfer.md R103), fault after `sent` bytes (R105), or
not step yet (R106). -/
inductive BusChoice where
  | perform
  | fault (sent : Nat)
  | stall
  deriving DecidableEq, Repr

/-- What HOST does on RST_N before a step (10_state.md R10, 70_reset_and_hazards.md R200). -/
inductive HostAct where
  | idle
  | assertReset
  | releaseReset
  deriving DecidableEq, Repr

/-- A check of an operation's pseudocode; `Check.passes` and `Check.cause` (Machine/Flags.lean) say what it tests and
which halt its failure raises (60_exceptions.md R174). -/
inductive Check where
  | legal (op : Op)
  | streamRule (op : Op)
  | windowFits (x y w h : Nat)
  | windowValid
  | streaming
  | percent (pct : Nat)
  | scale (scale : Nat)
  | charCode (code : Byte)
  | axisAligned (xs ys xe ye : Nat)
  | startFirst (from_ to_ : Nat)
  | readings (it ih ot oh : Int)
  deriving DecidableEq, Repr

/-- A single register write of SEQ's pseudocode (10_state.md R10), on its own (log entry 9). -/
inductive RegWrite where
  /-- `PSTATE <- p`. -/
  | pstate (p : PState)
  /-- `WIN_VALID <- b`. -/
  | winValid (b : Bool)
  /-- `STREAMING <- b`. -/
  | streaming (b : Bool)
  /-- `PX_REMAINING <- n`. -/
  | pxRemaining (n : BitVec 17)
  | winXs (v : BitVec 8)
  | winXe (v : BitVec 8)
  | winYs (v : BitVec 8)
  | winYe (v : BitVec 8)
  | winW (v : BitVec 9)
  | winH (v : BitVec 9)
  | winCount (v : BitVec 17)
  /-- `PX_REMAINING <- WIN_COUNT` (41_panel_protocol.md R115). -/
  | takeCount
  /-- `PX_REMAINING <- PX_REMAINING - 1` (41_panel_protocol.md R116). -/
  | countDown
  /-- `if PX_REMAINING = 0 then STREAMING <- 0` (41_panel_protocol.md R116). -/
  | closeAtZero
  /-- `PIXACC[7:3] <- v` (42_pixel_model.md R134). -/
  | pixRed (v : BitVec 5)
  /-- `PIXACC[2:0] <- v` (42_pixel_model.md R134). -/
  | pixGreenHigh (v : BitVec 3)
  /-- `PIXACC[15:13] <- v` (42_pixel_model.md R134). -/
  | pixGreenLow (v : BitVec 3)
  /-- `PIXACC[12:8] <- v` (42_pixel_model.md R134). -/
  | pixBlue (v : BitVec 5)
  /-- `RASTER_BUF[i] <- p` (43_glyph_rasterizer.md R141). -/
  | rasterCell (i : Nat) (p : Pixel)
  deriving DecidableEq, Repr

/-- One action of SEQ's pseudocode (10_state.md R10: each check, register write, pin write, delay and transfer issue). A
group of register writes with nothing between them is one action here; `Micro.writes` (Machine/Ops.lean) takes it apart
(log entry 9). -/
inductive Micro where
  /-- A check: raise its halt unless it passes. -/
  | require (c : Check)
  /-- `PSTATE <- 0 ; WIN_VALID <- 0 ; STREAMING <- 0 ; PX_REMAINING <- 0` (41_panel_protocol.md R110). -/
  | beginReset
  /-- `RESX <- l` with its event. -/
  | setResx (level : Bool)
  /-- `delay(T)` (70_reset_and_hazards.md R212). -/
  | delay (d : Delay)
  | setPstate (p : PState)
  | setDcx (level : Bool)
  /-- `transfer(bytes)`: issue, then wait (40_transfer.md R100). -/
  | transfer (bytes : List Byte)
  /-- `WIN_VALID <- 0` (41_panel_protocol.md R114). -/
  | invalidateWindow
  /-- `WIN_XS <- x ; ... ; WIN_COUNT <- w * h ; WIN_VALID <- 1` (41_panel_protocol.md R114). -/
  | loadWindow (x y w h : Nat)
  /-- `PX_REMAINING <- WIN_COUNT ; STREAMING <- 1` (41_panel_protocol.md R115). -/
  | openStream
  /-- `PX_REMAINING <- PX_REMAINING - 1 ; if PX_REMAINING = 0 then STREAMING <- 0` (41_panel_protocol.md R116). -/
  | countPixel
  /-- PACK's write of PIXACC (42_pixel_model.md R134). -/
  | packField (ch : Channel) (pct : Nat)
  /-- `for i do RASTER_BUF[i] <- raster(code, color, scale)[i]` (43_glyph_rasterizer.md R141). -/
  | rasterize (code : Byte) (color : Pixel) (scale : Nat)
  /-- `transfer` of the Pixel RASTER_BUF[i] (43_glyph_rasterizer.md R141, 41_panel_protocol.md R116). -/
  | transferRaster (i : Nat)
  /-- RASTER_BUF does not survive the operation (10_state.md R22, log entry 6). -/
  | dropRaster
  /-- `PC <- PC + n` (41_panel_protocol.md R117). -/
  | advancePc (n : Nat)
  /-- One register write of a group that has been taken apart; no program holds one. -/
  | write (w : RegWrite)
  deriving DecidableEq, Repr

/-- The panel's memory: (address, byte) pairs with strictly rising addresses; an address not listed reads as no value
(20_memory.md R41, log entry 10). -/
abbrev Memory := List Host.Cell

/-- P_CX and P_CY (20_memory.md R50): a cell, END after the last cell, or unset. -/
inductive Cursor where
  | unset
  | cell (cx cy : Nat)
  | finished
  deriving DecidableEq, Repr

/-- The PANEL agent's state (20_memory.md R50). -/
structure Panel where
  cmd : Option Byte
  args : List Byte
  xs : Option Nat
  xe : Option Nat
  ys : Option Nat
  ye : Option Nat
  cursor : Cursor
  half : Option Byte
  fmt : Option Byte
  orient : Option Byte
  on : Bool
  bad : Bool
  gram : Memory
  deriving DecidableEq, Repr

/-- The Draw Window registers (10_state.md R11). -/
structure Window where
  xs : BitVec 8
  xe : BitVec 8
  ys : BitVec 8
  ye : BitVec 8
  w : BitVec 9
  h : BitVec 9
  count : BitVec 17
  deriving DecidableEq, Repr

/-- The state of the machine (10_state.md). CFG, PROG and BUS's choices are no part of it (00_scope.md R2, 10_state.md R25).
`todo` is SEQ's position in the operation it performs, empty between operations (log entry 9). -/
structure Regs where
  rstN : Bool
  pc : Nat
  pstate : PState
  xferBusy : Bool
  inflight : Option InFlight
  dcx : Bool
  resx : Bool
  winValid : Bool
  win : Window
  streaming : Bool
  pxRemaining : BitVec 17
  pixacc : Pixel
  halted : Bool
  haltCause : Cause
  haltPc : Nat
  rasterBuf : List Pixel
  wire : List Event
  todo : List Micro
  panel : Panel
  deriving DecidableEq, Repr

/-- What the step relation takes of BUS and HOST, which no state of DHE determines: `bus` is BUS's choices still to come, one
at each of its turns, and `busRest` its choice each time once they are used up, so that BUS may never step again
(10_state.md R25, 40_transfer.md R105, R106; log entry 4); `host` is HOST's actions on RST_N still to come, one a step
(log entry 15). -/
structure Inputs where
  bus : List BusChoice
  busRest : BusChoice
  host : List HostAct
  deriving DecidableEq, Repr

/-- The machine's state together with the parameters of its run: BUS's choices and HOST's actions still to come, which a step
uses up, and CFG and PROG, which no step writes. It is what the interface `step : State → ...` takes (log entry 1).
`stepUnder` (Machine/Under.lean) is the step relation on `Regs` with all of these as its parameters. -/
@[ext]
structure State extends Regs, Inputs where
  cfg : Cfg
  prog : List Byte
  deriving DecidableEq, Repr

/-- The states in which neither SEQ nor BUS has a step. None is a trap of the machine: a trap is a halt, which is a next
state (60_exceptions.md R176). -/
inductive Fault where
  /-- Raised by step and by every host operation: HALTED = 1, no further step (60_exceptions.md R178). Safe. -/
  | halted
  /-- Raised by step: RST_N is asserted and HOST does nothing about it (70_reset_and_hazards.md R200). Safe. -/
  | heldInReset
  /-- Raised by step: PC = len(PROG), nothing left to fetch (10_state.md R33). Safe. -/
  | endOfProgram
  /-- Raised by step: fewer than `oplen` bytes remain, SEQ waits for bytes HOST has not supplied (30_encoding.md R79).
  Safe. -/
  | awaitingBytes
  /-- Raised by a host operation asked for while SEQ is inside another one (41_panel_protocol.md R117: "An operation is
  performed to its end before the next is fetched"); `step` never asks. Safe. -/
  | midOperation
  deriving DecidableEq, Repr

/-- The reasons an instruction has no meaning. -/
inductive Refusal where
  /-- Raised by exec for an instruction this model does not give a meaning yet; no arm answers it. Safe. -/
  | notModelled (mnemonic : String)
  deriving DecidableEq, Repr

/-- The panel after a panel reset: every register unset, nothing known of GRAM (20_memory.md R51). -/
def Panel.cleared : Panel where
  cmd := none
  args := []
  xs := none
  xe := none
  ys := none
  ye := none
  cursor := .unset
  half := none
  fmt := none
  orient := none
  on := false
  bad := false
  gram := []

/-- The panel at power-on of DHE: all of it unspecified, which is what P_BAD = 1 says (20_memory.md R51, R60;
70_reset_and_hazards.md R201). DESIGN CHOICE, log entry 8. -/
def Panel.atPowerOn : Panel := { Panel.cleared with bad := true }

/-- The Draw Window registers after power-on reset: unspecified (10_state.md R28). DESIGN CHOICE 0, log entry 5. -/
def Window.atReset : Window where
  xs := 0
  xe := 0
  ys := 0
  ye := 0
  w := 0
  h := 0
  count := 0

/-- The machine right after power-on reset (10_state.md R28, 70_reset_and_hazards.md R200), with CFG_REF, an empty PROG, a
BUS that performs every transfer and an idle HOST (log entries 2, 3, 4, 15). -/
def State.reset : State where
  cfg := cfgRef
  prog := []
  bus := []
  busRest := .perform
  host := []
  rstN := true
  pc := 0
  pstate := .uninitialized
  xferBusy := false
  inflight := none
  dcx := true
  resx := true
  winValid := false
  win := Window.atReset
  streaming := false
  pxRemaining := 0
  pixacc := 0x0000
  halted := false
  haltCause := .none
  haltPc := 0
  rasterBuf := []
  wire := []
  todo := []
  panel := Panel.atPowerOn

end Sys2Proof.Machine
end

