-- ==== Sys2Proof/Machine/Operands.lean ====
section
/-! DEFINITION. Machine/Operands.lean: what operands stand for: coordinates and windows (20_memory.md R42, R43), Pixels
(42_pixel_model.md R130 to R135), glyphs (20_memory.md R45, 43_glyph_rasterizer.md R140, R144), readings
(45_display_session.md R162), and the bytes a transfer moves (30_encoding.md R83, R84). -/

namespace Sys2Proof.Machine

/-! ## Windows -/

/-- Translation to a physical coordinate (20_memory.md R42). -/
def phys (c : Cfg) (v : Nat) : Nat := v + c.margin

/-- The window check, computed without wrap-around (20_memory.md R43). -/
abbrev WindowOk (c : Cfg) (x y w h : Nat) : Prop :=
  w > 0 ∧ h > 0 ∧ x + w ≤ c.usableCols ∧ y + h ≤ c.usableRows

/-- A physical coordinate as the one data byte that carries it (30_encoding.md R83). -/
def coordByte (v : Nat) : Byte := BitVec.ofNat 8 v

/-- The Draw Window registers after a successful `set_draw_window` (41_panel_protocol.md R114). -/
def windowOf (x y w h : Nat) : Window where
  xs := BitVec.ofNat 8 x
  xe := BitVec.ofNat 8 (x + w - 1)
  ys := BitVec.ofNat 8 y
  ye := BitVec.ofNat 8 (y + h - 1)
  w := BitVec.ofNat 9 w
  h := BitVec.ofNat 9 h
  count := BitVec.ofNat 17 (w * h)

/-! ## Pixels -/

/-- MAXV (00_scope.md R4). -/
def maxv : Channel → Nat
  | .red => 31
  | .green => 63
  | .blue => 31

/-- `quant(channel, pct)` (42_pixel_model.md R133). -/
def quant (ch : Channel) (pct : Nat) : Nat := maxv ch * pct / 100

/-- `place(channel, v)` (42_pixel_model.md R133). -/
def place : Channel → Nat → Nat
  | .red, v => v * 8
  | .green, v => v / 8 + v % 8 * 8192
  | .blue, v => v * 256

/-- `pack(channel, pct)` (42_pixel_model.md R133). -/
def pack (ch : Channel) (pct : Nat) : Pixel := BitVec.ofNat 16 (place ch (quant ch pct))

/-- `unpack(channel, P)` (42_pixel_model.md R132). -/
def unpack (ch : Channel) (p : Pixel) : Nat :=
  match ch with
  | .red => (p.extractLsb' 3 5).toNat
  | .green => (p.extractLsb' 0 3).toNat * 8 + (p.extractLsb' 13 3).toNat
  | .blue => (p.extractLsb' 8 5).toNat

/-- `rgb(pr, pg, pb)` (42_pixel_model.md R135). -/
def rgb (pr pg pb : Nat) : Pixel := pack .red pr + pack .green pg + pack .blue pb

/-- The bits of a channel's field or fields (42_pixel_model.md R134). -/
def channelMask : Channel → Pixel
  | .red => 0x00F8
  | .green => 0xE007
  | .blue => 0x1F00

/-- PACK's assignment: the channel's field or fields of `p` take `v`, every other bit stays (42_pixel_model.md R134). -/
def setField (ch : Channel) (v : Nat) (p : Pixel) : Pixel :=
  match ch with
  | .red => p.extractLsb' 8 8 ++ BitVec.ofNat 5 v ++ p.extractLsb' 0 3
  | .green => BitVec.ofNat 3 v ++ p.extractLsb' 3 10 ++ BitVec.ofNat 3 (v / 8)
  | .blue => p.extractLsb' 13 3 ++ BitVec.ofNat 5 v ++ p.extractLsb' 0 8

/-- The two bytes of a Pixel in the order sent, low byte first (30_encoding.md R84). -/
def pixelBytes (p : Pixel) : List Byte := [lo8 p, hi8 p]

/-- `wirev(P)` (42_pixel_model.md R131). -/
def wirev (p : Pixel) : Pixel := be16 (lo8 p) (hi8 p)

/-! ## Glyphs -/

/-- Row `r` of the glyph of `code` (20_memory.md R45); 0 where an ill-formed FONT lists none (log entry 20). -/
def glyphRow (c : Cfg) (code : Byte) (r : Nat) : Byte := (c.font.getD (code.toNat - c.fontFirst.toNat) []).getD r 0

/-- `glyph_bit(code, r, c)` (20_memory.md R45). -/
def glyphBit (c : Cfg) (code : Byte) (r col : Nat) : Bool :=
  (glyphRow c code r).getLsbD (if c.glyphMsbFirst then 7 - col else col)

/-- Pixel `i` of `raster(code, color, s)` (43_glyph_rasterizer.md R144). -/
def rasterPixel (c : Cfg) (code : Byte) (color : Pixel) (s i : Nat) : Pixel :=
  if glyphBit c code (i / (8 * s) / s) (i % (8 * s) / s) then color else bg

/-- `raster(code, color, s)`: the (8·s)² Pixels of a glyph, row-major (43_glyph_rasterizer.md R144). -/
def raster (c : Cfg) (code : Byte) (color : Pixel) (s : Nat) : List Pixel :=
  (List.range (8 * s * (8 * s))).map (rasterPixel c code color s)

/-! ## Readings -/

/-- `ipart` (45_display_session.md R162). -/
def ipart (t10 : Nat) : Nat := t10 / 10

/-- `dpart` (45_display_session.md R162). -/
def dpart (t10 : Nat) : Nat := t10 % 10

/-- `digits` with at most `fuel` + 1 digits, in front of `acc`. -/
def digitsAux : Nat → Nat → List Nat → List Nat
  | 0, m, acc => m :: acc
  | fuel + 1, m, acc => if m < 10 then m :: acc else digitsAux fuel (m / 10) (m % 10 :: acc)

/-- `digits(m)`: decimal digits, most significant first, no leading zero, `digits(0) = [0]` (45_display_session.md R162). -/
def digits (m : Nat) : List Nat := digitsAux m m []

/-- The character code of a digit (00_scope.md R2, DIGIT_BASE). -/
def digitCode (c : Cfg) (d : Nat) : Byte := c.digitBase + BitVec.ofNat 8 d

/-- `istring(t10)` (45_display_session.md R162). -/
def istring (c : Cfg) (t10 : Nat) : List Byte := (digits (ipart t10)).map (digitCode c)

/-- `dchar(t10)` (45_display_session.md R162). -/
def dchar (c : Cfg) (t10 : Nat) : Byte := digitCode c (dpart t10)

end Sys2Proof.Machine
end

