-- ==== Sys2Proof/Machine/Flags.lean ====
section
/-! DEFINITION. Machine/Flags.lean: what SEQ tests before it acts. DHE has no arithmetic condition codes (10_state.md
section 4); its flags are XFER_BUSY, WIN_VALID, STREAMING with PX_REMAINING, and the protocol state, and the tests on them
and on operands are the checks of 60_exceptions.md R174. -/

namespace Sys2Proof.Machine

/-- The legality table of 41_panel_protocol.md R119. -/
def opLegal : Op → PState → Bool
  | .reset, _ => true
  | .configure, p => p = .reset
  | .sendCommand, p => p ≠ .uninitialized
  | .sendData, p => p ≠ .uninitialized
  | .setDrawWindow, p => p ≠ .uninitialized
  | .beginPixelWrite, p => p ≠ .uninitialized
  | .writePixel, p => p ≠ .uninitialized
  | .pack, _ => true
  | .drawCharacter, p => p = .configured
  | .drawString, p => p = .configured
  | .drawLine, p => p = .configured
  | .init, _ => true
  | .refresh, p => p = .configured

/-- The operations allowed while STREAMING = 1 (41_panel_protocol.md R117, R120). -/
def streamExempt : Op → Bool
  | .reset => true
  | .configure => false
  | .sendCommand => false
  | .sendData => false
  | .setDrawWindow => false
  | .beginPixelWrite => false
  | .writePixel => true
  | .pack => true
  | .drawCharacter => false
  | .drawString => false
  | .drawLine => false
  | .init => true
  | .refresh => false

/-- What a check tests: the common checks of 41_panel_protocol.md R117, the window check (20_memory.md R43), WIN_VALID
(R115), STREAMING (R116), the percentage (42_pixel_model.md R134), scale and code (43_glyph_rasterizer.md R141), the axis
rule (44_line_primitive.md R150), the order of a line's ends (R151), the readings' signs (45_display_session.md R163). -/
def Check.passes (k : Check) (s : State) : Bool :=
  match k with
  | .legal op => opLegal op s.pstate
  | .streamRule op => !s.streaming || streamExempt op
  | .windowFits x y w h => decide (WindowOk s.cfg x y w h)
  | .windowValid => s.winValid
  | .streaming => s.streaming
  | .percent pct => pct ≤ 100
  | .scale n => 1 ≤ n
  | .charCode code => decide (s.cfg.InFont code)
  | .axisAligned xs ys xe ye => (xs = xe && ys ≠ ye) || (ys = ye && xs ≠ xe)
  | .startFirst a b => a ≤ b
  | .readings it ih ot oh => 0 ≤ it && 0 ≤ ih && 0 ≤ ot && 0 ≤ oh

/-- The halt a failing check raises (60_exceptions.md R170). -/
def Check.cause : Check → Cause
  | .legal _ => .protocolOrder
  | .streamRule _ => .streamCount
  | .windowFits _ _ _ _ => .windowInvalid
  | .windowValid => .protocolOrder
  | .streaming => .streamCount
  | .percent _ => .percentInvalid
  | .scale _ => .scaleInvalid
  | .charCode _ => .charCodeInvalid
  | .axisAligned _ _ _ _ => .lineInvalid
  | .startFirst _ _ => .windowInvalid
  | .readings _ _ _ _ => .readingInvalid

/-- HALT_CAUSE's code (60_exceptions.md R170). -/
def Cause.code : Cause → BitVec 4
  | .none => 0
  | .windowInvalid => 1
  | .scaleInvalid => 2
  | .charCodeInvalid => 3
  | .lineInvalid => 4
  | .transportFault => 5
  | .protocolOrder => 6
  | .streamCount => 7
  | .illegalOp => 8
  | .percentInvalid => 9
  | .readingInvalid => 10
  | .transferArg => 11

/-- PSTATE's encoding (10_state.md R14). -/
def PState.code : PState → BitVec 2
  | .uninitialized => 0
  | .reset => 1
  | .configured => 2

end Sys2Proof.Machine
end

