-- ==== Sys2Proof/Machine/Ops.lean ====
section
/-! DEFINITION. Machine/Ops.lean: the shared operations: the panel's memory, the PANEL agent (20_memory.md R50 to R60),
the wire history (10_state.md R30, R31), halt entry (60_exceptions.md R176), the Transfer Primitive (40_transfer.md), SEQ's
actions, and performing an operation (41_panel_protocol.md R117). -/

namespace Sys2Proof.Machine

/-! ## The panel's memory -/

/-- Strictly rising addresses, each above `lo` where there is one. -/
def Memory.wfFrom : Option Nat → Memory → Bool
  | _, [] => true
  | none, (a, _) :: m => Memory.wfFrom (some a) m
  | some lo, (a, _) :: m => decide (lo < a) && Memory.wfFrom (some a) m

/-- The canonical form: strictly rising addresses. An unlisted address reads as no value, so no entry can repeat it. -/
def Memory.wf (m : Memory) : Bool := Memory.wfFrom none m

/-- The byte at an address; no value where nothing has been written (20_memory.md R41, R51). -/
def Memory.read : Memory → Nat → Option Byte
  | [], _ => none
  | (k, v) :: m, a => if a = k then some v else Memory.read m a

/-- Writes a byte and keeps the canonical form. -/
def Memory.write : Memory → Nat → Byte → Memory
  | [], a, b => [(a, b)]
  | (k, v) :: m, a, b =>
    if a < k then (a, b) :: (k, v) :: m
    else if a = k then (a, b) :: m
    else (k, v) :: Memory.write m a b

/-- Address of the first byte of GRAM[row][col]: row-major, two bytes a cell (log entry 10). -/
def gramAddr (c : Cfg) (row col : Nat) : Nat := 2 * (row * c.nativeCols + col)

/-- `GRAM[row][col] <- v`: bits 15:8 at the lower address (20_memory.md R41). -/
def gramWrite (c : Cfg) (m : Memory) (row col : Nat) (v : Pixel) : Memory :=
  (m.write (gramAddr c row col) (hi8 v)).write (gramAddr c row col + 1) (lo8 v)

/-! ## The PANEL agent -/

/-- `P_BAD <- 1` (20_memory.md R50, R60). -/
def Panel.poison (p : Panel) : Panel := { p with bad := true }

/-- The short-stream test of a command byte (20_memory.md R53): a stream is open and has half a pixel or a cell left. -/
def Panel.streamOpen (c : Cfg) (p : Panel) : Bool :=
  p.cmd = some c.cmdRamwr &&
    (p.half.isSome || match p.cursor with
      | .unset => false
      | .cell _ _ => true
      | .finished => false)

/-- What every command byte does first (20_memory.md R53): the short-stream test, then `P_CMD <- c`, `P_ARGS <- []`,
`P_HALF <- none`. The rules of the PANEL move its registers also while P_BAD = 1, when their values mean nothing (R60,
log entry 11). -/
def Panel.enter (c : Cfg) (code : Byte) (p : Panel) : Panel :=
  { p with bad := p.bad || p.streamOpen c, cmd := some code, args := [], half := none }

/-- CMD_SWRESET (20_memory.md R53, R51): the panel reset, after which P_BAD = 0. -/
def panelSwreset (_c : Cfg) (_p : Panel) : Panel := Panel.cleared

/-- CMD_COLMOD: nothing more until data arrives (20_memory.md R53). -/
def panelColmod (c : Cfg) (p : Panel) : Panel := p.enter c c.cmdColmod

/-- CMD_MADCTL: nothing more until data arrives (20_memory.md R53). -/
def panelMadctl (c : Cfg) (p : Panel) : Panel := p.enter c c.cmdMadctl

/-- CMD_CASET: nothing more until data arrives (20_memory.md R53). -/
def panelCaset (c : Cfg) (p : Panel) : Panel := p.enter c c.cmdCaset

/-- CMD_RASET: nothing more until data arrives (20_memory.md R53). -/
def panelRaset (c : Cfg) (p : Panel) : Panel := p.enter c c.cmdRaset

/-- CMD_RAMWR: the cursor goes to the window's first cell if all four window registers are set, else P_BAD
(20_memory.md R53). -/
def panelRamwr (c : Cfg) (p : Panel) : Panel :=
  let q := p.enter c c.cmdRamwr
  match p.xs, p.xe, p.ys, p.ye with
  | some xs, some _, some ys, some _ => { q with cursor := .cell xs ys }
  | _, _, _, _ => q.poison

/-- CMD_DISPON: `P_ON <- 1` (20_memory.md R53). -/
def panelDispon (c : Cfg) (p : Panel) : Panel := { p.enter c c.cmdDispon with on := true }

/-- A wire command (20_memory.md R53). -/
def panelCmd (c : Cfg) (k : WireCmd) (p : Panel) : Panel :=
  match k with
  | .swreset => panelSwreset c p
  | .colmod => panelColmod c p
  | .madctl => panelMadctl c p
  | .caset => panelCaset c p
  | .raset => panelRaset c p
  | .ramwr => panelRamwr c p
  | .dispon => panelDispon c p

/-- A command byte: one of the seven, or any other, which poisons (20_memory.md R53). -/
def panelCommand (c : Cfg) (b : Byte) (p : Panel) : Panel :=
  match c.wireCmd b with
  | some k => panelCmd c k p
  | none => (p.enter c b).poison

/-- Cursor advance from cell (cx, cy) (20_memory.md R57). -/
def Panel.advance (p : Panel) (cx cy : Nat) : Cursor :=
  match p.xs, p.xe, p.ye with
  | some xs, some xe, some ye =>
    if cx < xe then .cell (cx + 1) cy
    else if cy < ye then .cell xs (cy + 1)
    else .finished
  | _, _, _ => .unset

/-- A complete pixel `v` in wire order (20_memory.md R56, R57, R58). -/
def panelPixel (c : Cfg) (v : Pixel) (p : Panel) : Panel :=
  if p.fmt = some c.colmod16bit ∧ p.orient = some c.madctlValue then
    match p.cursor with
    | .cell cx cy => { p with gram := gramWrite c p.gram cy cx v, cursor := p.advance cx cy }
    | .unset => p.poison
    | .finished => p.poison
  else p.poison

/-- The PANEL's list of data bytes received since P_CMD gains one (20_memory.md R50). -/
def Panel.takeArg (b : Byte) (p : Panel) : Panel := { p with args := p.args ++ [b] }

/-- Data for CMD_CASET, the byte already in P_ARGS (20_memory.md R54). -/
def panelDataCaset (c : Cfg) (p : Panel) : Panel :=
  match p.args with
  | [a0, a1, a2, a3] =>
    let xs := a0.toNat * 256 + a1.toNat
    let xe := a2.toNat * 256 + a3.toNat
    { p with xs := some xs, xe := some xe, bad := p.bad || decide (xs > xe ∨ xe ≥ c.nativeCols) }
  | args => { p with bad := p.bad || decide (4 < args.length) }

/-- Data for CMD_RASET, the byte already in P_ARGS (20_memory.md R55). -/
def panelDataRaset (c : Cfg) (p : Panel) : Panel :=
  match p.args with
  | [a0, a1, a2, a3] =>
    let ys := a0.toNat * 256 + a1.toNat
    let ye := a2.toNat * 256 + a3.toNat
    { p with ys := some ys, ye := some ye, bad := p.bad || decide (ys > ye ∨ ye ≥ c.nativeRows) }
  | args => { p with bad := p.bad || decide (4 < args.length) }

/-- Data for CMD_RAMWR (20_memory.md R56). -/
def panelDataRamwr (c : Cfg) (b : Byte) (p : Panel) : Panel :=
  match p.half with
  | none => { p with half := some b }
  | some first => panelPixel c (be16 first b) { p with half := none }

/-- Data for CMD_COLMOD, the byte already in P_ARGS: the first sets P_FMT, a second poisons (20_memory.md R58). -/
def panelDataColmod (p : Panel) : Panel :=
  match p.args with
  | [b] => { p with fmt := some b }
  | _ => p.poison

/-- Data for CMD_MADCTL, the byte already in P_ARGS: the first sets P_ORIENT, a second poisons (20_memory.md R58). -/
def panelDataMadctl (p : Panel) : Panel :=
  match p.args with
  | [b] => { p with orient := some b }
  | _ => p.poison

/-- A data byte: it joins P_ARGS, and the rest goes by P_CMD (20_memory.md R50, R52, R54 to R58). -/
def panelData (c : Cfg) (b : Byte) (p : Panel) : Panel :=
  let q := p.takeArg b
  match p.cmd.bind c.wireCmd with
  | some .caset => panelDataCaset c q
  | some .raset => panelDataRaset c q
  | some .ramwr => panelDataRamwr c b q
  | some .colmod => panelDataColmod q
  | some .madctl => panelDataMadctl q
  | some .swreset => q.poison
  | some .dispon => q.poison
  | none => q.poison

/-- One byte as the PANEL receives it (20_memory.md R52). -/
def panelByte (c : Cfg) (dc : Bool) (p : Panel) (b : Byte) : Panel :=
  if dc then panelData c b p else panelCommand c b p

/-- One event of WIRE as the PANEL sees it (20_memory.md R51, R52). RESX(1) and DELAY change nothing (log entry 13). -/
def panelEvent (c : Cfg) (p : Panel) : Event → Panel
  | .resx false => Panel.cleared
  | .resx true => p
  | .delay _ => p
  | .xfer dc bytes => bytes.foldl (panelByte c dc) p
  | .xferFault _ _ => p.poison

/-- A list of events in order (20_memory.md R63 (d)). -/
def panelEvents (c : Cfg) (p : Panel) (es : List Event) : Panel := es.foldl (panelEvent c) p

/-- What a claim may say of GRAM[row][col]: its value in wire order, or nothing (outside the native area, never written
since the panel's last reset, or P_BAD = 1: 20_memory.md R41, R51, R60). -/
def Panel.gramCell (c : Cfg) (p : Panel) (row col : Nat) : Option Pixel :=
  if p.bad || !(row < c.nativeRows && col < c.nativeCols) then none
  else
    match p.gram.read (gramAddr c row col), p.gram.read (gramAddr c row col + 1) with
    | some hi, some lo => some (be16 hi lo)
    | _, _ => none

/-- The colour shown at physical (row, col): red, green, blue of GRAM[row][col], only while P_ON = 1 (20_memory.md R67). -/
def Panel.shown (c : Cfg) (p : Panel) (row col : Nat) : Option (BitVec 5 × BitVec 6 × BitVec 5) :=
  if p.on then
    (p.gramCell c row col).map fun v => (v.extractLsb' 11 5, v.extractLsb' 5 6, v.extractLsb' 0 5)
  else none

/-! ## The wire history -/

/-- An entry of the flattened view: one byte with its select level, or another event (10_state.md R31). -/
inductive FlatEvent where
  | byte (dc : Bool) (b : Byte)
  | resx (level : Bool)
  | delay (d : Delay)
  | xferFault (dc : Bool) (sent : List Byte)
  deriving DecidableEq, Repr

/-- The flattened view of one event. -/
def Event.flat : Event → List FlatEvent
  | .xfer dc bytes => bytes.map (FlatEvent.byte dc)
  | .resx l => [.resx l]
  | .delay d => [.delay d]
  | .xferFault dc sent => [.xferFault dc sent]

/-- `flat(WIRE)` (10_state.md R31). -/
def flat (es : List Event) : List FlatEvent := es.flatMap Event.flat

/-- `WIRE <- WIRE ++ [e]`, and the PANEL takes the event (10_state.md R30, 20_memory.md R51, R52). -/
def emit (e : Event) (s : State) : State :=
  { s with wire := s.wire ++ [e], panel := panelEvent s.cfg s.panel e }

/-! ## Halt entry -/

/-- `raise Halt(cause)`: HALTED, HALT_CAUSE, HALT_PC and nothing else (60_exceptions.md R176). There is no return from it
(R178). -/
def raiseHalt (cause : Cause) (s : State) : State :=
  { s with halted := true, haltCause := cause, haltPc := s.pc }

/-! ## The Transfer Primitive -/

/-- Issue (40_transfer.md R101), or `Halt(TransferArg)` on the empty list (R104). -/
def issue (bytes : List Byte) (s : State) : State :=
  if bytes.isEmpty then raiseHalt .transferArg s
  else { s with xferBusy := true, inflight := some ⟨s.dcx, bytes⟩ }

/-- BUS performs and completes (40_transfer.md R103). -/
def busPerform (t : InFlight) (s : State) : State :=
  { emit (.xfer t.dc t.bytes) s with inflight := none, xferBusy := false }

/-- BUS faults after the first `sent` bytes (40_transfer.md R105). XFER_BUSY and INFLIGHT keep their values. -/
def busFault (t : InFlight) (sent : Nat) (s : State) : State :=
  raiseHalt .transportFault (emit (.xferFault t.dc (t.bytes.take sent)) s)

/-- BUS's next choice (10_state.md R25): the next one listed, and after the list the same one for ever (log entry 4). -/
def State.busNext (s : State) : BusChoice := s.bus.headD s.busRest

/-- BUS's next choice is made. -/
def busChosen (s : State) : State := { s with bus := s.bus.tail }

/-- BUS's step, by its next choice; with nothing in flight it has none (60_exceptions.md R173). While it stalls SEQ's only
step is wait, which changes nothing (40_transfer.md R102, R106). -/
def busStep (s : State) : State :=
  match s.inflight with
  | none => s
  | some t =>
    match s.busNext with
    | .perform => busPerform t (busChosen s)
    | .fault sent => busFault t sent (busChosen s)
    | .stall => busChosen s

/-! ## SEQ's actions -/

/-- `PSTATE <- 0 ; WIN_VALID <- 0 ; STREAMING <- 0 ; PX_REMAINING <- 0` (41_panel_protocol.md R110). -/
def beginReset (s : State) : State :=
  { s with pstate := .uninitialized, winValid := false, streaming := false, pxRemaining := 0 }

/-- `PX_REMAINING <- WIN_COUNT ; STREAMING <- 1` (41_panel_protocol.md R115). -/
def openStream (s : State) : State := { s with pxRemaining := s.win.count, streaming := true }

/-- One pixel counted off (41_panel_protocol.md R116); natural subtraction, nothing wraps (92_eei_decisions.md D35). -/
def countPixel (s : State) : State :=
  let n := s.pxRemaining.toNat - 1
  { s with pxRemaining := BitVec.ofNat 17 n, streaming := s.streaming && n ≠ 0 }

/-- `RASTER_BUF` with the Pixels `px` from index 0 on. -/
def overwrite (px buf : List Pixel) : List Pixel := px ++ buf.drop px.length

/-- One register write (10_state.md R10). -/
def writeReg (w : RegWrite) (s : State) : State :=
  match w with
  | .pstate p => { s with pstate := p }
  | .winValid b => { s with winValid := b }
  | .streaming b => { s with streaming := b }
  | .pxRemaining n => { s with pxRemaining := n }
  | .winXs v => { s with win := { s.win with xs := v } }
  | .winXe v => { s with win := { s.win with xe := v } }
  | .winYs v => { s with win := { s.win with ys := v } }
  | .winYe v => { s with win := { s.win with ye := v } }
  | .winW v => { s with win := { s.win with w := v } }
  | .winH v => { s with win := { s.win with h := v } }
  | .winCount v => { s with win := { s.win with count := v } }
  | .takeCount => { s with pxRemaining := s.win.count }
  | .countDown => { s with pxRemaining := BitVec.ofNat 17 (s.pxRemaining.toNat - 1) }
  | .closeAtZero => { s with streaming := s.streaming && s.pxRemaining ≠ 0 }
  | .pixRed v => { s with pixacc := s.pixacc.extractLsb' 8 8 ++ v ++ s.pixacc.extractLsb' 0 3 }
  | .pixGreenHigh v => { s with pixacc := s.pixacc.extractLsb' 3 13 ++ v }
  | .pixGreenLow v => { s with pixacc := v ++ s.pixacc.extractLsb' 0 13 }
  | .pixBlue v => { s with pixacc := s.pixacc.extractLsb' 13 3 ++ v ++ s.pixacc.extractLsb' 0 8 }
  | .rasterCell i p => { s with rasterBuf := s.rasterBuf.take i ++ p :: s.rasterBuf.drop (i + 1) }

/-- One action of SEQ (10_state.md R10). A transfer is only issued here; BUS moves it. -/
def seqMicro (m : Micro) (s : State) : State :=
  match m with
  | .require k => if k.passes s then s else raiseHalt k.cause s
  | .beginReset => beginReset s
  | .setResx l => emit (.resx l) { s with resx := l }
  | .delay d => emit (.delay d) s
  | .setPstate p => { s with pstate := p }
  | .setDcx l => { s with dcx := l }
  | .transfer bytes => issue bytes s
  | .invalidateWindow => { s with winValid := false }
  | .loadWindow x y w h => { s with win := windowOf x y w h, winValid := true }
  | .openStream => openStream s
  | .countPixel => countPixel s
  | .packField ch pct => { s with pixacc := setField ch (quant ch pct) s.pixacc }
  | .rasterize code color scale => { s with rasterBuf := overwrite (raster s.cfg code color scale) s.rasterBuf }
  | .transferRaster i => issue (pixelBytes (s.rasterBuf.getD i bg)) s
  | .dropRaster => { s with rasterBuf := [] }
  | .advancePc n => { s with pc := s.pc + n }
  | .write w => writeReg w s

/-- The writes `RASTER_BUF[k] <- px[0]`, `RASTER_BUF[k + 1] <- px[1]`, ... (43_glyph_rasterizer.md R141). -/
def rasterWrites : Nat → List Pixel → List RegWrite
  | _, [] => []
  | k, p :: px => .rasterCell k p :: rasterWrites (k + 1) px

/-- The register writes an action groups, in the order of the pseudocode; any other action is its own only step
(10_state.md R10). -/
def Micro.writes (c : Cfg) (m : Micro) : List Micro :=
  match m with
  | .beginReset => [.pstate .uninitialized, .winValid false, .streaming false, .pxRemaining 0].map .write
  | .loadWindow x y w h =>
    let r := windowOf x y w h
    [.winXs r.xs, .winXe r.xe, .winYs r.ys, .winYe r.ye, .winW r.w, .winH r.h, .winCount r.count, .winValid true].map .write
  | .openStream => [.takeCount, .streaming true].map .write
  | .countPixel => [.countDown, .closeAtZero].map .write
  | .packField .red pct => [.write (.pixRed (BitVec.ofNat 5 (quant .red pct)))]
  | .packField .green pct =>
    [.pixGreenHigh (BitVec.ofNat 3 (quant .green pct / 8)), .pixGreenLow (BitVec.ofNat 3 (quant .green pct))].map .write
  | .packField .blue pct => [.write (.pixBlue (BitVec.ofNat 5 (quant .blue pct)))]
  | .rasterize code color scale => (rasterWrites 0 (raster c code color scale)).map .write
  | .require k => [.require k]
  | .setResx l => [.setResx l]
  | .delay d => [.delay d]
  | .setPstate p => [.setPstate p]
  | .setDcx l => [.setDcx l]
  | .transfer bytes => [.transfer bytes]
  | .invalidateWindow => [.invalidateWindow]
  | .transferRaster i => [.transferRaster i]
  | .dropRaster => [.dropRaster]
  | .advancePc n => [.advancePc n]
  | .write w => [.write w]

/-- The action and, if it issued a transfer, BUS's step on it. -/
def actMicro (m : Micro) (s : State) : State :=
  let s1 := seqMicro m s
  if s1.halted then s1 else if s1.xferBusy then busStep s1 else s1

/-- SEQ performs its actions in order: to the end, to a halt (60_exceptions.md R177), or to a transfer BUS stalls, where
the actions still to come stay in `todo` (40_transfer.md R102). -/
def runSeq : List Micro → State → State
  | [], s => { s with todo := [] }
  | m :: ms, s =>
    let s1 := actMicro m s
    if s1.halted then { s1 with todo := [] }
    else if s1.xferBusy then { s1 with todo := ms }
    else runSeq ms s1

/-- With a transfer in flight: BUS's step, and if it completed the transfer, SEQ goes on. -/
def resume (s : State) : State :=
  let s1 := busStep s
  if s1.halted then { s1 with todo := [] }
  else if s1.xferBusy then s1
  else runSeq s1.todo s1

/-- The common checks, the body, the PC's advance (41_panel_protocol.md R117). IllegalOp is raised at the fetch. -/
def operation (op : Op) (body : List Micro) (len : Nat) : List Micro :=
  .require (.legal op) :: .require (.streamRule op) :: (body ++ [.advancePc len])

/-- Performs a host operation's actions (41_panel_protocol.md R117): no step when halted (60_exceptions.md R178), and none
inside another operation. -/
def perform (ms : List Micro) (s : State) : Host.Outcome State Fault Refusal :=
  if s.halted then .fault .halted
  else if s.xferBusy || !s.todo.isEmpty then .fault .midOperation
  else .next (runSeq ms s)

/-! ## Power-on reset and the status port -/

/-- Power-on reset: every DHE register takes its value after reset. It sends the panel nothing, and nothing may be assumed of
the panel after it until a panel reset, so its state counts as unspecified: P_BAD = 1 (70_reset_and_hazards.md R200, R201;
with a transfer abandoned in flight R217 says the same). -/
def powerOnReset (s : State) : State :=
  { State.reset with
    cfg := s.cfg
    prog := s.prog
    bus := s.bus
    busRest := s.busRest
    host := s.host
    rstN := s.rstN
    panel := s.panel.poison }

/-- HOST asserts RST_N (70_reset_and_hazards.md R200, R202). -/
def assertReset (s : State) : State := { powerOnReset s with rstN := false }

/-- HOST releases RST_N; with it already released nothing happens (70_reset_and_hazards.md R200). -/
def releaseReset (s : State) : State := if s.rstN then s else { powerOnReset s with rstN := true }

/-- The status port (10_state.md R27). -/
structure Status where
  pstate : BitVec 2
  xferBusy : Bool
  winValid : Bool
  streaming : Bool
  pxRemaining : BitVec 17
  halted : Bool
  haltCause : BitVec 4
  haltPc : Nat
  pixacc : Pixel
  win : Window
  pc : Nat
  deriving DecidableEq, Repr

/-- What the status port shows (10_state.md R27). -/
def statusPort (s : State) : Status where
  pstate := s.pstate.code
  xferBusy := s.xferBusy
  winValid := s.winValid
  streaming := s.streaming
  pxRemaining := s.pxRemaining
  halted := s.halted
  haltCause := s.haltCause.code
  haltPc := s.haltPc
  pixacc := s.pixacc
  win := s.win
  pc := s.pc

/-- The run is over (10_state.md R33). -/
abbrev IsFinal (s : State) : Prop :=
  s.halted = false ∧ s.pc = s.prog.length ∧ s.xferBusy = false ∧ s.inflight = none ∧ s.todo = []

end Sys2Proof.Machine
end

