-- ==== Sys2Proof/Machine/PanelCommands.lean ====
section
/-! DEFINITION. Machine/PanelCommands.lean: the seven wire commands as the PANEL's instructions: what the PANEL does on
receiving the command byte (20_memory.md R51, R53; 30_encoding.md R82; log entry 14). DHE's registers do not change. What
BUS does around it is R103, in Machine/Ops.lean (`busPerform`), which hands the PANEL the same byte. -/

namespace Sys2Proof.Machine

/-- CMD_SWRESET (20_memory.md R53, R51). -/
def execCmdSwreset (s : State) : Host.Outcome State Fault Refusal := .next { s with panel := panelSwreset s.cfg s.panel }

/-- CMD_COLMOD (20_memory.md R53). -/
def execCmdColmod (s : State) : Host.Outcome State Fault Refusal := .next { s with panel := panelColmod s.cfg s.panel }

/-- CMD_MADCTL (20_memory.md R53). -/
def execCmdMadctl (s : State) : Host.Outcome State Fault Refusal := .next { s with panel := panelMadctl s.cfg s.panel }

/-- CMD_CASET (20_memory.md R53). -/
def execCmdCaset (s : State) : Host.Outcome State Fault Refusal := .next { s with panel := panelCaset s.cfg s.panel }

/-- CMD_RASET (20_memory.md R53). -/
def execCmdRaset (s : State) : Host.Outcome State Fault Refusal := .next { s with panel := panelRaset s.cfg s.panel }

/-- CMD_RAMWR (20_memory.md R53). -/
def execCmdRamwr (s : State) : Host.Outcome State Fault Refusal := .next { s with panel := panelRamwr s.cfg s.panel }

/-- CMD_DISPON (20_memory.md R53). -/
def execCmdDispon (s : State) : Host.Outcome State Fault Refusal := .next { s with panel := panelDispon s.cfg s.panel }

end Sys2Proof.Machine
end

