-- ==== Sys2Proof/Machine/PixelModel.lean ====
section
/-! DEFINITION. Machine/PixelModel.lean: the Pixel Model's one operation, PACK (42_pixel_model.md R134). -/

namespace Sys2Proof.Machine

/-- `PACK(channel, pct)` (42_pixel_model.md R134). -/
def packBody (ch : Channel) (pct : Nat) : List Micro := [.require (.percent pct), .packField ch pct]

/-- PACK (42_pixel_model.md R134). -/
def packOp (ch : Channel) (pct : Byte) : List Micro := operation .pack (packBody ch pct.toNat) 3

/-- PACK channel, pct (42_pixel_model.md R134). -/
def execPack (ch : Channel) (pct : Byte) (s : State) : Host.Outcome State Fault Refusal := perform (packOp ch pct) s

end Sys2Proof.Machine
end

