-- ==== Sys2Proof/Machine/Protocol.lean ====
section
/-! DEFINITION. Machine/Protocol.lean: the Panel Controller Protocol (41_panel_protocol.md): RESET, CONFIGURE,
SEND_COMMAND, SEND_DATA, SET_DRAW_WINDOW, BEGIN_PIXEL_WRITE, WRITE_PIXEL, and `fill` (44_line_primitive.md R152). A
`...Body` is the lower-case procedure of the rule, as the list of SEQ's actions. -/

namespace Sys2Proof.Machine

/-- `send_command(code)` (41_panel_protocol.md R112). -/
def sendCommandBody (code : Byte) : List Micro := [.setDcx false, .transfer [code], .setDcx true]

/-- `send_data(byte)` (41_panel_protocol.md R113). -/
def sendDataBody (byte : Byte) : List Micro := [.setDcx true, .transfer [byte]]

/-- `reset()` (41_panel_protocol.md R110). -/
def resetBody (c : Cfg) : List Micro :=
  [.beginReset, .setResx false, .delay .tResetLow, .setResx true, .delay .tPowerup1] ++
  sendCommandBody c.cmdSwreset ++
  [.delay .tPowerup2, .setPstate .reset]

/-- The start and end of one axis of a window as `set_draw_window` sends them (30_encoding.md R83). -/
def axisBody (c : Cfg) (cmd : Byte) (start len : Nat) : List Micro :=
  sendCommandBody cmd ++
  sendDataBody 0x00 ++ sendDataBody (coordByte (phys c start)) ++
  sendDataBody 0x00 ++ sendDataBody (coordByte (phys c (start + len - 1)))

/-- `set_draw_window(x, y, w, h)` (41_panel_protocol.md R114). -/
def setDrawWindowBody (c : Cfg) (x y w h : Nat) : List Micro :=
  [.require (.windowFits x y w h), .invalidateWindow] ++
  axisBody c c.cmdCaset x w ++ axisBody c c.cmdRaset y h ++
  [.loadWindow x y w h]

/-- `begin_pixel_write()` (41_panel_protocol.md R115). -/
def beginPixelWriteBody (c : Cfg) : List Micro :=
  .require .windowValid :: (sendCommandBody c.cmdRamwr ++ [.openStream])

/-- `write_pixel(P)` (41_panel_protocol.md R116). -/
def writePixelBody (p : Pixel) : List Micro := [.require .streaming, .transfer (pixelBytes p), .countPixel]

/-- `fill(color)` over a window of `n` cells (44_line_primitive.md R152; `n` is the WIN_COUNT the caller has just
programmed, log entry 19). -/
def fillBody (c : Cfg) (n : Nat) (color : Pixel) : List Micro :=
  beginPixelWriteBody c ++ (List.replicate n (writePixelBody color)).flatten

/-- `configure()` (41_panel_protocol.md R111). -/
def configureBody (c : Cfg) : List Micro :=
  sendCommandBody c.cmdColmod ++ sendDataBody c.colmod16bit ++
  sendCommandBody c.cmdMadctl ++ sendDataBody c.madctlValue ++
  setDrawWindowBody c 0 0 c.usableCols c.usableRows ++
  fillBody c (c.usableCols * c.usableRows) bg ++
  sendCommandBody c.cmdDispon ++
  [.setPstate .configured]

/-! ## The operations -/

/-- RESET (41_panel_protocol.md R110). -/
def resetOp (c : Cfg) : List Micro := operation .reset (resetBody c) 1

/-- CONFIGURE (41_panel_protocol.md R111). -/
def configureOp (c : Cfg) : List Micro := operation .configure (configureBody c) 1

/-- SEND_COMMAND (41_panel_protocol.md R112). -/
def sendCommandOp (code : Byte) : List Micro := operation .sendCommand (sendCommandBody code) 2

/-- SEND_DATA (41_panel_protocol.md R113). -/
def sendDataOp (byte : Byte) : List Micro := operation .sendData (sendDataBody byte) 2

/-- SET_DRAW_WINDOW (41_panel_protocol.md R114). -/
def setDrawWindowOp (c : Cfg) (x y w h : BitVec 16) : List Micro :=
  operation .setDrawWindow (setDrawWindowBody c x.toNat y.toNat w.toNat h.toNat) 9

/-- BEGIN_PIXEL_WRITE (41_panel_protocol.md R115). -/
def beginPixelWriteOp (c : Cfg) : List Micro := operation .beginPixelWrite (beginPixelWriteBody c) 1

/-- WRITE_PIXEL (41_panel_protocol.md R116). -/
def writePixelOp (p : Pixel) : List Micro := operation .writePixel (writePixelBody p) 3

/-! ## The meanings -/

/-- RESET (41_panel_protocol.md R110). -/
def execReset (s : State) : Host.Outcome State Fault Refusal := perform (resetOp s.cfg) s

/-- CONFIGURE (41_panel_protocol.md R111). -/
def execConfigure (s : State) : Host.Outcome State Fault Refusal := perform (configureOp s.cfg) s

/-- SEND_COMMAND code (41_panel_protocol.md R112). -/
def execSendCommand (code : Byte) (s : State) : Host.Outcome State Fault Refusal := perform (sendCommandOp code) s

/-- SEND_DATA byte (41_panel_protocol.md R113). -/
def execSendData (byte : Byte) (s : State) : Host.Outcome State Fault Refusal := perform (sendDataOp byte) s

/-- SET_DRAW_WINDOW x, y, w, h (41_panel_protocol.md R114). -/
def execSetDrawWindow (x y w h : BitVec 16) (s : State) : Host.Outcome State Fault Refusal :=
  perform (setDrawWindowOp s.cfg x y w h) s

/-- BEGIN_PIXEL_WRITE (41_panel_protocol.md R115). -/
def execBeginPixelWrite (s : State) : Host.Outcome State Fault Refusal := perform (beginPixelWriteOp s.cfg) s

/-- WRITE_PIXEL pixel (41_panel_protocol.md R116). -/
def execWritePixel (pixel : Pixel) (s : State) : Host.Outcome State Fault Refusal := perform (writePixelOp pixel) s

end Sys2Proof.Machine
end

