-- ==== Sys2Proof/Machine/Glyph.lean ====
section
/-! DEFINITION. Machine/Glyph.lean: the Glyph Rasterizer: DRAW_CHARACTER and DRAW_STRING (43_glyph_rasterizer.md). -/

namespace Sys2Proof.Machine

/-- `write_pixel(RASTER_BUF[i])` (43_glyph_rasterizer.md R141, 41_panel_protocol.md R116). -/
def writeRasterBody (i : Nat) : List Micro := [.require .streaming, .transferRaster i, .countPixel]

/-- `draw_character(x, y, code, color, scale)` (43_glyph_rasterizer.md R141). -/
def drawCharacterBody (c : Cfg) (x y : Nat) (code : Byte) (color : Pixel) (scale : Nat) : List Micro :=
  [.require (.scale scale), .require (.charCode code)] ++
  setDrawWindowBody c x y (8 * scale) (8 * scale) ++
  [.rasterize code color scale] ++
  beginPixelWriteBody c ++
  (List.range (8 * scale * (8 * scale))).flatMap writeRasterBody ++
  [.dropRaster]

/-- The loop of `draw_string`: one character after another along STRING_AXIS (43_glyph_rasterizer.md R143). -/
def drawStringBody (c : Cfg) (color : Pixel) (scale : Nat) : List Byte → Nat → Nat → List Micro
  | [], _, _ => []
  | code :: text, x, y =>
    drawCharacterBody c x y code color scale ++
    match c.stringAxis with
    | .y => drawStringBody c color scale text x (y + 8 * scale)
    | .x => drawStringBody c color scale text (x + 8 * scale) y

/-- DRAW_CHARACTER (43_glyph_rasterizer.md R141). -/
def drawCharacterOp (c : Cfg) (x y : BitVec 16) (code : Byte) (color : Pixel) (scale : Byte) : List Micro :=
  operation .drawCharacter (drawCharacterBody c x.toNat y.toNat code color scale.toNat) 9

/-- DRAW_STRING (43_glyph_rasterizer.md R143). -/
def drawStringOp (c : Cfg) (x y : BitVec 16) (color : Pixel) (scale : Byte) (text : List Byte) : List Micro :=
  operation .drawString (drawStringBody c color scale.toNat text x.toNat y.toNat) (9 + text.length)

/-- DRAW_CHARACTER x, y, code, color, scale (43_glyph_rasterizer.md R141). -/
def execDrawCharacter (x y : BitVec 16) (code : Byte) (color : Pixel) (scale : Byte) (s : State) :
    Host.Outcome State Fault Refusal :=
  perform (drawCharacterOp s.cfg x y code color scale) s

/-- DRAW_STRING x, y, text, color, scale (43_glyph_rasterizer.md R143). -/
def execDrawString (x y : BitVec 16) (color : Pixel) (scale : Byte) (text : List Byte) (s : State) :
    Host.Outcome State Fault Refusal :=
  perform (drawStringOp s.cfg x y color scale text) s

end Sys2Proof.Machine
end

