-- ==== Sys2Proof/Machine/LinePrimitive.lean ====
section
/-! DEFINITION. Machine/LinePrimitive.lean: the Line Primitive: DRAW_LINE (44_line_primitive.md R150, R151). -/

namespace Sys2Proof.Machine

/-- `draw_line(xs, ys, xe, ye, color)` (44_line_primitive.md R151). A line that is not vertical and has passed the axis
check is horizontal (R150). -/
def drawLineBody (c : Cfg) (xs ys xe ye : Nat) (color : Pixel) : List Micro :=
  .require (.axisAligned xs ys xe ye) ::
  (if xs = xe then
    .require (.startFirst ys ye) :: (setDrawWindowBody c xs ys 1 (ye - ys) ++ fillBody c (ye - ys) color)
  else
    .require (.startFirst xs xe) :: (setDrawWindowBody c xs ys (xe - xs) 1 ++ fillBody c (xe - xs) color))

/-- DRAW_LINE (44_line_primitive.md R151). -/
def drawLineOp (c : Cfg) (xs ys xe ye : BitVec 16) (color : Pixel) : List Micro :=
  operation .drawLine (drawLineBody c xs.toNat ys.toNat xe.toNat ye.toNat color) 11

/-- DRAW_LINE xs, ys, xe, ye, color (44_line_primitive.md R151). -/
def execDrawLine (xs ys xe ye : BitVec 16) (color : Pixel) (s : State) : Host.Outcome State Fault Refusal :=
  perform (drawLineOp s.cfg xs ys xe ye color) s

end Sys2Proof.Machine
end

