-- ==== Sys2Proof/Machine/Session.lean ====
section
/-! DEFINITION. Machine/Session.lean: the Display Session: INIT and REFRESH (45_display_session.md). -/

namespace Sys2Proof.Machine

/-- `draw_string` of one label (45_display_session.md R161). -/
def labelBody (c : Cfg) (l : Label) : List Micro := drawStringBody c l.color l.scale l.text l.x l.y

/-- `draw_line` of one decorative line (45_display_session.md R161). -/
def decorationBody (c : Cfg) (l : Line) : List Micro := drawLineBody c l.xs l.ys l.xe l.ye l.color

/-- `init()` (45_display_session.md R161). -/
def initBody (c : Cfg) : List Micro :=
  resetBody c ++ configureBody c ++
  c.layout.labels.flatMap (labelBody c) ++ c.layout.lines.flatMap (decorationBody c)

/-- `value(b, q, t10, symbol)` at the slots of quantity q of block b (45_display_session.md R163). -/
def valueBody (c : Cfg) (q : QuantitySlots) (t10 : Nat) (symbol : Byte) : List Micro :=
  drawStringBody c c.layout.valueColor q.int.scale (istring c t10) q.int.x q.int.y ++
  drawCharacterBody c q.sym.x q.sym.y symbol c.layout.valueColor q.sym.scale ++
  drawCharacterBody c q.dec.x q.dec.y (dchar c t10) c.layout.valueColor q.dec.scale

/-- `refresh(it, ih, ot, oh)` (45_display_session.md R163); past the sign check each reading is its natural value. -/
def refreshBody (c : Cfg) (it ih ot oh : Int) : List Micro :=
  .require (.readings it ih ot oh) ::
  (valueBody c c.layout.inside.temperature it.toNat c.degreeCode ++
   valueBody c c.layout.inside.humidity ih.toNat c.percentCode ++
   valueBody c c.layout.outside.temperature ot.toNat c.degreeCode ++
   valueBody c c.layout.outside.humidity oh.toNat c.percentCode)

/-- INIT (45_display_session.md R161). -/
def initOp (c : Cfg) : List Micro := operation .init (initBody c) 1

/-- REFRESH; each operand is s16 (45_display_session.md R163, 30_encoding.md R73). -/
def refreshOp (c : Cfg) (it ih ot oh : BitVec 16) : List Micro :=
  operation .refresh (refreshBody c it.toInt ih.toInt ot.toInt oh.toInt) 9

/-- INIT (45_display_session.md R161). -/
def execInit (s : State) : Host.Outcome State Fault Refusal := perform (initOp s.cfg) s

/-- REFRESH it, ih, ot, oh (45_display_session.md R163). -/
def execRefresh (it ih ot oh : BitVec 16) (s : State) : Host.Outcome State Fault Refusal :=
  perform (refreshOp s.cfg it ih ot oh) s

end Sys2Proof.Machine
end

