-- ==== Sys2Proof/Machine/Dispatch.lean ====
section
/-! DEFINITION. Machine/Dispatch.lean: one arm per constructor of Instr. -/

namespace Sys2Proof.Machine

/-- The meaning of an instruction (30_encoding.md R74, R82). -/
def exec (i : Instr) (s : State) : Host.Outcome State Fault Refusal :=
  match i with
  | .reset => Sys2Proof.Machine.execReset s
  | .configure => Sys2Proof.Machine.execConfigure s
  | .sendCommand code => Sys2Proof.Machine.execSendCommand code s
  | .sendData byte => Sys2Proof.Machine.execSendData byte s
  | .setDrawWindow x y w h => Sys2Proof.Machine.execSetDrawWindow x y w h s
  | .beginPixelWrite => Sys2Proof.Machine.execBeginPixelWrite s
  | .writePixel pixel => Sys2Proof.Machine.execWritePixel pixel s
  | .pack ch pct => Sys2Proof.Machine.execPack ch pct s
  | .drawCharacter x y code color scale => Sys2Proof.Machine.execDrawCharacter x y code color scale s
  | .drawString x y color scale text => Sys2Proof.Machine.execDrawString x y color scale text s
  | .drawLine xs ys xe ye color => Sys2Proof.Machine.execDrawLine xs ys xe ye color s
  | .init => Sys2Proof.Machine.execInit s
  | .refresh it ih ot oh => Sys2Proof.Machine.execRefresh it ih ot oh s
  | .cmdSwreset => Sys2Proof.Machine.execCmdSwreset s
  | .cmdColmod => Sys2Proof.Machine.execCmdColmod s
  | .cmdMadctl => Sys2Proof.Machine.execCmdMadctl s
  | .cmdCaset => Sys2Proof.Machine.execCmdCaset s
  | .cmdRaset => Sys2Proof.Machine.execCmdRaset s
  | .cmdRamwr => Sys2Proof.Machine.execCmdRamwr s
  | .cmdDispon => Sys2Proof.Machine.execCmdDispon s

end Sys2Proof.Machine
end

