-- ==== Sys2Proof/Machine/Fetch.lean ====
section
/-! DEFINITION. Machine/Fetch.lean: SEQ's fetch, what it does with bytes that are no operation, HOST's action before a step,
and placing a descriptor or a command byte where the machine takes its next instruction from. -/

namespace Sys2Proof.Machine

/-- The descriptor at PC (20_memory.md R47, 30_encoding.md R70). -/
def fetch (s : State) : Except Reject (Instr × List Byte) := decode (s.prog.drop s.pc)

/-- The bytes at PC are no operation: an illegal opcode or channel halts (30_encoding.md R75, R76); too few bytes leave SEQ
without a step, at the end of PROG (10_state.md R33) or inside a descriptor (30_encoding.md R79). -/
def fetchStop (r : Reject) (s : State) : Host.Outcome State Fault Refusal :=
  match r with
  | .truncated => if s.pc = s.prog.length then .fault .endOfProgram else .fault .awaitingBytes
  | .illegalOpcode _ => .next (raiseHalt .illegalOp s)
  | .illegalChannel _ => .next (raiseHalt .illegalOp s)

/-- HOST's next action on RST_N, if it is one (10_state.md R10; log entry 15). -/
def hostAct (s : State) : Option State :=
  match s.host with
  | .assertReset :: rest => some (assertReset { s with host := rest })
  | .releaseReset :: rest => some (releaseReset { s with host := rest })
  | .idle :: _ => none
  | [] => none

/-- HOST leaves the machine to itself for this step. -/
def hostIdle (s : State) : State := { s with host := s.host.tail }

/-- PROG with `bytes` at `pc`, the offsets before it filled with zeros where PROG is shorter. -/
def placeAt (prog : List Byte) (pc : Nat) (bytes : List Byte) : List Byte :=
  prog.take pc ++ List.replicate (pc - prog.length) 0 ++ bytes ++ prog.drop (pc + bytes.length)

/-- SEQ between operations, nothing in flight, nobody stopping it: what a fetch needs. -/
def readyToFetch (s : State) : State :=
  { s with host := [], rstN := true, halted := false, todo := [], xferBusy := false, inflight := none }

/-- A descriptor's bytes placed where SEQ fetches. -/
def placeDescriptor (bytes : List Byte) (s : State) : State :=
  { readyToFetch s with prog := placeAt s.prog s.pc bytes }

/-- A command byte placed where the PANEL takes it from: in flight, as `send_command` issued it, with SEQ's `DCX <- 1`
still to come (41_panel_protocol.md R112). -/
def placeCommand (code : Byte) (s : State) : State :=
  { readyToFetch s with
    dcx := false, xferBusy := true, inflight := some ⟨false, [code]⟩, bus := [], busRest := .perform, todo := [.setDcx true] }

end Sys2Proof.Machine
end

