-- ==== Sys2Proof/Machine/Step.lean ====
section
/-! DEFINITION. Machine/Step.lean: one step of the machine: HOST's action, else BUS and SEQ (10_state.md R10). -/

namespace Sys2Proof.Machine

/-- SEQ between operations: fetch, then perform the operation (41_panel_protocol.md R117). -/
def fetchAndRun (s : State) : Host.Outcome State Fault Refusal :=
  match fetch s with
  | .ok (i, _) => exec i s
  | .error r => fetchStop r s

/-- A step of SEQ and BUS: none in reset (70_reset_and_hazards.md R200) or after a halt (60_exceptions.md R178); with a
transfer in flight BUS's, after which SEQ goes on (40_transfer.md R102, R103); else SEQ's. -/
def dheStep (s : State) : Host.Outcome State Fault Refusal :=
  if s.rstN = false then .fault .heldInReset
  else if s.halted then .fault .halted
  else if s.xferBusy then .next (resume s)
  else
    match s.todo with
    | [] => fetchAndRun s
    | m :: ms => .next (runSeq (m :: ms) s)

/-- One step of the machine. -/
def step (s : State) : Host.Outcome State Fault Refusal :=
  match hostAct s with
  | some t => .next t
  | none => dheStep (hostIdle s)

/-- `s` with the instruction of a table word stored where the next step takes it from: a descriptor in PROG at PC, a wire
command in flight to the PANEL under the code `s.cfg` gives it (log entry 14). -/
def State.withFetchWord (s : State) (nbits w : Nat) : State :=
  match (decodeTableWord nbits w).bind Instr.wire with
  | some k => placeCommand (s.cfg.code k) s
  | none => placeDescriptor (tableBytes nbits w) s

end Sys2Proof.Machine
end

