-- ==== Sys2Proof/Machine/Agents.lean ====
section
/-! DEFINITION. Machine/Agents.lean: the machine seen one agent step at a time (10_state.md R10): SEQ's fetch-and-check,
each of SEQ's actions, SEQ's wait and BUS's step on their own. `step` takes many of these at once. -/

namespace Sys2Proof.Machine

/-- The actions SEQ performs for a host operation; none for a wire command, which SEQ never fetches. -/
def seqProgram (c : Cfg) : Instr → List Micro
  | .reset => resetOp c
  | .configure => configureOp c
  | .sendCommand code => sendCommandOp code
  | .sendData byte => sendDataOp byte
  | .setDrawWindow x y w h => setDrawWindowOp c x y w h
  | .beginPixelWrite => beginPixelWriteOp c
  | .writePixel p => writePixelOp p
  | .pack ch pct => packOp ch pct
  | .drawCharacter x y code color scale => drawCharacterOp c x y code color scale
  | .drawString x y color scale text => drawStringOp c x y color scale text
  | .drawLine xs ys xe ye color => drawLineOp c xs ys xe ye color
  | .init => initOp c
  | .refresh it ih ot oh => refreshOp c it ih ot oh
  | .cmdSwreset => []
  | .cmdColmod => []
  | .cmdMadctl => []
  | .cmdCaset => []
  | .cmdRaset => []
  | .cmdRamwr => []
  | .cmdDispon => []

/-- A halt ends the operation where it stands (41_panel_protocol.md R117). -/
def endIfHalted (s : State) : State := if s.halted then { s with todo := [] } else s

/-- One step of SEQ at the action `m`, with `ms` after it: of the register writes `m` groups it does the first and leaves
the others to come, one a step (10_state.md R10). -/
def seqTick (m : Micro) (ms : List Micro) (s : State) : State :=
  match m.writes s.cfg with
  | [] => { s with todo := ms }
  | w :: ws => endIfHalted (seqMicro w { s with todo := ws ++ ms })

/-- One step of SEQ or BUS (10_state.md R10): with a transfer in flight BUS's, a stall standing for SEQ's wait
(40_transfer.md R102); else SEQ's next action; else SEQ's fetch. -/
def tickDhe (s : State) : Host.Outcome State Fault Refusal :=
  if s.rstN = false then .fault .heldInReset
  else if s.halted then .fault .halted
  else if s.xferBusy then .next (endIfHalted (busStep s))
  else
    match s.todo with
    | m :: ms => .next (seqTick m ms s)
    | [] =>
      match fetch s with
      | .ok (i, _) => .next { s with todo := seqProgram s.cfg i }
      | .error r => fetchStop r s

/-- One agent step. -/
def tick (s : State) : Host.Outcome State Fault Refusal :=
  match hostAct s with
  | some t => .next t
  | none => tickDhe (hostIdle s)

/-- The machine one agent step at a time. -/
def fineCore : Host.Core where
  State := State
  Fault := Fault
  Refusal := Refusal
  step := tick
  reset := State.reset

end Sys2Proof.Machine
end

