-- ==== Sys2Proof/Machine/Under.lean ====
section
/-! DEFINITION. Machine/Under.lean: the step relations on the machine's state alone, with CFG, PROG, BUS's choices and HOST's
actions as their parameters (00_scope.md R2, 10_state.md R25). -/

namespace Sys2Proof.Machine

/-- The state `r` in a run under the configuration `c` and the operation stream `prog`, with BUS and HOST to do as `e` says. -/
def Regs.under (r : Regs) (c : Cfg) (prog : List Byte) (e : Inputs) : State :=
  { toRegs := r, toInputs := e, cfg := c, prog := prog }

/-- What an outcome says of the machine's state. -/
def regsOf : Host.Outcome State Fault Refusal → Host.Outcome Regs Fault Refusal
  | .next s => .next s.toRegs
  | .fault f => .fault f
  | .refused f => .refused f

/-- The step relation, on a state that holds neither CFG nor PROG nor BUS's choices (00_scope.md R2, 10_state.md R25): `e`
gives BUS's choice at each transfer of the step, and what HOST does before it. -/
def stepUnder (c : Cfg) (prog : List Byte) (e : Inputs) (r : Regs) : Host.Outcome Regs Fault Refusal :=
  regsOf (step (r.under c prog e))

/-- An instruction's meaning under the same parameters. -/
def execUnder (c : Cfg) (prog : List Byte) (e : Inputs) (i : Instr) (r : Regs) : Host.Outcome Regs Fault Refusal :=
  regsOf (exec i (r.under c prog e))

/-- One agent step (10_state.md R10) under CFG, PROG, BUS's choice, which counts if the step is BUS's, and HOST's action. -/
def tickUnder (c : Cfg) (prog : List Byte) (choice : BusChoice) (act : HostAct) (r : Regs) :
    Host.Outcome Regs Fault Refusal :=
  regsOf (tick (r.under c prog { bus := [choice], busRest := .stall, host := [act] }))

/-- A run of the machine: one step for each entry of `es`, which is what BUS and HOST do in that step. -/
def runUnder (c : Cfg) (prog : List Byte) : List Inputs → Regs → Host.Outcome Regs Fault Refusal
  | [], r => .next r
  | e :: es, r =>
    match stepUnder c prog e r with
    | .next r' => runUnder c prog es r'
    | .fault f => .fault f
    | .refused f => .refused f

end Sys2Proof.Machine
end

