-- ==== Sys2Proof/Machine/Trace.lean ====
section
/-! DEFINITION. Machine/Trace.lean: the trace functions of 41_panel_protocol.md R122, and the traces of the drawing
operations (43_glyph_rasterizer.md R141, R143, 44_line_primitive.md R151, R152, 45_display_session.md R161, R163), as
events grouped by 30_encoding.md R85. `flat` of a trace is the rule's own list. -/

namespace Sys2Proof.Machine

/-- `cmd(c)`. -/
def cmdTrace (b : Byte) : List Event := [.xfer false [b]]

/-- `dat(b)`. -/
def datTrace (b : Byte) : List Event := [.xfer true [b]]

/-- `pix(P)`. -/
def pixTrace (p : Pixel) : List Event := [.xfer true (pixelBytes p)]

/-- One axis of `win`. -/
def axisTrace (c : Cfg) (cmd : Byte) (start len : Nat) : List Event :=
  cmdTrace cmd ++ datTrace 0 ++ datTrace (coordByte (phys c start)) ++
  datTrace 0 ++ datTrace (coordByte (phys c (start + len - 1)))

/-- `win(x, y, w, h)`. -/
def winTrace (c : Cfg) (x y w h : Nat) : List Event := axisTrace c c.cmdCaset x w ++ axisTrace c c.cmdRaset y h

/-- `stream(pixels)`. -/
def streamTrace (c : Cfg) (pixels : List Pixel) : List Event := cmdTrace c.cmdRamwr ++ pixels.flatMap pixTrace

/-- `rst()`. -/
def rstTrace (c : Cfg) : List Event :=
  [.resx false, .delay .tResetLow, .resx true, .delay .tPowerup1] ++ cmdTrace c.cmdSwreset ++ [.delay .tPowerup2]

/-- `cfg()`. -/
def cfgTrace (c : Cfg) : List Event :=
  cmdTrace c.cmdColmod ++ datTrace c.colmod16bit ++ cmdTrace c.cmdMadctl ++ datTrace c.madctlValue ++
  winTrace c 0 0 c.usableCols c.usableRows ++
  streamTrace c (List.replicate (c.usableCols * c.usableRows) bg) ++ cmdTrace c.cmdDispon

/-- A window and the pixels that fill it. -/
def paintTrace (c : Cfg) (x y w h : Nat) (pixels : List Pixel) : List Event := winTrace c x y w h ++ streamTrace c pixels

/-- The trace of `draw_character` (43_glyph_rasterizer.md R141). -/
def charTrace (c : Cfg) (x y : Nat) (code : Byte) (color : Pixel) (scale : Nat) : List Event :=
  paintTrace c x y (8 * scale) (8 * scale) (raster c code color scale)

/-- The trace of `draw_string` (43_glyph_rasterizer.md R143). -/
def stringTrace (c : Cfg) (color : Pixel) (scale : Nat) : List Byte → Nat → Nat → List Event
  | [], _, _ => []
  | code :: text, x, y =>
    charTrace c x y code color scale ++
    match c.stringAxis with
    | .y => stringTrace c color scale text x (y + 8 * scale)
    | .x => stringTrace c color scale text (x + 8 * scale) y

/-- The trace of `draw_line` (44_line_primitive.md R151). -/
def lineTrace (c : Cfg) (xs ys xe ye : Nat) (color : Pixel) : List Event :=
  if xs = xe then paintTrace c xs ys 1 (ye - ys) (List.replicate (ye - ys) color)
  else paintTrace c xs ys (xe - xs) 1 (List.replicate (xe - xs) color)

/-- The trace of `init` (45_display_session.md R161). -/
def initTrace (c : Cfg) : List Event :=
  rstTrace c ++ cfgTrace c ++
  c.layout.labels.flatMap (fun l => stringTrace c l.color l.scale l.text l.x l.y) ++
  c.layout.lines.flatMap (fun l => lineTrace c l.xs l.ys l.xe l.ye l.color)

/-- The trace of `value` (45_display_session.md R163). -/
def valueTrace (c : Cfg) (q : QuantitySlots) (t10 : Nat) (symbol : Byte) : List Event :=
  stringTrace c c.layout.valueColor q.int.scale (istring c t10) q.int.x q.int.y ++
  charTrace c q.sym.x q.sym.y symbol c.layout.valueColor q.sym.scale ++
  charTrace c q.dec.x q.dec.y (dchar c t10) c.layout.valueColor q.dec.scale

/-- The trace of `refresh` (45_display_session.md R163). -/
def refreshTrace (c : Cfg) (it ih ot oh : Nat) : List Event :=
  valueTrace c c.layout.inside.temperature it c.degreeCode ++
  valueTrace c c.layout.inside.humidity ih c.percentCode ++
  valueTrace c c.layout.outside.temperature ot c.degreeCode ++
  valueTrace c c.layout.outside.humidity oh c.percentCode

/-- How many transfers a trace holds: the choices of BUS it uses up. -/
def transfers : List Event → Nat
  | [] => 0
  | .xfer _ _ :: es => transfers es + 1
  | .xferFault _ _ :: es => transfers es + 1
  | .resx _ :: es => transfers es
  | .delay _ :: es => transfers es

/-- The net effect of a trace no transfer of which faults or stalls (40_transfer.md R109): WIRE gains it, the PANEL receives
it, BUS has made its choices; every DHE register as before. -/
def emitAll (es : List Event) (s : State) : State :=
  { s with
    wire := s.wire ++ es
    panel := panelEvents s.cfg s.panel es
    bus := s.bus.drop (transfers es) }

end Sys2Proof.Machine
end

