-- ==== Sys2Proof/Safety.lean ====
section
/-! DEFINITION. Safety.lean: the terms the claims use: when SEQ is between operations, what BUS is assumed to do, the
machine's invariant, and the panel in step with DHE's bookkeeping. -/

namespace Sys2Proof.Machine

/-- SEQ is between operations and nothing stops it (10_state.md R33, 41_panel_protocol.md R117). -/
abbrev Idle (s : State) : Prop :=
  s.rstN = true ∧ s.halted = false ∧ s.xferBusy = false ∧ s.inflight = none ∧ s.todo = []

/-- BUS performs every transfer (40_transfer.md R103): no fault (R105), no stall (R106). -/
abbrev Performs (s : State) : Prop := (∀ b ∈ s.bus, b = BusChoice.perform) ∧ s.busRest = .perform

/-- HOST leaves RST_N alone for the next step. -/
abbrev HostIdle (s : State) : Prop := s.host = [] ∨ s.host.head? = some HostAct.idle

/-- The host operation a term of Instr is; none for a wire command (30_encoding.md R74). -/
def opOf : Instr → Option Op
  | .reset => some .reset
  | .configure => some .configure
  | .sendCommand _ => some .sendCommand
  | .sendData _ => some .sendData
  | .setDrawWindow _ _ _ _ => some .setDrawWindow
  | .beginPixelWrite => some .beginPixelWrite
  | .writePixel _ => some .writePixel
  | .pack _ _ => some .pack
  | .drawCharacter _ _ _ _ _ => some .drawCharacter
  | .drawString _ _ _ _ _ => some .drawString
  | .drawLine _ _ _ _ _ => some .drawLine
  | .init => some .init
  | .refresh _ _ _ _ => some .refresh
  | .cmdSwreset => none
  | .cmdColmod => none
  | .cmdMadctl => none
  | .cmdCaset => none
  | .cmdRaset => none
  | .cmdRamwr => none
  | .cmdDispon => none

/-- The common checks let the operation through (41_panel_protocol.md R117, R119, R120). -/
abbrev Allowed (op : Op) (s : State) : Prop :=
  opLegal op s.pstate = true ∧ (s.streaming = true → streamExempt op = true)

/-! ## Characters and strings -/

/-- The first check of `draw_character` that fails, by its halt (60_exceptions.md R174). -/
def charHalt (c : Cfg) (x y : Nat) (code : Byte) (scale : Nat) : Option Cause :=
  if scale < 1 then some .scaleInvalid
  else if ¬ c.InFont code then some .charCodeInvalid
  else if ¬ WindowOk c x y (8 * scale) (8 * scale) then some .windowInvalid
  else none

/-- Column of character `k` of a string (43_glyph_rasterizer.md R143). -/
def charX (c : Cfg) (x k scale : Nat) : Nat :=
  match c.stringAxis with
  | .x => x + k * (8 * scale)
  | .y => x

/-- Row of character `k` of a string (43_glyph_rasterizer.md R143). -/
def charY (c : Cfg) (y k scale : Nat) : Nat :=
  match c.stringAxis with
  | .x => y
  | .y => y + k * (8 * scale)

/-- Every character of a string passes `draw_character`'s checks where it stands (43_glyph_rasterizer.md R143). -/
abbrev StringOk (c : Cfg) (scale : Nat) (text : List Byte) (x y : Nat) : Prop :=
  ∀ k (h : k < text.length), charHalt c (charX c x k scale) (charY c y k scale) text[k] scale = none

/-- DHE's registers after a window has been programmed and filled (43_glyph_rasterizer.md R141, 44_line_primitive.md R151);
`s` is the state after the trace. -/
def painted (x y w h : Nat) (s : State) : State :=
  { s with win := windowOf x y w h, winValid := true, dcx := true, streaming := false, pxRemaining := 0 }

/-- The state after `draw_string`'s characters (43_glyph_rasterizer.md R143, R145): the last character's box is the window. -/
def stringDrawn (c : Cfg) (scale : Nat) (text : List Byte) (x y : Nat) (s : State) : State :=
  match text with
  | [] => s
  | _ :: _ =>
    { painted (charX c x (text.length - 1) scale) (charY c y (text.length - 1) scale) (8 * scale) (8 * scale) s with
      rasterBuf := [] }

/-! ## The machine's invariant -/

/-- The Draw Window invariants (10_state.md R23), on DHE's own registers. -/
abbrev WindowRegs (s : State) : Prop :=
  s.win.xs.toNat ≤ s.win.xe.toNat ∧ s.win.ys.toNat ≤ s.win.ye.toNat ∧
  s.win.xe.toNat < s.cfg.usableCols ∧ s.win.ye.toNat < s.cfg.usableRows ∧
  s.win.w.toNat = s.win.xe.toNat - s.win.xs.toNat + 1 ∧
  s.win.h.toNat = s.win.ye.toNat - s.win.ys.toNat + 1 ∧
  s.win.count.toNat = s.win.w.toNat * s.win.h.toNat

/-- The level DCX will have when the actions still to come are done (10_state.md R16). -/
def dcxAfter : Bool → List Micro → Bool
  | l, [] => l
  | _, .setDcx l :: ms => dcxAfter l ms
  | l, .require _ :: ms => dcxAfter l ms
  | l, .beginReset :: ms => dcxAfter l ms
  | l, .setResx _ :: ms => dcxAfter l ms
  | l, .delay _ :: ms => dcxAfter l ms
  | l, .setPstate _ :: ms => dcxAfter l ms
  | l, .transfer _ :: ms => dcxAfter l ms
  | l, .invalidateWindow :: ms => dcxAfter l ms
  | l, .loadWindow _ _ _ _ :: ms => dcxAfter l ms
  | l, .openStream :: ms => dcxAfter l ms
  | l, .countPixel :: ms => dcxAfter l ms
  | l, .packField _ _ :: ms => dcxAfter l ms
  | l, .rasterize _ _ _ :: ms => dcxAfter l ms
  | l, .transferRaster _ :: ms => dcxAfter l ms
  | l, .dropRaster :: ms => dcxAfter l ms
  | l, .advancePc _ :: ms => dcxAfter l ms
  | l, .write _ :: ms => dcxAfter l ms

/-- The actions still to come load only windows that passed the check and open a stream only on a valid one
(41_panel_protocol.md R114, R115); `valid` is WIN_VALID before them. Between steps no group of writes is taken apart. -/
def todoSound (c : Cfg) : Bool → List Micro → Bool
  | _, [] => true
  | valid, .require (.windowFits x y w h) :: ms => !decide (WindowOk c x y w h) || todoSound c valid ms
  | valid, .require .windowValid :: ms => !valid || todoSound c valid ms
  | _, .loadWindow x y w h :: ms => decide (WindowOk c x y w h) && todoSound c true ms
  | valid, .openStream :: ms => valid && todoSound c valid ms
  | _, .beginReset :: ms => todoSound c false ms
  | _, .invalidateWindow :: ms => todoSound c false ms
  | valid, .require (.legal _) :: ms => todoSound c valid ms
  | valid, .require (.streamRule _) :: ms => todoSound c valid ms
  | valid, .require .streaming :: ms => todoSound c valid ms
  | valid, .require (.percent _) :: ms => todoSound c valid ms
  | valid, .require (.scale _) :: ms => todoSound c valid ms
  | valid, .require (.charCode _) :: ms => todoSound c valid ms
  | valid, .require (.axisAligned _ _ _ _) :: ms => todoSound c valid ms
  | valid, .require (.startFirst _ _) :: ms => todoSound c valid ms
  | valid, .require (.readings _ _ _ _) :: ms => todoSound c valid ms
  | valid, .setResx _ :: ms => todoSound c valid ms
  | valid, .delay _ :: ms => todoSound c valid ms
  | valid, .setPstate _ :: ms => todoSound c valid ms
  | valid, .setDcx _ :: ms => todoSound c valid ms
  | valid, .transfer _ :: ms => todoSound c valid ms
  | valid, .countPixel :: ms => todoSound c valid ms
  | valid, .packField _ _ :: ms => todoSound c valid ms
  | valid, .rasterize _ _ _ :: ms => todoSound c valid ms
  | valid, .transferRaster _ :: ms => todoSound c valid ms
  | valid, .dropRaster :: ms => todoSound c valid ms
  | valid, .advancePc _ :: ms => todoSound c valid ms
  | _, .write _ :: _ => false

/-- The invariant every step keeps. CFG is well-formed (00_scope.md R2); XFER_BUSY = 1 exactly when INFLIGHT ≠ none
(40_transfer.md R107); INFLIGHT carries DCX's level (R108); STREAMING = 1 exactly when PX_REMAINING > 0 (10_state.md R19);
HALTED = 1 exactly when HALT_CAUSE ≠ 0 (R20); the Draw Window invariants while WIN_VALID = 1 (R23); DCX = 1 outside a
`send_command` (R16); SEQ is inside an operation only while a transfer is in flight, with sound actions to come, and that
operation is the one at PC, whose program the actions to come end (R13, 41_panel_protocol.md R117); GRAM in canonical
form. -/
structure Inv (s : State) : Prop where
  cfg : s.cfg.WellFormed
  busy : s.xferBusy = s.inflight.isSome
  level : ∀ t, s.inflight = some t → t.dc = s.dcx
  stream : s.streaming = decide (0 < s.pxRemaining.toNat)
  halt : s.halted = decide (s.haltCause ≠ Cause.none)
  window : s.winValid = true → WindowRegs s
  line : s.halted = false → dcxAfter s.dcx s.todo = true
  inside : s.todo ≠ [] → s.xferBusy = true
  sound : todoSound s.cfg s.winValid s.todo = true
  operation : s.xferBusy = true → s.halted = false →
    ∃ i rest, decode (s.prog.drop s.pc) = .ok (i, rest) ∧ s.todo ≠ [] ∧ s.todo <:+ seqProgram s.cfg i
  gram : s.panel.gram.wf = true

/-! ## The panel in step with DHE's bookkeeping -/

/-- The panel's window is DHE's, shifted by MARGIN on both axes (10_state.md R23, 20_memory.md R44). -/
abbrev SameWindow (s : State) : Prop :=
  s.panel.xs = some (phys s.cfg s.win.xs.toNat) ∧ s.panel.xe = some (phys s.cfg s.win.xe.toNat) ∧
  s.panel.ys = some (phys s.cfg s.win.ys.toNat) ∧ s.panel.ye = some (phys s.cfg s.win.ye.toNat)

/-- How many pixels of the open stream have been sent. -/
def sentPixels (s : State) : Nat := s.win.count.toNat - s.pxRemaining.toNat

/-- The cell of GRAM the next pixel of the open stream goes to (41_panel_protocol.md R116, 20_memory.md R57). -/
def nextCell (s : State) : Nat × Nat :=
  (phys s.cfg (s.win.xs.toNat + sentPixels s % s.win.w.toNat), phys s.cfg (s.win.ys.toNat + sentPixels s / s.win.w.toNat))

/-- The panel is in step: not poisoned (20_memory.md R60); with DHE's window while WIN_VALID = 1 (R44); with the pixel
format and orientation CONFIGURE sets, once Configured (R58); waiting for exactly the pixels DHE has still to send while a
stream is open (R56, R57), and for none otherwise (R53). -/
structure InStep (s : State) : Prop where
  good : s.panel.bad = false
  mode : s.pstate = .configured → s.panel.fmt = some s.cfg.colmod16bit ∧ s.panel.orient = some s.cfg.madctlValue
  window : s.winValid = true → SameWindow s
  closed : s.streaming = false → s.panel.streamOpen s.cfg = false
  opened : s.streaming = true → s.winValid = true ∧ s.pxRemaining.toNat ≤ s.win.count.toNat ∧
    s.panel.cmd = some s.cfg.cmdRamwr ∧ s.panel.half = none ∧ s.panel.cursor = .cell (nextCell s).1 (nextCell s).2

/-- A host operation that is no raw byte (20_memory.md R60): not SEND_COMMAND, not SEND_DATA. -/
def notRaw : Instr → Bool
  | .sendCommand _ => false
  | .sendData _ => false
  | .reset => true
  | .configure => true
  | .setDrawWindow _ _ _ _ => true
  | .beginPixelWrite => true
  | .writePixel _ => true
  | .pack _ _ => true
  | .drawCharacter _ _ _ _ _ => true
  | .drawString _ _ _ _ _ => true
  | .drawLine _ _ _ _ _ => true
  | .init => true
  | .refresh _ _ _ _ => true
  | .cmdSwreset => false
  | .cmdColmod => false
  | .cmdMadctl => false
  | .cmdCaset => false
  | .cmdRaset => false
  | .cmdRamwr => false
  | .cmdDispon => false

/-- A physical cell of the usable area (20_memory.md R62). -/
abbrev UsableCell (c : Cfg) (row col : Nat) : Prop :=
  c.margin ≤ row ∧ row < c.margin + c.usableRows ∧ c.margin ≤ col ∧ col < c.margin + c.usableCols

/-- A physical cell of a logical box. -/
abbrev CellIn (c : Cfg) (b : Box) (row col : Nat) : Prop :=
  phys c b.y ≤ row ∧ row < phys c (b.y + b.h) ∧ phys c b.x ≤ col ∧ col < phys c (b.x + b.w)

/-- What the PANEL, before `p` and after `q`, does with a complete pixel `v` in wire order (20_memory.md R56, R57, R58): it is
poisoned while P_FMT or P_ORIENT is not CONFIGURE's, or with the cursor END or unset; else, the cursor on a cell, the
cursor advances and, while P_BAD = 0, that cell takes `v` and no other cell changes. How P_ARGS, P_HALF and the cursor move
while P_BAD = 1, when R60 calls them unspecified, is the model's (log entry 11). -/
def PixelTaken (c : Cfg) (v : Pixel) (p q : Panel) : Prop :=
  (p.fmt ≠ some c.colmod16bit ∨ p.orient ≠ some c.madctlValue ∨ p.cursor = .unset ∨ p.cursor = .finished → q.bad = true) ∧
  ∀ cx cy xs xe ye, p.fmt = some c.colmod16bit → p.orient = some c.madctlValue → p.cursor = .cell cx cy →
    p.xs = some xs → p.xe = some xe → p.ye = some ye → cx < c.nativeCols → cy < c.nativeRows →
    q = { p with
      args := q.args, half := none, gram := q.gram,
      cursor := if cx < xe then .cell (cx + 1) cy else if cy < ye then .cell xs (cy + 1) else .finished } ∧
    (p.bad = false → ∀ row col,
      q.gramCell c row col = if row = cy ∧ col = cx then some v else p.gramCell c row col)

/-- The registers an operation leaves alone by the write column of the access matrix (10_state.md R29). -/
def MatrixKept (op : Op) (s t : State) : Prop :=
  (op ∉ [Op.reset, .configure, .init] → t.pstate = s.pstate) ∧
  (op ∈ [Op.writePixel, .pack] → t.dcx = s.dcx) ∧
  (op ∉ [Op.reset, .init] → t.resx = s.resx) ∧
  (op ∈ [Op.sendCommand, .sendData, .beginPixelWrite, .writePixel, .pack] → t.winValid = s.winValid) ∧
  (op ∈ [Op.reset, .sendCommand, .sendData, .beginPixelWrite, .writePixel, .pack] → t.win = s.win) ∧
  (op ∈ [Op.sendCommand, .sendData, .setDrawWindow, .pack] → t.streaming = s.streaming ∧ t.pxRemaining = s.pxRemaining) ∧
  (op ≠ .pack → t.pixacc = s.pixacc) ∧
  (op ∉ [Op.drawCharacter, .drawString, .init, .refresh] → t.rasterBuf = s.rasterBuf) ∧
  (op = .pack → s.xferBusy = false → t.wire = s.wire ∧ t.panel = s.panel ∧ t.xferBusy = false)

end Sys2Proof.Machine
end

