-- ==== Sys2Proof/Certificates/Slice0/Obligations.lean ====
section
/-! DEFINITION. Certificates/Slice0/Obligations.lean: the statements for the provers. Each docstring names the rule of spec/
it rests on. `Performs s` says that BUS performs every transfer (40_transfer.md R103); what BUS's other choices do is stated
in TransportFaultHaltsTheMachine, StalledBusKeepsSeqWaiting and the statements that hold whatever BUS does. -/

open Sys2Proof Sys2Proof.Machine

/-! ## Encodings (30_encoding.md) -/

/-- Decoding a well-formed host operation's descriptor gives it back, with every operand, and the bytes after it
(30_encoding.md R70 to R77). -/
def Obligations.DecodeOfEncodeIsTheInstruction : Prop :=
  ∀ (c : Cfg) (i : Instr) (rest : List Byte), i.wellFormed = true → i.wire = none →
    decode (encode c i ++ rest) = .ok (i, rest)

/-- Whatever bytes decode, they are the descriptor of the instruction and the bytes after it: no two encodings of one
operation, and no operation but a well-formed host operation (30_encoding.md R70 to R77). -/
def Obligations.EncodeOfDecodeIsTheBytes : Prop :=
  ∀ (c : Cfg) (bs : List Byte) (i : Instr) (rest : List Byte), decode bs = .ok (i, rest) →
    i.wellFormed = true ∧ i.wire = none ∧ bs = encode c i ++ rest

/-- Under a well-formed CFG a command byte decodes to a wire command exactly when it is that command's code
(30_encoding.md R82, 00_scope.md R2: the seven codes are pairwise distinct). -/
def Obligations.WireCommandCodesAreUnambiguous : Prop :=
  ∀ (c : Cfg), c.WellFormed → ∀ (b : Byte) (i : Instr),
    decodeWire c b = some i ↔ (i.wire ≠ none ∧ encode c i = [b])

/-- Descriptor words written out from the formats of 30_encoding.md R71, R74 (and worked descriptors of 95_test_vectors.md)
decode to the operations they stand for: a sanity statement. -/
def Obligations.WrittenOutWordsDecode : Prop :=
  decode [0x01] = .ok (.reset, []) ∧
  decode [0x03, 0x29] = .ok (.sendCommand 0x29, []) ∧
  decode [0x05, 0x00, 0x0A, 0x00, 0x14, 0x00, 0x03, 0x00, 0x02] = .ok (.setDrawWindow 10 20 3 2, []) ∧
  decode [0x07, 0x1F, 0x00] = .ok (.writePixel 0x1F00, []) ∧
  decode [0x08, 0x01, 0x32] = .ok (.pack .green 50, []) ∧
  decode [0x09, 0x00, 0x03, 0x00, 0x05, 0x41, 0x00, 0xF8, 0x02] = .ok (.drawCharacter 3 5 0x41 0x00F8 2, []) ∧
  decode [0x0A, 0x00, 0x04, 0x00, 0x0A, 0x1F, 0x00, 0x02, 0x02, 0x32, 0x31] =
    .ok (.drawString 4 10 0x1F00 2 [0x32, 0x31], []) ∧
  decode [0x0B, 0x00, 0x05, 0x00, 0x03, 0x00, 0x05, 0x00, 0x0A, 0x00, 0xF8] = .ok (.drawLine 5 3 5 10 0x00F8, []) ∧
  decode [0x0D, 0x00, 0xD9, 0x01, 0xC5, 0x00, 0xB4, 0x01, 0xF4] = .ok (.refresh 217 453 180 500, [])

/-! ## Fetch (30_encoding.md R75, R76, R79; 41_panel_protocol.md R117) -/

/-- An illegal opcode: IllegalOp from byte 0 alone, HALT_PC = PC, nothing else changes; every other encoding is one of the
thirteen operations: no hint, no custom space, no no-operation (30_encoding.md R75). -/
def Obligations.IllegalOpcodeHalts : Prop :=
  (∀ (s : State) (b0 : Byte) (rest : List Byte), Idle s → HostIdle s → s.prog.drop s.pc = b0 :: rest →
    (b0 = 0x00 ∨ 0x0E ≤ b0.toNat) →
    step s = .next { s with halted := true, haltCause := .illegalOp, haltPc := s.pc, host := s.host.tail }) ∧
  (∀ (bs : List Byte) (i : Instr) (rest : List Byte), decode bs = .ok (i, rest) → ∃ op, opOf i = some op)

/-- PACK's channel 3..255: IllegalOp at the fetch (30_encoding.md R76). -/
def Obligations.IllegalPackChannelHalts : Prop :=
  ∀ (s : State) (chan8 pct8 : Byte) (rest : List Byte), Idle s → HostIdle s →
    s.prog.drop s.pc = 0x08 :: chan8 :: pct8 :: rest → 3 ≤ chan8.toNat →
    step s = .next { s with halted := true, haltCause := .illegalOp, haltPc := s.pc, host := s.host.tail }

/-- A truncated descriptor leaves SEQ without a step, in a state that is not final; PACK's channel byte makes no difference
(log entry 18); an illegal opcode halts even as the last byte of PROG (30_encoding.md R79). -/
def Obligations.TruncatedDescriptorHasNoStep : Prop :=
  (∀ (s : State) (i : Instr) (k : Nat), Idle s → HostIdle s → i.wellFormed = true → i.wire = none → 0 < k → k < oplen i →
    s.prog.drop s.pc = (encode s.cfg i).take k → step s = .fault .awaitingBytes ∧ ¬ IsFinal s) ∧
  (∀ (s : State) (chan8 : Byte), Idle s → HostIdle s → s.prog.drop s.pc = [0x08, chan8] →
    step s = .fault .awaitingBytes ∧ ¬ IsFinal s) ∧
  (∀ (s : State) (b0 : Byte), Idle s → HostIdle s → s.prog.drop s.pc = [b0] → (b0 = 0x00 ∨ 0x0E ≤ b0.toNat) →
    ∃ t, step s = .next t ∧ t.halted = true ∧ t.haltCause = .illegalOp)

/-- Between operations, a step runs the instruction the bytes at PC decode to (41_panel_protocol.md R117). -/
def Obligations.StepRunsTheDecodedInstruction : Prop :=
  ∀ (s : State) (i : Instr) (rest : List Byte), Idle s → HostIdle s → decode (s.prog.drop s.pc) = .ok (i, rest) →
    step s = exec i { s with host := s.host.tail }

/-- With a command byte in flight that BUS performs, a step delivers the wire command to the PANEL, puts the transfer on
WIRE, ends it, and lets SEQ go on (40_transfer.md R103, 20_memory.md R52). -/
def Obligations.StepDeliversTheWireCommand : Prop :=
  ∀ (s : State) (b : Byte) (i : Instr), s.rstN = true → s.halted = false → s.xferBusy = true →
    s.inflight = some ⟨false, [b]⟩ → HostIdle s → s.busNext = .perform → s.cfg.WellFormed →
    decodeWire s.cfg b = some i →
    ∃ t, exec i s = .next t ∧
      step s = .next (runSeq s.todo { t with
        wire := s.wire ++ [.xfer false [b]], inflight := none, xferBusy := false, bus := s.bus.tail,
        host := s.host.tail })

/-! ## Reset (10_state.md R28, 70_reset_and_hazards.md R200) -/

/-- The values the spec gives for power-on reset (10_state.md R28); the registers it leaves unspecified are not named. -/
def Obligations.ResetHoldsTheSpecValues : Prop :=
  State.reset.pc = 0 ∧ State.reset.pstate = .uninitialized ∧ State.reset.xferBusy = false ∧ State.reset.inflight = none ∧
  State.reset.dcx = true ∧ State.reset.resx = true ∧ State.reset.winValid = false ∧ State.reset.streaming = false ∧
  State.reset.pxRemaining = 0 ∧ State.reset.pixacc = 0x0000 ∧ State.reset.halted = false ∧
  State.reset.haltCause.code = 0 ∧ State.reset.haltPc = 0 ∧ State.reset.wire = []

/-- RST_N asserted and released, from any state: while it is asserted there is no step, and after it every register has the
value the spec gives, PROG and CFG are as before, WIRE is empty, nothing is sent to the panel, and the panel counts as
unspecified, which is what P_BAD = 1 says, whether or not a transfer was in flight (70_reset_and_hazards.md R200, R201, R217;
HOST's list is the model's, log entry 15; that P_BAD = 1 stands for it is the model's, log entry 8). -/
def Obligations.PowerOnResetFromAnyState : Prop :=
  ∀ (s : State) (rest : List HostAct), s.host = .assertReset :: .releaseReset :: rest →
    ∃ t u, step s = .next t ∧ step { t with host := [] } = .fault .heldInReset ∧ step t = .next u ∧
      u.rstN = true ∧ u.host = rest ∧ u.cfg = s.cfg ∧ u.prog = s.prog ∧
      u.pc = 0 ∧ u.pstate = .uninitialized ∧ u.xferBusy = false ∧ u.inflight = none ∧ u.dcx = true ∧ u.resx = true ∧
      u.winValid = false ∧ u.streaming = false ∧ u.pxRemaining = 0 ∧ u.pixacc = 0x0000 ∧ u.halted = false ∧
      u.haltCause = .none ∧ u.haltPc = 0 ∧ u.wire = [] ∧ u.todo = [] ∧ u.panel.bad = true ∧
      (s.cfg.WellFormed → ∀ row col, u.panel.gramCell s.cfg row col = none ∧ u.panel.shown s.cfg row col = none)

/-! ## The Transfer Primitive (40_transfer.md) -/

/-- Issue: XFER_BUSY is set and INFLIGHT samples DCX, and nothing appears on WIRE; the empty list raises Halt(TransferArg);
under a well-formed CFG no operation issues any but 1 or 2 bytes (40_transfer.md R101, R104). -/
def Obligations.IssueOfATransfer : Prop :=
  (∀ (s : State) (bytes : List Byte), bytes ≠ [] →
    seqMicro (.transfer bytes) s = { s with xferBusy := true, inflight := some ⟨s.dcx, bytes⟩ }) ∧
  (∀ (s : State), seqMicro (.transfer []) s = { s with halted := true, haltCause := .transferArg, haltPc := s.pc }) ∧
  (∀ (c : Cfg) (i : Instr) (m : Micro), c.WellFormed → m ∈ seqProgram c i →
    (∀ bytes, m = .transfer bytes → bytes.length = 1 ∨ bytes.length = 2) ∧
    (∀ (k : Nat) (s : State), m = .transferRaster k → ∃ p : Pixel, seqMicro m s =
      { s with xferBusy := true, inflight := some ⟨s.dcx, [p.extractLsb' 0 8, p.extractLsb' 8 8]⟩ }))

/-- The net effect of a performed transfer, under a well-formed CFG: WIRE gains it, the PANEL receives its bytes, every DHE register is unchanged
(40_transfer.md R109). What the PANEL's registers hold while P_BAD = 1 is the model's, log entry 11. -/
def Obligations.PerformedTransferNetEffect : Prop :=
  ∀ (s : State) (bytes : List Byte), s.cfg.WellFormed → bytes ≠ [] → s.halted = false → s.xferBusy = false →
    s.inflight = none → s.busNext = .perform →
    actMicro (.transfer bytes) s = { s with
      wire := s.wire ++ [.xfer s.dcx bytes], panel := bytes.foldl (panelByte s.cfg s.dcx) s.panel, bus := s.bus.tail }

/-- A transport fault, with any prefix of the bytes sent: the machine halts with TransportFault at PC, the PANEL is
poisoned, XFER_BUSY, INFLIGHT and every other register keep their values: on a transfer BUS stalled before; on one faulted
where it is issued; and so SEND_COMMAND leaves DCX low, and SET_DRAW_WINDOW leaves WIN_VALID 0 and the window registers as
they were (40_transfer.md R105, 41_panel_protocol.md R112, R114, 20_memory.md R52). The list BUS's choice is taken from is the
model's, log entry 4; so are the field for the actions to come, log entry 9, and the prefix given by its length, log entry 16;
HOST's list, log entry 15. -/
def Obligations.TransportFaultHaltsTheMachine : Prop :=
  (∀ (s : State) (t : InFlight) (sent : List Byte), s.rstN = true → s.halted = false → s.xferBusy = true →
    s.inflight = some t → HostIdle s → sent <+: t.bytes → s.busNext = .fault sent.length →
    step s = .next { s with
      wire := s.wire ++ [.xferFault t.dc sent], panel := { s.panel with bad := true },
      halted := true, haltCause := .transportFault, haltPc := s.pc, todo := [], bus := s.bus.tail, host := s.host.tail }) ∧
  (∀ (s : State) (bytes sent : List Byte), bytes ≠ [] → s.halted = false → sent <+: bytes →
    s.busNext = .fault sent.length →
    actMicro (.transfer bytes) s = { s with
      xferBusy := true, inflight := some ⟨s.dcx, bytes⟩, wire := s.wire ++ [.xferFault s.dcx sent],
      panel := { s.panel with bad := true }, halted := true, haltCause := .transportFault, haltPc := s.pc,
      bus := s.bus.tail }) ∧
  (∀ (s : State) (code : Byte) (sent : List Byte), Idle s → s.pstate ≠ .uninitialized → s.streaming = false →
    sent <+: [code] → s.busNext = .fault sent.length →
    exec (.sendCommand code) s = .next { s with
      dcx := false, xferBusy := true, inflight := some ⟨false, [code]⟩, wire := s.wire ++ [.xferFault false sent],
      panel := { s.panel with bad := true }, halted := true, haltCause := .transportFault, haltPc := s.pc,
      bus := s.bus.tail }) ∧
  (∀ (s : State) (x y w h : BitVec 16) (sent : List Byte), Idle s → s.cfg.WellFormed → s.pstate ≠ .uninitialized →
    s.streaming = false → WindowOk s.cfg x.toNat y.toNat w.toNat h.toNat → sent <+: [s.cfg.cmdCaset] →
    s.busNext = .fault sent.length →
    exec (.setDrawWindow x y w h) s = .next { s with
      winValid := false, dcx := false, xferBusy := true, inflight := some ⟨false, [s.cfg.cmdCaset]⟩,
      wire := s.wire ++ [.xferFault false sent], panel := { s.panel with bad := true }, halted := true,
      haltCause := .transportFault, haltPc := s.pc, bus := s.bus.tail })

/-- While BUS does not step SEQ only waits: after any number of such steps nothing but BUS's own list has changed; and with
a BUS that never steps again nothing changes at all, however many steps are taken: BUS is under no obligation to step
(40_transfer.md R102, R106). -/
def Obligations.StalledBusKeepsSeqWaiting : Prop :=
  (∀ (s : State) (t : InFlight) (n : Nat) (rest : List BusChoice), s.rstN = true → s.halted = false → s.xferBusy = true →
    s.inflight = some t → s.host = [] → s.bus = List.replicate n .stall ++ rest →
    Sys2Proof.core.run n s = .next { s with bus := rest }) ∧
  (∀ (s : State) (t : InFlight) (n : Nat), s.rstN = true → s.halted = false → s.xferBusy = true →
    s.inflight = some t → s.host = [] → s.bus = [] → s.busRest = .stall →
    Sys2Proof.core.run n s = .next s)

/-- After a halt neither SEQ nor BUS has a step and no operation is performed, whichever it is, so nothing can raise again;
only HOST's power-on reset leaves it, and a halted state is never final (60_exceptions.md R178, 70_reset_and_hazards.md R200).
HOST's list is the model's, and so are the values HALTED, HALT_CAUSE, PSTATE, PC and WIRE have in the step that asserts RST_N:
the spec gives them when it is released (log entry 15). -/
def Obligations.HaltedMachineHasNoStep : Prop :=
  ∀ (s : State), s.halted = true →
    (∀ t, step s = .next t → (s.host.head? = some .assertReset ∨ s.host.head? = some .releaseReset) ∧
      (t = { s with host := s.host.tail } ∨
        (t.halted = false ∧ t.haltCause = .none ∧ t.pstate = .uninitialized ∧ t.pc = 0 ∧ t.wire = []))) ∧
    (∀ (i : Instr) (op : Op), opOf i = some op → ∀ t, exec i s ≠ .next t) ∧ ¬ IsFinal s

/-! ## Common checks (41_panel_protocol.md R119, R120) -/

/-- The legality table by protocol state; an illegal combination raises Halt(ProtocolOrder) and nothing else changes
(41_panel_protocol.md R119). -/
def Obligations.IllegalProtocolStateHalts : Prop :=
  (∀ op : Op, (opLegal op .uninitialized = true ↔ op ∈ [Op.reset, .pack, .init]) ∧
    (opLegal op .reset = true ↔ op ∉ [Op.drawCharacter, .drawString, .drawLine, .refresh]) ∧
    (opLegal op .configured = true ↔ op ≠ .configure)) ∧
  (∀ (s : State) (i : Instr) (op : Op), Idle s → opOf i = some op → opLegal op s.pstate = false →
    exec i s = .next { s with halted := true, haltCause := .protocolOrder, haltPc := s.pc })

/-- While STREAMING = 1 every operation but WRITE_PIXEL, PACK, RESET and INIT raises Halt(StreamCount) before touching a
pin, and so does WRITE_PIXEL while STREAMING = 0 (41_panel_protocol.md R120). -/
def Obligations.StreamingDisciplineHalts : Prop :=
  (∀ (s : State) (i : Instr) (op : Op), Idle s → opOf i = some op → opLegal op s.pstate = true → s.streaming = true →
    op ∉ [Op.writePixel, .pack, .reset, .init] →
    exec i s = .next { s with halted := true, haltCause := .streamCount, haltPc := s.pc }) ∧
  (∀ (s : State) (p : Pixel), Idle s → s.pstate ≠ .uninitialized → s.streaming = false →
    exec (.writePixel p) s = .next { s with halted := true, haltCause := .streamCount, haltPc := s.pc })

/-! ## The Panel Controller Protocol (41_panel_protocol.md) -/

/-- RESET, in every protocol state, streaming or not: the reset pulse, the delays and the software-reset command on WIRE,
and exactly these registers (41_panel_protocol.md R110, R122). -/
def Obligations.ResetCompletes : Prop :=
  ∀ (s : State), Idle s → Performs s → s.cfg.WellFormed →
    exec .reset s = .next { emitAll (rstTrace s.cfg) s with
      pstate := .reset, winValid := false, streaming := false, pxRemaining := 0, resx := true, dcx := true,
      pc := s.pc + 1 }

/-- CONFIGURE from Reset, not streaming: the trace cfg(), the full window, Configured (41_panel_protocol.md R111, R122). -/
def Obligations.ConfigureCompletes : Prop :=
  ∀ (s : State), Idle s → Performs s → s.cfg.WellFormed → s.pstate = .reset → s.streaming = false →
    exec .configure s = .next { emitAll (cfgTrace s.cfg) s with
      pstate := .configured, win := windowOf 0 0 s.cfg.usableCols s.cfg.usableRows, winValid := true, dcx := true,
      streaming := false, pxRemaining := 0, pc := s.pc + 1 }

/-- SEND_COMMAND: one command byte, the select line back at the data level; DHE's bookkeeping does not follow; a byte that
is one of the seven codes has that wire command's effect on the PANEL (41_panel_protocol.md R112, 20_memory.md R53). What the
PANEL's registers hold while P_BAD = 1 is the model's, log entry 11. -/
def Obligations.SendCommandCompletes : Prop :=
  ∀ (s : State) (code : Byte), Idle s → Performs s → s.cfg.WellFormed → s.pstate ≠ .uninitialized → s.streaming = false →
    exec (.sendCommand code) s = .next { s with
      wire := s.wire ++ [.xfer false [code]], panel := panelCommand s.cfg code s.panel, bus := s.bus.tail,
      dcx := true, pc := s.pc + 2 } ∧
    ∀ i, decodeWire s.cfg code = some i → exec i s = .next { s with panel := panelCommand s.cfg code s.panel }

/-- SEND_DATA: one data byte, which joins P_ARGS (41_panel_protocol.md R113, 20_memory.md R50) and does by P_CMD what the
rules say. CMD_CASET, CMD_RASET: with the fourth byte the window's start and end are set, and a start above the end, or an
end past the native area, poisons; a fifth poisons (R54, R55). CMD_COLMOD, CMD_MADCTL: the first byte is the setting, a
second poisons (R58). CMD_RAMWR: a first half waits, a second makes a pixel, which is written, or poisons (R56, R57, R58).
After CMD_SWRESET, CMD_DISPON, no command or an unknown one: poison (R53, R58). P_BAD is sticky (R50); what the other
registers hold while P_BAD = 1 is the model's, log entry 11. -/
def Obligations.SendDataCompletes : Prop :=
  ∀ (s : State) (byte : Byte), Idle s → Performs s → s.cfg.WellFormed → s.pstate ≠ .uninitialized → s.streaming = false →
    ∃ t, exec (.sendData byte) s = .next t ∧
      t = { s with
        wire := s.wire ++ [.xfer true [byte]], panel := t.panel, bus := s.bus.tail, dcx := true, pc := s.pc + 2 } ∧
      t.panel.args = s.panel.args ++ [byte] ∧ t.panel.cmd = s.panel.cmd ∧ (s.panel.bad = true → t.panel.bad = true) ∧
      (s.panel.cmd = some s.cfg.cmdCaset →
        (s.panel.args.length < 3 → t.panel = { s.panel with args := s.panel.args ++ [byte] }) ∧
        (∀ a0 a1 a2, s.panel.args = [a0, a1, a2] → t.panel = { s.panel with
          args := [a0, a1, a2, byte], xs := some (a0.toNat * 256 + a1.toNat), xe := some (a2.toNat * 256 + byte.toNat),
          bad := s.panel.bad || decide (a0.toNat * 256 + a1.toNat > a2.toNat * 256 + byte.toNat ∨
            a2.toNat * 256 + byte.toNat ≥ s.cfg.nativeCols) }) ∧
        (4 ≤ s.panel.args.length → t.panel.bad = true)) ∧
      (s.panel.cmd = some s.cfg.cmdRaset →
        (s.panel.args.length < 3 → t.panel = { s.panel with args := s.panel.args ++ [byte] }) ∧
        (∀ a0 a1 a2, s.panel.args = [a0, a1, a2] → t.panel = { s.panel with
          args := [a0, a1, a2, byte], ys := some (a0.toNat * 256 + a1.toNat), ye := some (a2.toNat * 256 + byte.toNat),
          bad := s.panel.bad || decide (a0.toNat * 256 + a1.toNat > a2.toNat * 256 + byte.toNat ∨
            a2.toNat * 256 + byte.toNat ≥ s.cfg.nativeRows) }) ∧
        (4 ≤ s.panel.args.length → t.panel.bad = true)) ∧
      (s.panel.cmd = some s.cfg.cmdColmod →
        (s.panel.args = [] → t.panel = { s.panel with args := [byte], fmt := some byte }) ∧
        (s.panel.args ≠ [] → t.panel.bad = true)) ∧
      (s.panel.cmd = some s.cfg.cmdMadctl →
        (s.panel.args = [] → t.panel = { s.panel with args := [byte], orient := some byte }) ∧
        (s.panel.args ≠ [] → t.panel.bad = true)) ∧
      (s.panel.cmd = some s.cfg.cmdRamwr →
        (s.panel.half = none → t.panel = { s.panel with args := s.panel.args ++ [byte], half := some byte }) ∧
        (∀ first, s.panel.half = some first → PixelTaken s.cfg (first ++ byte) s.panel t.panel)) ∧
      (s.panel.cmd ∉ [some s.cfg.cmdCaset, some s.cfg.cmdRaset, some s.cfg.cmdColmod, some s.cfg.cmdMadctl,
        some s.cfg.cmdRamwr] → t.panel.bad = true)

/-- SET_DRAW_WINDOW: on a window that fits, the ten window bytes and the seven registers; on any other
Halt(WindowInvalid) with every register as it was, nothing clamped, no sum wrapped (20_memory.md R43, 41_panel_protocol.md
R114). -/
def Obligations.SetDrawWindowCompletes : Prop :=
  (∀ (s : State) (x y w h : BitVec 16), Idle s → Performs s → s.cfg.WellFormed → s.pstate ≠ .uninitialized →
    s.streaming = false → w ≠ 0 → h ≠ 0 → x.toNat + w.toNat ≤ s.cfg.usableCols → y.toNat + h.toNat ≤ s.cfg.usableRows →
    exec (.setDrawWindow x y w h) s = .next { emitAll (winTrace s.cfg x.toNat y.toNat w.toNat h.toNat) s with
      win := windowOf x.toNat y.toNat w.toNat h.toNat, winValid := true, dcx := true, pc := s.pc + 9 }) ∧
  (∀ (s : State) (x y w h : BitVec 16), Idle s → s.cfg.WellFormed → s.pstate ≠ .uninitialized →
    s.streaming = false →
    (w = 0 ∨ h = 0 ∨ s.cfg.usableCols < x.toNat + w.toNat ∨ s.cfg.usableRows < y.toNat + h.toNat) →
    exec (.setDrawWindow x y w h) s = .next { s with halted := true, haltCause := .windowInvalid, haltPc := s.pc })

/-- What querying the window after a successful SET_DRAW_WINDOW yields on the status port, and the window the PANEL then
has, shifted by MARGIN, if it was in step with no stream open (20_memory.md R44; 41_panel_protocol.md R114). -/
def Obligations.ProgrammedWindowIsShiftedByTheMargin : Prop :=
  ∀ (s : State) (x y w h : BitVec 16), Idle s → Performs s → s.cfg.WellFormed → s.pstate ≠ .uninitialized →
    s.streaming = false → s.panel.bad = false → s.panel.streamOpen s.cfg = false →
    WindowOk s.cfg x.toNat y.toNat w.toNat h.toNat →
    ∃ t, exec (.setDrawWindow x y w h) s = .next t ∧
      (statusPort t).win.xs.toNat = x.toNat ∧ (statusPort t).win.xe.toNat = x.toNat + w.toNat - 1 ∧
      (statusPort t).win.ys.toNat = y.toNat ∧ (statusPort t).win.ye.toNat = y.toNat + h.toNat - 1 ∧
      (statusPort t).win.w.toNat = w.toNat ∧ (statusPort t).win.h.toNat = h.toNat ∧
      (statusPort t).win.count.toNat = w.toNat * h.toNat ∧
      t.panel.bad = false ∧
      t.panel.xs = some (x.toNat + s.cfg.margin) ∧ t.panel.xe = some (x.toNat + w.toNat - 1 + s.cfg.margin) ∧
      t.panel.ys = some (y.toNat + s.cfg.margin) ∧ t.panel.ye = some (y.toNat + h.toNat - 1 + s.cfg.margin)

/-- BEGIN_PIXEL_WRITE: with a valid window the memory-write command and an open stream; without one Halt(ProtocolOrder)
(41_panel_protocol.md R115). What the PANEL's
registers hold while P_BAD = 1 is the model's, log entry 11. -/
def Obligations.BeginPixelWriteCompletes : Prop :=
  (∀ (s : State), Idle s → Performs s → s.cfg.WellFormed → s.pstate ≠ .uninitialized → s.streaming = false →
    s.winValid = true →
    exec .beginPixelWrite s = .next { s with
      wire := s.wire ++ [.xfer false [s.cfg.cmdRamwr]], panel := panelCommand s.cfg s.cfg.cmdRamwr s.panel,
      bus := s.bus.tail, dcx := true, pxRemaining := s.win.count, streaming := true, pc := s.pc + 1 }) ∧
  (∀ (s : State), Idle s → s.pstate ≠ .uninitialized → s.streaming = false → s.winValid = false →
    exec .beginPixelWrite s = .next { s with halted := true, haltCause := .protocolOrder, haltPc := s.pc })

/-- WRITE_PIXEL in an open stream: the Pixel's two bytes, low byte first, as one data transfer; one pixel counted off, and
the stream closed by the last (41_panel_protocol.md R116, 10_state.md R19). A PANEL at the start of a pixel of its memory
write takes the Pixel's wire value where its cursor stands and advances, or is poisoned: by a pixel past END or with the
cursor unset, or while P_FMT or P_ORIENT is not CONFIGURE's, as in state Reset (20_memory.md R56, R57, R58, R60). The cells
are said only while P_BAD = 0. What P_ARGS, P_HALF and the cursor hold while P_BAD = 1 is the model's, log entry 11: the spec
calls them unspecified there (R60). -/
def Obligations.WritePixelCompletes : Prop :=
  ∀ (s : State) (p : Pixel), Inv s → Idle s → Performs s → s.pstate ≠ .uninitialized → s.streaming = true →
    ∃ t, exec (.writePixel p) s = .next t ∧
      t.pxRemaining.toNat + 1 = s.pxRemaining.toNat ∧ (t.streaming = true ↔ 0 < t.pxRemaining.toNat) ∧
      t = { s with
        wire := s.wire ++ [.xfer true [p.extractLsb' 0 8, p.extractLsb' 8 8]],
        panel := panelData s.cfg (p.extractLsb' 8 8) (panelData s.cfg (p.extractLsb' 0 8) s.panel), bus := s.bus.tail,
        pxRemaining := t.pxRemaining, streaming := t.streaming, pc := s.pc + 3 } ∧
      t.panel.args = s.panel.args ++ [p.extractLsb' 0 8, p.extractLsb' 8 8] ∧
      (s.panel.cmd = some s.cfg.cmdRamwr → s.panel.half = none → PixelTaken s.cfg (wirev p) s.panel t.panel)

/-- The next WRITE_PIXEL of a stream goes to the next cell of the window in row-major order, and to no other
(41_panel_protocol.md R116, 20_memory.md R56, R57). -/
def Obligations.WritePixelGoesToTheNextCell : Prop :=
  ∀ (s : State) (p : Pixel), Inv s → Idle s → Performs s → InStep s → s.pstate = .configured → s.streaming = true →
    ∃ t, exec (.writePixel p) s = .next t ∧ t.panel.bad = false ∧
      t.panel.gramCell s.cfg (s.win.ys.toNat + sentPixels s / s.win.w.toNat + s.cfg.margin)
        (s.win.xs.toNat + sentPixels s % s.win.w.toNat + s.cfg.margin) = some (wirev p) ∧
      ∀ row col, (row, col) ≠ (s.win.ys.toNat + sentPixels s / s.win.w.toNat + s.cfg.margin,
          s.win.xs.toNat + sentPixels s % s.win.w.toNat + s.cfg.margin) →
        t.panel.gramCell s.cfg row col = s.panel.gramCell s.cfg row col

/-! ## The Pixel Model (42_pixel_model.md) -/

/-- PACK: `PIXACC <- (PIXACC and not mask(channel)) or pack(channel, pct)`, in every protocol state and while streaming,
whatever BUS does; above 100 per cent Halt(PercentInvalid) with PIXACC unchanged (42_pixel_model.md R134). -/
def Obligations.PackCompletes : Prop :=
  ∀ (s : State) (ch : Channel) (pct : Byte), Idle s →
    exec (.pack ch pct) s =
      if pct.toNat ≤ 100 then
        .next { s with pixacc := s.pixacc &&& ~~~ (channelMask ch) ||| pack ch pct.toNat, pc := s.pc + 3 }
      else .next { s with halted := true, haltCause := .percentInvalid, haltPc := s.pc }

/-- The fields `unpack` reads, as numbers, and that unpacking recovers the quantised percentage, and nothing of it from the
other channels (42_pixel_model.md R132). -/
def Obligations.UnpackRecoversThePercentage : Prop :=
  (∀ (ch : Channel) (pct : Nat), pct ≤ 100 →
    unpack ch (pack ch pct) = maxv ch * pct / 100 ∧ ∀ ch', ch' ≠ ch → unpack ch' (pack ch pct) = 0) ∧
  (∀ (p : Pixel), unpack .red p = p.toNat / 8 % 32 ∧ unpack .green p = p.toNat % 8 * 8 + p.toNat / 8192 ∧
    unpack .blue p = p.toNat / 256 % 32)

/-- The wire value of a Pixel: its own inverse, red in bits 15:11, green in 10:5, blue in 4:0 (42_pixel_model.md R131). -/
def Obligations.WireValueFields : Prop :=
  ∀ (p : Pixel), wirev (wirev p) = p ∧
    ((wirev p).extractLsb' 11 5).toNat = unpack .red p ∧
    ((wirev p).extractLsb' 5 6).toNat = unpack .green p ∧
    ((wirev p).extractLsb' 0 5).toNat = unpack .blue p

/-- Three PACKs, one per channel, in any order, leave rgb(pr, pg, pb) in PIXACC whatever it held before
(42_pixel_model.md R134, R135). -/
def Obligations.ThreePacksMakeAColour : Prop :=
  ∀ (s : State) (pr pg pb : Byte) (order : List (Channel × Byte)), Idle s →
    order.Perm [(.red, pr), (.green, pg), (.blue, pb)] → pr.toNat ≤ 100 → pg.toNat ≤ 100 → pb.toNat ≤ 100 →
    ∀ a b c : Channel × Byte, order = [a, b, c] →
      ∃ s1 s2 s3, exec (.pack a.1 a.2) s = .next s1 ∧ exec (.pack b.1 b.2) s1 = .next s2 ∧
        exec (.pack c.1 c.2) s2 = .next s3 ∧ s3 = { s with pixacc := rgb pr.toNat pg.toNat pb.toNat, pc := s.pc + 9 }

/-! ## The Glyph Rasterizer (43_glyph_rasterizer.md) -/

/-- DRAW_CHARACTER with scale ≥ 1, a code in the font and a box that fits: its window and its (8·scale)² pixels
(43_glyph_rasterizer.md R141, R144; that RASTER_BUF is empty after it is the model's, log entry 6). -/
def Obligations.DrawCharacterCompletes : Prop :=
  ∀ (s : State) (x y : BitVec 16) (code : Byte) (color : Pixel) (scale : Byte), Idle s → Performs s → s.cfg.WellFormed →
    s.pstate = .configured → s.streaming = false → 1 ≤ scale.toNat → s.cfg.InFont code →
    x.toNat + 8 * scale.toNat ≤ s.cfg.usableCols → y.toNat + 8 * scale.toNat ≤ s.cfg.usableRows →
    exec (.drawCharacter x y code color scale) s = .next { emitAll
        (winTrace s.cfg x.toNat y.toNat (8 * scale.toNat) (8 * scale.toNat) ++
          streamTrace s.cfg (raster s.cfg code color scale.toNat)) s with
      win := windowOf x.toNat y.toNat (8 * scale.toNat) (8 * scale.toNat), winValid := true, dcx := true,
      streaming := false, pxRemaining := 0, rasterBuf := [], pc := s.pc + 9 }

/-- DRAW_CHARACTER's halts in the order they are tested: scale, code, window; no pin is touched
(43_glyph_rasterizer.md R141, 60_exceptions.md R174). -/
def Obligations.DrawCharacterHaltsInOrder : Prop :=
  ∀ (s : State) (x y : BitVec 16) (code : Byte) (color : Pixel) (scale : Byte), Idle s → s.cfg.WellFormed →
    s.pstate = .configured → s.streaming = false →
    ¬ (1 ≤ scale.toNat ∧ s.cfg.InFont code ∧ x.toNat + 8 * scale.toNat ≤ s.cfg.usableCols ∧
      y.toNat + 8 * scale.toNat ≤ s.cfg.usableRows) →
    exec (.drawCharacter x y code color scale) s = .next { s with
      halted := true, haltPc := s.pc,
      haltCause :=
        if scale = 0 then .scaleInvalid
        else if code.toNat < s.cfg.fontFirst.toNat ∨ s.cfg.fontLast.toNat < code.toNat then .charCodeInvalid
        else .windowInvalid }

/-- What DRAW_CHARACTER leaves on an in-step panel: each cell of the box holds the wire value of its raster pixel, and no
other cell changes (43_glyph_rasterizer.md R141, R144). -/
def Obligations.DrawCharacterPaintsItsBox : Prop :=
  ∀ (s : State) (x y : BitVec 16) (code : Byte) (color : Pixel) (scale : Byte), Idle s → Performs s → s.cfg.WellFormed →
    InStep s → s.pstate = .configured → s.streaming = false →
    charHalt s.cfg x.toNat y.toNat code scale.toNat = none →
    ∃ t, exec (.drawCharacter x y code color scale) s = .next t ∧ t.panel.bad = false ∧
      (∀ row col, row < 8 * scale.toNat → col < 8 * scale.toNat →
        t.panel.gramCell s.cfg (y.toNat + s.cfg.margin + row) (x.toNat + s.cfg.margin + col) =
          some (wirev (if glyphBit s.cfg code (row / scale.toNat) (col / scale.toNat) then color else bg))) ∧
      (∀ prow pcol, ¬ CellIn s.cfg ⟨x.toNat, y.toNat, 8 * scale.toNat, 8 * scale.toNat⟩ prow pcol →
        t.panel.gramCell s.cfg prow pcol = s.panel.gramCell s.cfg prow pcol)

/-- DRAW_CHARACTER is performed at some origin exactly when 8·scale is at most both sides of the usable area, that is when
scale is at most MAX_SCALE; with any larger scale it halts with WindowInvalid at every origin, and RASTER_BUF and everything
else is as it was (43_glyph_rasterizer.md R142). -/
def Obligations.ScaleIsBoundedByTheWindow : Prop :=
  ∀ (s : State) (code : Byte) (color : Pixel) (scale : Byte), Idle s → s.cfg.WellFormed → s.pstate = .configured →
    s.streaming = false → s.cfg.InFont code → 1 ≤ scale.toNat →
    (Performs s →
      ((∃ x y t, exec (.drawCharacter x y code color scale) s = .next t ∧ t.halted = false) ↔
        8 * scale.toNat ≤ min s.cfg.usableCols s.cfg.usableRows) ∧
      ((∃ x y t, exec (.drawCharacter x y code color scale) s = .next t ∧ t.halted = false) ↔
        scale.toNat ≤ min s.cfg.usableCols s.cfg.usableRows / 8)) ∧
    (min s.cfg.usableCols s.cfg.usableRows / 8 < scale.toNat → ∀ (x y : BitVec 16),
      ∃ t, exec (.drawCharacter x y code color scale) s = .next t ∧ t.rasterBuf = s.rasterBuf ∧
        t = { s with halted := true, haltCause := .windowInvalid, haltPc := s.pc })

/-- DRAW_STRING, every character passing its checks where it stands: the characters' traces in order, the registers of the
last character's box, none changed by an empty text (43_glyph_rasterizer.md R143, R145; that RASTER_BUF is empty after it is
the model's, log entry 6). -/
def Obligations.DrawStringCompletes : Prop :=
  ∀ (s : State) (x y : BitVec 16) (color : Pixel) (scale : Byte) (text : List Byte), Idle s → Performs s →
    s.cfg.WellFormed → s.pstate = .configured → s.streaming = false → StringOk s.cfg scale.toNat text x.toNat y.toNat →
    exec (.drawString x y color scale text) s = .next
      { stringDrawn s.cfg scale.toNat text x.toNat y.toNat
          (emitAll (stringTrace s.cfg color scale.toNat text x.toNat y.toNat) s) with pc := s.pc + (9 + text.length) }

/-- DRAW_STRING halts at the first character whose checks fail, with the characters before it complete and nothing of it on
the wire; PC is not advanced (43_glyph_rasterizer.md R143, 60_exceptions.md R177). -/
def Obligations.DrawStringHaltsAtTheFirstBadCharacter : Prop :=
  ∀ (s : State) (x y : BitVec 16) (color : Pixel) (scale : Byte) (pre : List Byte) (code : Byte) (post : List Byte)
    (k : Cause), Idle s → Performs s → s.cfg.WellFormed → s.pstate = .configured → s.streaming = false →
    StringOk s.cfg scale.toNat pre x.toNat y.toNat →
    charHalt s.cfg (charX s.cfg x.toNat pre.length scale.toNat) (charY s.cfg y.toNat pre.length scale.toNat) code
      scale.toNat = some k →
    exec (.drawString x y color scale (pre ++ code :: post)) s = .next
      { stringDrawn s.cfg scale.toNat pre x.toNat y.toNat
          (emitAll (stringTrace s.cfg color scale.toNat pre x.toNat y.toNat) s) with
        halted := true, haltCause := k, haltPc := s.pc }

/-- What DRAW_STRING leaves on an in-step panel: each cell of each character's box holds the wire value of its raster pixel,
and no other cell changes (43_glyph_rasterizer.md R143, R144). -/
def Obligations.DrawStringPaintsItsBoxes : Prop :=
  ∀ (s : State) (x y : BitVec 16) (color : Pixel) (scale : Byte) (text : List Byte), Idle s → Performs s →
    s.cfg.WellFormed → InStep s → s.pstate = .configured → s.streaming = false →
    StringOk s.cfg scale.toNat text x.toNat y.toNat →
    ∃ t, exec (.drawString x y color scale text) s = .next t ∧ t.panel.bad = false ∧
      (∀ k (h : k < text.length) row col, row < 8 * scale.toNat → col < 8 * scale.toNat →
        t.panel.gramCell s.cfg (charY s.cfg y.toNat k scale.toNat + s.cfg.margin + row)
          (charX s.cfg x.toNat k scale.toNat + s.cfg.margin + col) =
            some (wirev (if glyphBit s.cfg text[k] (row / scale.toNat) (col / scale.toNat) then color else bg))) ∧
      (∀ prow pcol, (∀ k < text.length, ¬ CellIn s.cfg ⟨charX s.cfg x.toNat k scale.toNat,
          charY s.cfg y.toNat k scale.toNat, 8 * scale.toNat, 8 * scale.toNat⟩ prow pcol) →
        t.panel.gramCell s.cfg prow pcol = s.panel.gramCell s.cfg prow pcol)

/-! ## The Line Primitive (44_line_primitive.md) -/

/-- DRAW_LINE start-first along one axis inside the usable area: the window one pixel wide and `end - start` long, filled
with the colour (44_line_primitive.md R151, R152). -/
def Obligations.DrawLineCompletes : Prop :=
  ∀ (s : State) (xs ys xe ye : BitVec 16) (color : Pixel), Idle s → Performs s → s.cfg.WellFormed →
    s.pstate = .configured → s.streaming = false →
    (xs = xe → ys.toNat < ye.toNat → xs.toNat < s.cfg.usableCols → ye.toNat ≤ s.cfg.usableRows →
      exec (.drawLine xs ys xe ye color) s = .next { emitAll
          (winTrace s.cfg xs.toNat ys.toNat 1 (ye.toNat - ys.toNat) ++
            streamTrace s.cfg (List.replicate (ye.toNat - ys.toNat) color)) s with
        win := windowOf xs.toNat ys.toNat 1 (ye.toNat - ys.toNat), winValid := true, dcx := true, streaming := false,
        pxRemaining := 0, pc := s.pc + 11 }) ∧
    (ys = ye → xs.toNat < xe.toNat → ys.toNat < s.cfg.usableRows → xe.toNat ≤ s.cfg.usableCols →
      exec (.drawLine xs ys xe ye color) s = .next { emitAll
          (winTrace s.cfg xs.toNat ys.toNat (xe.toNat - xs.toNat) 1 ++
            streamTrace s.cfg (List.replicate (xe.toNat - xs.toNat) color)) s with
        win := windowOf xs.toNat ys.toNat (xe.toNat - xs.toNat) 1, winValid := true, dcx := true, streaming := false,
        pxRemaining := 0, pc := s.pc + 11 })

/-- DRAW_LINE's other operands: a point and a diagonal halt with LineInvalid; an end-first line, and a line that leaves the
usable area, with WindowInvalid; no pin is touched (44_line_primitive.md R150, R151, R153). -/
def Obligations.DrawLineHalts : Prop :=
  ∀ (s : State) (xs ys xe ye : BitVec 16) (color : Pixel), Idle s → s.cfg.WellFormed → s.pstate = .configured →
    s.streaming = false →
    ((xs = xe ∧ ys = ye) ∨ (xs ≠ xe ∧ ys ≠ ye) →
      exec (.drawLine xs ys xe ye color) s = .next { s with halted := true, haltCause := .lineInvalid, haltPc := s.pc }) ∧
    ((xs = xe ∧ ye.toNat < ys.toNat) ∨ (ys = ye ∧ xe.toNat < xs.toNat) ∨
      (xs = xe ∧ ys.toNat < ye.toNat ∧ (s.cfg.usableCols ≤ xs.toNat ∨ s.cfg.usableRows < ye.toNat)) ∨
      (ys = ye ∧ xs.toNat < xe.toNat ∧ (s.cfg.usableRows ≤ ys.toNat ∨ s.cfg.usableCols < xe.toNat)) →
      exec (.drawLine xs ys xe ye color) s = .next { s with halted := true, haltCause := .windowInvalid, haltPc := s.pc })

/-- What DRAW_LINE leaves on an in-step panel: the cells of the segment, its end excluded, hold the wire value of the
colour, and no other cell changes (44_line_primitive.md R151, R152). -/
def Obligations.DrawLinePaintsItsSegment : Prop :=
  ∀ (s t : State) (xs ys xe ye : BitVec 16) (color : Pixel), Idle s → Performs s → s.cfg.WellFormed → InStep s →
    s.pstate = .configured → s.streaming = false → exec (.drawLine xs ys xe ye color) s = .next t → t.halted = false →
    t.panel.bad = false ∧ ∀ row col, t.panel.gramCell s.cfg row col =
      if (xs = xe ∧ col = xs.toNat + s.cfg.margin ∧ ys.toNat + s.cfg.margin ≤ row ∧ row < ye.toNat + s.cfg.margin) ∨
        (ys = ye ∧ row = ys.toNat + s.cfg.margin ∧ xs.toNat + s.cfg.margin ≤ col ∧ col < xe.toNat + s.cfg.margin)
      then some (wirev color) else s.panel.gramCell s.cfg row col

/-! ## The Display Session (45_display_session.md) -/

/-- INIT, in every protocol state, streaming or not, under a well-formed CFG and LAYOUT: it never halts; WIRE gains rst(),
cfg(), the labels, the lines; and the registers it may write (45_display_session.md R161). -/
def Obligations.InitCompletes : Prop :=
  ∀ (s : State), Idle s → Performs s → s.cfg.WellFormed → s.cfg.LayoutWellFormed →
    ∃ t, exec .init s = .next t ∧ t.pstate = .configured ∧ t.streaming = false ∧ t.winValid = true ∧
      (s.cfg.layout.labels = [] → s.cfg.layout.lines = [] →
        t.win = windowOf 0 0 s.cfg.usableCols s.cfg.usableRows) ∧
      t = { emitAll (initTrace s.cfg) s with
        pstate := .configured, winValid := true, win := t.win, streaming := false, pxRemaining := 0, resx := true,
        dcx := true, rasterBuf := t.rasterBuf, pc := s.pc + 1 }

/-- REFRESH under a well-formed LAYOUT with every reading from 0 to 999.9: the twelve elements in order, and the registers of
the last one, the outside humidity's decimal digit (45_display_session.md R162, R163; that RASTER_BUF is empty after it is
the model's, log entry 6). -/
def Obligations.RefreshCompletes : Prop :=
  ∀ (s : State) (it ih ot oh : BitVec 16), Idle s → Performs s → s.cfg.WellFormed → s.cfg.LayoutWellFormed →
    s.pstate = .configured → s.streaming = false →
    (∀ v ∈ [it, ih, ot, oh], v.toNat < 10000) →
    exec (.refresh it ih ot oh) s = .next
      { emitAll (refreshTrace s.cfg it.toNat ih.toNat ot.toNat oh.toNat) s with
        win := windowOf s.cfg.layout.outside.humidity.dec.x s.cfg.layout.outside.humidity.dec.y
          (8 * s.cfg.layout.outside.humidity.dec.scale) (8 * s.cfg.layout.outside.humidity.dec.scale),
        winValid := true, dcx := true, streaming := false, pxRemaining := 0, rasterBuf := [], pc := s.pc + 9 }

/-- REFRESH with a negative reading halts with ReadingInvalid before any pin is touched (45_display_session.md R163). -/
def Obligations.NegativeReadingHalts : Prop :=
  ∀ (s : State) (it ih ot oh : BitVec 16), Idle s → s.pstate = .configured → s.streaming = false →
    (it.toInt < 0 ∨ ih.toInt < 0 ∨ ot.toInt < 0 ∨ oh.toInt < 0) →
    exec (.refresh it ih ot oh) s = .next { s with halted := true, haltCause := .readingInvalid, haltPc := s.pc }

/-- The wire trace of REFRESH is a function of its operands and CFG alone: from any two states in which it is performed,
under one CFG, it appends the same events, also where it halts on the way; and a second REFRESH with the same readings
completes too and leaves every cell of GRAM as the first left it (45_display_session.md R165). -/
def Obligations.RefreshIsIdempotent : Prop :=
  (∀ (s u t v : State) (it ih ot oh : BitVec 16), Idle s → Idle u → Performs s → Performs u → s.cfg = u.cfg →
    s.cfg.WellFormed → s.pstate = .configured → u.pstate = .configured → s.streaming = false → u.streaming = false →
    exec (.refresh it ih ot oh) s = .next t → exec (.refresh it ih ot oh) u = .next v →
    ∃ es, t.wire = s.wire ++ es ∧ v.wire = u.wire ++ es ∧ t.halted = v.halted ∧
      (t.halted = true → t.haltCause = v.haltCause)) ∧
  (∀ (s t : State) (it ih ot oh : BitVec 16), Idle s → Performs s → s.cfg.WellFormed → InStep s →
    s.pstate = .configured → s.streaming = false → exec (.refresh it ih ot oh) s = .next t → t.halted = false →
    ∃ u, exec (.refresh it ih ot oh) t = .next u ∧ u.halted = false ∧
      ∀ row col, u.panel.gramCell s.cfg row col = t.panel.gramCell s.cfg row col)

/-- With a well-formed LAYOUT, REFRESH of readings below 1000.0 writes no cell of a label box or of a decorative line
(45_display_session.md R166). -/
def Obligations.RefreshLeavesLabelsAndLines : Prop :=
  ∀ (s : State) (it ih ot oh : BitVec 16), Idle s → Performs s → s.cfg.WellFormed → s.cfg.LayoutWellFormed → InStep s →
    s.pstate = .configured → s.streaming = false → (∀ v ∈ [it, ih, ot, oh], v.toNat < 10000) →
    ∃ t, exec (.refresh it ih ot oh) s = .next t ∧
      (∀ l ∈ s.cfg.layout.labels, ∀ row col, CellIn s.cfg (s.cfg.labelBox l) row col →
        t.panel.gramCell s.cfg row col = s.panel.gramCell s.cfg row col) ∧
      (∀ l ∈ s.cfg.layout.lines, ∀ row col, CellIn s.cfg l.box row col →
        t.panel.gramCell s.cfg row col = s.panel.gramCell s.cfg row col)

/-! ## The PANEL's commands (20_memory.md) -/

/-- CMD_SWRESET: every PANEL register unset, P_ON and P_BAD 0, GRAM unspecified; no DHE register changes
(20_memory.md R51, R53; that P_CMD is none, not the command, is the model's reading, log entry 13). -/
def Obligations.SoftwareResetCommandClearsThePanel : Prop :=
  ∀ (s : State), ∃ t, exec .cmdSwreset s = .next t ∧ t = { s with panel := t.panel } ∧
    t.panel.cmd = none ∧ t.panel.args = [] ∧ t.panel.xs = none ∧ t.panel.xe = none ∧ t.panel.ys = none ∧
    t.panel.ye = none ∧ t.panel.cursor = .unset ∧ t.panel.half = none ∧ t.panel.fmt = none ∧ t.panel.orient = none ∧
    t.panel.on = false ∧ t.panel.bad = false ∧
    (s.cfg.WellFormed → ∀ row col, t.panel.gramCell s.cfg row col = none)

/-- CMD_COLMOD, CMD_MADCTL, CMD_CASET, CMD_RASET: P_CMD, P_ARGS, P_HALF and the short-stream test, nothing more until data
arrives; CMD_DISPON besides sets P_ON (20_memory.md R53). No DHE register changes. What the registers hold while P_BAD = 1 is
the model's, log entry 11. -/
def Obligations.PanelCommandsTakeEffect : Prop :=
  ∀ (s : State) (i : Instr) (code : Byte) (lit : Bool), s.cfg.WellFormed →
    (i, code, lit) ∈ [(Instr.cmdColmod, s.cfg.cmdColmod, s.panel.on), (.cmdMadctl, s.cfg.cmdMadctl, s.panel.on),
      (.cmdCaset, s.cfg.cmdCaset, s.panel.on), (.cmdRaset, s.cfg.cmdRaset, s.panel.on),
      (.cmdDispon, s.cfg.cmdDispon, true)] →
    exec i s = .next { s with panel := { s.panel with
      cmd := some code, args := [], half := none, on := lit,
      bad := s.panel.bad || decide (s.panel.cmd = some s.cfg.cmdRamwr ∧
        (s.panel.half ≠ none ∨ (s.panel.cursor ≠ .finished ∧ s.panel.cursor ≠ .unset))) } }

/-- CMD_RAMWR: after what every command byte does, the cursor goes to the window's first cell if all four window registers
are set, else P_BAD (20_memory.md R53). No DHE register changes. What the registers hold while P_BAD = 1 is the model's, log
entry 11. -/
def Obligations.MemoryWriteCommandPutsTheCursor : Prop :=
  ∀ (s : State), s.cfg.WellFormed → ∃ t, exec .cmdRamwr s = .next t ∧
    (∀ xs xe ys ye, s.panel.xs = some xs → s.panel.xe = some xe → s.panel.ys = some ys → s.panel.ye = some ye →
      t = { s with panel := { s.panel with
        cmd := some s.cfg.cmdRamwr, args := [], half := none, cursor := .cell xs ys,
        bad := s.panel.bad || s.panel.streamOpen s.cfg } }) ∧
    (s.panel.xs = none ∨ s.panel.xe = none ∨ s.panel.ys = none ∨ s.panel.ye = none →
      t = { s with panel := { s.panel with cmd := some s.cfg.cmdRamwr, args := [], half := none, bad := true } })

/-- A command code outside the seven poisons the PANEL, and SEND_COMMAND sends it all the same (20_memory.md R53,
41_panel_protocol.md R112). -/
def Obligations.UnknownCommandPoisonsThePanel : Prop :=
  ∀ (s : State) (code : Byte), Idle s → Performs s → s.cfg.WellFormed → s.pstate ≠ .uninitialized →
    s.streaming = false → code ∉ s.cfg.commands →
    ∃ t, exec (.sendCommand code) s = .next t ∧ t.panel.bad = true ∧ t.wire = s.wire ++ [.xfer false [code]] ∧
      t.winValid = s.winValid ∧ t.win = s.win ∧ ∀ row col, t.panel.gramCell s.cfg row col = none

/-- The panel stays in step: RESET and INIT bring it in step from any panel state, and every host operation but the raw
bytes keeps it there, WRITE_PIXEL once Configured, if BUS performs and nothing halts (20_memory.md R60; the premise Inv holds
at reset and is kept by every step). -/
def Obligations.PanelStaysInStep : Prop :=
  ∀ (s t : State) (i : Instr), Inv s → Idle s → Performs s → notRaw i = true →
    (InStep s ∨ i = .reset ∨ i = .init) → ((∃ p, i = .writePixel p) → s.pstate = .configured) →
    exec i s = .next t → t.halted = false → InStep t

/-- DHE never draws on the margin: a host operation that is no raw byte leaves every cell outside the usable area as it was,
or, if it resets the panel, unspecified; and SET_DRAW_WINDOW, BEGIN_PIXEL_WRITE and PACK change no cell at all
(20_memory.md R43, R62). -/
def Obligations.MarginIsNeverDrawn : Prop :=
  ∀ (s t : State) (i : Instr), Inv s → Idle s → Performs s → notRaw i = true → InStep s →
    ((∃ p, i = .writePixel p) → s.pstate = .configured) → exec i s = .next t → t.halted = false →
    (∀ row col, ¬ UsableCell s.cfg row col →
      t.panel.gramCell s.cfg row col = s.panel.gramCell s.cfg row col ∨
      ((i = .reset ∨ i = .init) ∧ t.panel.gramCell s.cfg row col = none)) ∧
    (opOf i = some .setDrawWindow ∨ opOf i = some .beginPixelWrite ∨ opOf i = some .pack →
      ∀ row col, t.panel.gramCell s.cfg row col = s.panel.gramCell s.cfg row col)

/-- After RESET then CONFIGURE, from any panel state, the display is on and every usable cell holds white
(41_panel_protocol.md R111, 70_reset_and_hazards.md R203). -/
def Obligations.BringUpWhitensTheUsableArea : Prop :=
  ∀ (s : State), Idle s → Performs s → s.cfg.WellFormed →
    ∃ t u, exec .reset s = .next t ∧ exec .configure t = .next u ∧ u.pstate = .configured ∧ u.panel.bad = false ∧
      u.panel.on = true ∧ ∀ row col, UsableCell s.cfg row col → u.panel.gramCell s.cfg row col = some 0xFFFF

/-! ## The whole machine -/

/-- The invariant holds at reset (with CFG_REF: log entry 2). -/
def Obligations.InvariantHoldsAtReset : Prop := Inv State.reset

/-- Every step keeps the invariant, whatever BUS and HOST do: XFER_BUSY = 1 iff INFLIGHT ≠ none (40_transfer.md R107),
STREAMING = 1 iff PX_REMAINING > 0 (10_state.md R19), the Draw Window invariants (R23), DCX = 1 outside a send_command
(R16), and the rest of `Inv`. -/
def Obligations.InvariantIsKeptByEveryStep : Prop :=
  ∀ (s t : State), Inv s → step s = .next t → Inv t

/-- WIRE only grows, and the PANEL's state is moved by the events WIRE gains and by nothing else, unless HOST acts on RST_N
(20_memory.md R63 (a), (d); 10_state.md R30). Under a well-formed CFG, which no step changes. What the PANEL's
registers hold while P_BAD = 1 is the model's, log entry 11. -/
def Obligations.WireGrowsAndDrivesThePanel : Prop :=
  ∀ (s t : State), s.cfg.WellFormed → HostIdle s → step s = .next t →
    ∃ es, t.wire = s.wire ++ es ∧ t.panel = panelEvents s.cfg s.panel es

/-- No step writes PROG or CFG (20_memory.md R47, R65). They, and BUS's choice at each transfer, are parameters of the step and
no part of the machine's state, which is `Regs` (00_scope.md R2, 10_state.md R25): from the state `r` under `c` and `prog`,
with BUS and HOST to do as `e` says, the machine has exactly the steps and the faults that `stepUnder c prog e` has from `r`,
and its next state is again one under `c` and `prog`. The machine's runs of any length are the runs of `stepUnder`, whatever
BUS and HOST do in each of their steps. That `State` carries the parameters beside the machine's state is the model's, log
entries 1, 4 and 15. -/
def Obligations.ProgAndCfgAreNeverWritten : Prop :=
  (∀ (s t : State), step s = .next t → t.prog = s.prog ∧ t.cfg = s.cfg) ∧
  (∀ (c : Cfg) (prog : List Byte) (e : Inputs) (r : Regs),
    (∀ r', stepUnder c prog e r = .next r' ↔ ∃ e', step (r.under c prog e) = .next (r'.under c prog e')) ∧
    (∀ f, stepUnder c prog e r = .fault f ↔ step (r.under c prog e) = .fault f)) ∧
  (∀ (c : Cfg) (prog : List Byte) (n : Nat) (r r' : Regs),
    (∃ es, es.length = n ∧ runUnder c prog es r = .next r') ↔
      ∃ e e', core.run n (r.under c prog e) = .next (r'.under c prog e'))

/-- PC: an operation that completes advances it by its length; one that halts, or is still waiting for BUS, leaves it, and
HALT_PC is then the address of the operation that raised; so it is for exec of an operation, and for every step from a state
with the invariant in which HOST leaves RST_N alone, the steps that go on after a stall among them: nothing else writes PC,
whatever BUS does (10_state.md R13, 60_exceptions.md R176). -/
def Obligations.PcAdvancesByTheLength : Prop :=
  (∀ (s t : State) (i : Instr) (op : Op), Idle s → opOf i = some op → exec i s = .next t →
    (t.halted = false ∧ t.xferBusy = false ∧ t.todo = [] ∧ t.pc = s.pc + oplen i) ∨
    (t.halted = true ∧ t.haltPc = s.pc ∧ t.pc = s.pc) ∨
    (t.halted = false ∧ t.xferBusy = true ∧ t.pc = s.pc)) ∧
  (∀ (s t : State), Inv s → HostIdle s → step s = .next t →
    (t.halted = false ∧ t.xferBusy = false ∧ t.todo = [] ∧
      ∃ i rest, decode (s.prog.drop s.pc) = .ok (i, rest) ∧ t.pc = s.pc + oplen i) ∨
    (t.halted = true ∧ t.haltPc = s.pc ∧ t.pc = s.pc) ∨
    (t.halted = false ∧ t.xferBusy = true ∧ t.pc = s.pc))

/-- The write column of the access matrix, whatever BUS does (10_state.md R29): an operation that the matrix does not let
write a register leaves it, exec of it and every step taken on it, from a state with the invariant in which HOST leaves
RST_N alone: the step that starts it and the steps that go on with it after a stall. -/
def Obligations.AccessMatrixWrites : Prop :=
  (∀ (s t : State) (i : Instr) (op : Op), opOf i = some op → exec i s = .next t → MatrixKept op s t) ∧
  (∀ (s t : State) (i : Instr) (op : Op) (rest : List Byte), Inv s → HostIdle s →
    decode (s.prog.drop s.pc) = .ok (i, rest) → opOf i = some op → step s = .next t → MatrixKept op s t)

/-- A step is a finite run of agent steps: SEQ's fetch and actions one at a time, with BUS's step on each transfer
(10_state.md R10, 40_transfer.md R101 to R103). -/
def Obligations.StepIsARunOfAgentSteps : Prop :=
  ∀ (s t : State), s.host = [] → step s = .next t → ∃ n, fineCore.run n s = .next t
end

