-- ==== Sys2Proof/Laws/Memory.lean ====
section
/-! SUPPORT. Laws/Memory.lean: the panel's memory: every operation keeps the canonical form, a read after a write gives the
value written, and a write leaves every other address alone; the same for whole cells of GRAM. -/

namespace Sys2Proof.Machine

/-! ## Bytes -/

theorem Memory.wfFrom_mono {m : Memory} {lo hi : Nat} (h : lo ≤ hi) (k : Memory.wfFrom (some hi) m = true) :
    Memory.wfFrom (some lo) m = true := by
  cases m with
  | nil => rfl
  | cons e m => simp [Memory.wfFrom] at k ⊢; exact ⟨by omega, k.2⟩

theorem Memory.write_wfFrom (m : Memory) (a : Nat) (b : Byte) :
    ∀ lo, lo < a → Memory.wfFrom (some lo) m = true → Memory.wfFrom (some lo) (m.write a b) = true := by
  induction m with
  | nil => intro lo h _; simp [Memory.write, Memory.wfFrom, h]
  | cons e m ih =>
    intro lo h k
    obtain ⟨k1, k2⟩ : lo < e.1 ∧ Memory.wfFrom (some e.1) m = true := by simpa [Memory.wfFrom] using k
    simp only [Memory.write]
    split
    · simp [Memory.wfFrom, *]
    · split
      · subst a; simp [Memory.wfFrom, k1, k2]
      · simp [Memory.wfFrom, k1, ih e.1 (by omega) k2]

/-- A write keeps the canonical form. -/
theorem Memory.write_wf (m : Memory) (a : Nat) (b : Byte) (h : m.wf = true) : (m.write a b).wf = true := by
  cases m with
  | nil => rfl
  | cons e m =>
    have k : Memory.wfFrom (some e.1) m = true := by simpa [Memory.wf, Memory.wfFrom] using h
    simp only [Memory.write, Memory.wf]
    split
    · simp [Memory.wfFrom, *]
    · split
      · subst a; simpa [Memory.wfFrom] using k
      · simpa [Memory.wfFrom] using Memory.write_wfFrom m a b e.1 (by omega) k

/-- A read after a write to the same address. -/
theorem Memory.read_write_self (m : Memory) (a : Nat) (b : Byte) : (m.write a b).read a = some b := by
  induction m with
  | nil => simp [Memory.write, Memory.read]
  | cons e m ih =>
    simp only [Memory.write]
    split
    · simp [Memory.read]
    · split
      · simp [Memory.read]
      · simp [Memory.read, *]

/-- A write leaves every other address alone. -/
theorem Memory.read_write_other (m : Memory) {a a' : Nat} (b : Byte) (h : a' ≠ a) : (m.write a b).read a' = m.read a' := by
  induction m with
  | nil => simp [Memory.write, Memory.read, h]
  | cons e m ih =>
    simp only [Memory.write]
    split
    · simp [Memory.read, h]
    · split
      · subst a; simp [Memory.read, h]
      · simp [Memory.read, ih]

/-- Equal memories are equal data: in canonical form, what an address reads as determines the list. -/
theorem Memory.read_none {m : Memory} {lo : Nat} (h : Memory.wfFrom (some lo) m = true) {a : Nat} (k : a ≤ lo) :
    m.read a = none := by
  induction m generalizing lo with
  | nil => rfl
  | cons e m ih =>
    obtain ⟨h1, h2⟩ : lo < e.1 ∧ Memory.wfFrom (some e.1) m = true := by simpa [Memory.wfFrom] using h
    simp only [Memory.read]
    rw [if_neg (by omega)]
    exact ih h2 (by omega)

/-- The memory at reset is in canonical form. -/
theorem Memory.reset_wf : State.reset.panel.gram.wf = true := rfl

/-! ## Bytes of a 16-bit value -/

@[simp] theorem be16_hi8_lo8 (v : BitVec 16) : be16 (hi8 v) (lo8 v) = v := by
  apply BitVec.eq_of_getLsbD_eq
  intro i hi
  unfold be16 hi8 lo8
  erw [BitVec.getLsbD_append]
  simp only [BitVec.getLsbD_extractLsb']
  split
  · simp [*]
  · have : i - 8 < 8 := by omega
    simp [this]; congr 1; omega

@[simp] theorem hi8_be16 (a b : Byte) : hi8 (be16 a b) = a := by
  apply BitVec.eq_of_getLsbD_eq
  intro i hi
  unfold be16 hi8
  rw [BitVec.getLsbD_extractLsb']
  erw [BitVec.getLsbD_append]
  simp [hi]

@[simp] theorem lo8_be16 (a b : Byte) : lo8 (be16 a b) = b := by
  apply BitVec.eq_of_getLsbD_eq
  intro i hi
  unfold be16 lo8
  rw [BitVec.getLsbD_extractLsb']
  erw [BitVec.getLsbD_append]
  simp [hi]

/-! ## Cells of GRAM -/

theorem gramWrite_wf (c : Cfg) (m : Memory) (row col : Nat) (v : Pixel) (h : m.wf = true) :
    (gramWrite c m row col v).wf = true :=
  Memory.write_wf _ _ _ (Memory.write_wf _ _ _ h)

/-- The value of a cell, whatever P_BAD. -/
def cellAt (c : Cfg) (m : Memory) (row col : Nat) : Option Pixel :=
  match m.read (gramAddr c row col), m.read (gramAddr c row col + 1) with
  | some hi, some lo => some (be16 hi lo)
  | _, _ => none

theorem gramCell_eq (c : Cfg) (p : Panel) (row col : Nat) :
    p.gramCell c row col = if p.bad || !(row < c.nativeRows && col < c.nativeCols) then none else cellAt c p.gram row col :=
  rfl

theorem cellAt_write_self (c : Cfg) (m : Memory) (row col : Nat) (v : Pixel) :
    cellAt c (gramWrite c m row col v) row col = some v := by
  unfold cellAt gramWrite
  rw [Memory.read_write_other _ _ (by omega), Memory.read_write_self, Memory.read_write_self]
  simp

/-- Cells of one row-major area have their own addresses. -/
theorem gramAddr_ne {n : Nat} {row col row' col' : Nat} (h : col < n) (h' : col' < n)
    (ne : (row', col') ≠ (row, col)) : row' * n + col' ≠ row * n + col := by
  intro e
  rcases Nat.lt_trichotomy row' row with k | k | k
  · have := Nat.mul_le_mul_right n (show row' + 1 ≤ row from k); rw [Nat.add_mul] at this; omega
  · subst k; exact ne (by simp; omega)
  · have := Nat.mul_le_mul_right n (show row + 1 ≤ row' from k); rw [Nat.add_mul] at this; omega

theorem cellAt_write_other {c : Cfg} (m : Memory) {row col row' col' : Nat} (v : Pixel) (h : col < c.nativeCols)
    (h' : col' < c.nativeCols) (ne : (row', col') ≠ (row, col)) :
    cellAt c (gramWrite c m row col v) row' col' = cellAt c m row' col' := by
  have := gramAddr_ne h h' ne
  unfold cellAt gramWrite gramAddr
  rw [Memory.read_write_other _ _ (by omega), Memory.read_write_other _ _ (by omega),
    Memory.read_write_other _ _ (by omega), Memory.read_write_other _ _ (by omega)]

end Sys2Proof.Machine
end

