-- ==== Sys2Proof/Laws/Panel.lean ====
section
/-! SUPPORT. Laws/Panel.lean: what the PANEL does with the traces of the protocol: a window, a pixel stream, and the two
together as a patch laid over the screen. -/

namespace Sys2Proof.Machine

/-! ## Command codes -/

/-- Each of the seven codes decodes to its command (00_scope.md R2: they are pairwise distinct). -/
theorem wireCmd_code {c : Cfg} (wf : c.WellFormed) (k : WireCmd) : c.wireCmd (c.code k) = some k := by
  have h := wf.2.2.2.1
  simp only [Cfg.commands, List.nodup_cons, List.mem_cons, List.not_mem_nil, or_false, not_or] at h
  obtain ⟨⟨a1, a2, a3, a4, a5, a6⟩, ⟨b1, b2, b3, b4, b5⟩, ⟨c1, c2, c3, c4⟩, ⟨d1, d2, d3⟩, ⟨e1, e2⟩, f1, -⟩ := h
  cases k <;> simp only [Cfg.wireCmd, Cfg.code] <;>
    simp [Ne.symm, *, Ne.symm a1, Ne.symm a2, Ne.symm a3, Ne.symm a4, Ne.symm a5, Ne.symm a6, Ne.symm b1, Ne.symm b2,
      Ne.symm b3, Ne.symm b4, Ne.symm b5, Ne.symm c1, Ne.symm c2, Ne.symm c3, Ne.symm c4, Ne.symm d1, Ne.symm d2,
      Ne.symm d3, Ne.symm e1, Ne.symm e2, Ne.symm f1]

theorem wireCmd_eq_some {c : Cfg} {b : Byte} {k : WireCmd} (h : c.wireCmd b = some k) : b = c.code k := by
  unfold Cfg.wireCmd at h
  repeat' split at h
  all_goals first | (obtain rfl := Option.some.inj h; assumption) | cases h

theorem panelCommand_code {c : Cfg} (wf : c.WellFormed) (k : WireCmd) (p : Panel) :
    panelCommand c (c.code k) p = panelCmd c k p := by
  simp [panelCommand, wireCmd_code wf]

/-! ## Data bytes -/

/-- A pixel leaves P_CMD and P_ARGS alone, and never clears P_BAD (20_memory.md R56, R50). -/
theorem panelPixel_keeps (c : Cfg) (v : Pixel) (p : Panel) : (panelPixel c v p).cmd = p.cmd ∧
    (panelPixel c v p).args = p.args ∧ (p.bad = true → (panelPixel c v p).bad = true) := by
  unfold panelPixel
  split
  · split
    · exact ⟨rfl, rfl, id⟩
    · exact ⟨rfl, rfl, fun _ => rfl⟩
    · exact ⟨rfl, rfl, fun _ => rfl⟩
  · exact ⟨rfl, rfl, fun _ => rfl⟩

/-- A data byte leaves P_CMD alone, joins P_ARGS, and never clears P_BAD (20_memory.md R50, R52). -/
theorem panelData_keeps (c : Cfg) (b : Byte) (p : Panel) : (panelData c b p).cmd = p.cmd ∧
    (panelData c b p).args = p.args ++ [b] ∧ (p.bad = true → (panelData c b p).bad = true) := by
  unfold panelData
  dsimp only
  split
  · unfold panelDataCaset; split <;> exact ⟨rfl, rfl, fun h => by simp [Panel.takeArg, h]⟩
  · unfold panelDataRaset; split <;> exact ⟨rfl, rfl, fun h => by simp [Panel.takeArg, h]⟩
  · unfold panelDataRamwr
    split
    · exact ⟨rfl, rfl, id⟩
    · exact panelPixel_keeps _ _ _
  · unfold panelDataColmod; split <;> exact ⟨rfl, rfl, fun h => by simp [Panel.takeArg, Panel.poison, h]⟩
  · unfold panelDataMadctl; split <;> exact ⟨rfl, rfl, fun h => by simp [Panel.takeArg, Panel.poison, h]⟩
  all_goals exact ⟨rfl, rfl, fun _ => rfl⟩

/-! ## Traces -/

theorem panelEvents_nil (c : Cfg) (p : Panel) : panelEvents c p [] = p := rfl

theorem panelEvents_append (c : Cfg) (p : Panel) (a b : List Event) :
    panelEvents c p (a ++ b) = panelEvents c (panelEvents c p a) b := by
  simp [panelEvents]

theorem panelEvents_cmd (c : Cfg) (p : Panel) (b : Byte) : panelEvents c p (cmdTrace b) = panelCommand c b p := rfl

theorem panelEvents_dat (c : Cfg) (p : Panel) (b : Byte) : panelEvents c p (datTrace b) = panelData c b p := rfl

theorem panelEvents_pix (c : Cfg) (p : Panel) (v : Pixel) :
    panelEvents c p (pixTrace v) = panelData c (hi8 v) (panelData c (lo8 v) p) := rfl

theorem coordByte_toNat {v : Nat} (h : v < 256) : (coordByte v).toNat = v := by
  simp [coordByte]; omega

/-- One axis of a window, sent to a panel that is not inside a stream (20_memory.md R54). -/
theorem panelEvents_caset {c : Cfg} (wf : c.WellFormed) {p : Panel} (hb : p.bad = false) (hs : p.streamOpen c = false)
    {start len : Nat} (hl : 0 < len) (h : phys c (start + len - 1) < c.nativeCols) :
    panelEvents c p (axisTrace c c.cmdCaset start len) = { p with
      cmd := some c.cmdCaset, args := [0, coordByte (phys c start), 0, coordByte (phys c (start + len - 1))], half := none,
      xs := some (phys c start), xe := some (phys c (start + len - 1)) } := by
  have h1 : c.nativeCols ≤ 256 := wf.1.2
  have h2 : phys c start ≤ phys c (start + len - 1) := by unfold phys; omega
  have k := panelCommand_code wf .caset p
  have kw := wireCmd_code wf .caset
  simp only [Cfg.code] at k kw
  simp only [axisTrace, panelEvents_append, panelEvents_cmd, panelEvents_dat, k, panelCmd, panelCaset, Panel.enter, hb, hs]
  simp [panelData, kw, Panel.takeArg, panelDataCaset, coordByte_toNat (show phys c start < 256 by omega),
    coordByte_toNat (show phys c (start + len - 1) < 256 by omega)]
  omega

/-- One axis of a window, sent to a panel that is not inside a stream (20_memory.md R55). -/
theorem panelEvents_raset {c : Cfg} (wf : c.WellFormed) {p : Panel} (hb : p.bad = false) (hs : p.streamOpen c = false)
    {start len : Nat} (hl : 0 < len) (h : phys c (start + len - 1) < c.nativeRows) :
    panelEvents c p (axisTrace c c.cmdRaset start len) = { p with
      cmd := some c.cmdRaset, args := [0, coordByte (phys c start), 0, coordByte (phys c (start + len - 1))], half := none,
      ys := some (phys c start), ye := some (phys c (start + len - 1)) } := by
  have h1 : c.nativeRows ≤ 256 := wf.2.1.2
  have h2 : phys c start ≤ phys c (start + len - 1) := by unfold phys; omega
  have k := panelCommand_code wf .raset p
  have kw := wireCmd_code wf .raset
  simp only [Cfg.code] at k kw
  simp only [axisTrace, panelEvents_append, panelEvents_cmd, panelEvents_dat, k, panelCmd, panelRaset, Panel.enter, hb, hs]
  simp [panelData, kw, Panel.takeArg, panelDataRaset, coordByte_toNat (show phys c start < 256 by omega),
    coordByte_toNat (show phys c (start + len - 1) < 256 by omega)]
  omega

/-- A panel whose command is not the memory write is inside no stream. -/
theorem streamOpen_of_cmd {c : Cfg} (wf : c.WellFormed) {p : Panel} (k : WireCmd) (hk : k ≠ .ramwr)
    (h : p.cmd = some (c.code k)) : p.streamOpen c = false := by
  have : c.code k ≠ c.cmdRamwr := fun e => hk (by
    have h1 := wireCmd_code wf k
    rw [e] at h1
    have h2 := wireCmd_code wf .ramwr
    exact (Option.some.inj (h1.symm.trans h2)))
  simp [Panel.streamOpen, h, this]

/-- The physical end of a window that fits lies in the native area (20_memory.md R43). -/
theorem WindowOk.phys_lt {c : Cfg} {x y w h : Nat} (wf : c.WellFormed) (ok : WindowOk c x y w h) :
    phys c (x + w - 1) + c.margin < c.nativeCols ∧ phys c (y + h - 1) + c.margin < c.nativeRows := by
  obtain ⟨o1, o2, o3, o4⟩ := ok
  have h3 := wf.2.2.1
  simp only [Cfg.usableCols, Cfg.usableRows] at o3 o4
  unfold phys
  omega

/-- A window that fits, sent to a panel that is not inside a stream (20_memory.md R44). -/
theorem panelEvents_win {c : Cfg} (wf : c.WellFormed) {p : Panel} (hb : p.bad = false) (hs : p.streamOpen c = false)
    {x y w h : Nat} (ok : WindowOk c x y w h) :
    panelEvents c p (winTrace c x y w h) = { p with
      cmd := some c.cmdRaset, args := [0, coordByte (phys c y), 0, coordByte (phys c (y + h - 1))], half := none,
      xs := some (phys c x), xe := some (phys c (x + w - 1)), ys := some (phys c y), ye := some (phys c (y + h - 1)) } := by
  have hp := ok.phys_lt wf
  rw [winTrace, panelEvents_append, panelEvents_caset wf hb hs ok.1 (by omega),
    panelEvents_raset wf (by simpa using hb) (streamOpen_of_cmd wf .caset (by decide) rfl) ok.2.1 (by omega)]

/-! ## A pixel stream -/

/-- Where the cursor stands after `k` pixels of a window (20_memory.md R57). -/
def cursorAt (xs ys w n k : Nat) : Cursor := if k < n then .cell (xs + k % w) (ys + k / w) else .finished

/-- The panel in the middle of a stream of `w · h` pixels, `k` of them received, ready for more. -/
structure Panel.Streaming (c : Cfg) (xs ys w h k : Nat) (p : Panel) : Prop where
  good : p.bad = false
  cmd : p.cmd = some c.cmdRamwr
  half : p.half = none
  fmt : p.fmt = some c.colmod16bit
  orient : p.orient = some c.madctlValue
  startCol : p.xs = some xs
  endCol : p.xe = some (xs + w - 1)
  startRow : p.ys = some ys
  endRow : p.ye = some (ys + h - 1)
  cursor : p.cursor = cursorAt xs ys w (w * h) k

/-- Cursor advance goes to the next cell in row-major order, and ends after the last (20_memory.md R57). -/
theorem advance_cursorAt {c : Cfg} {xs ys w h k : Nat} {p : Panel} (s : p.Streaming c xs ys w h k) (hk : k < w * h) :
    p.advance (xs + k % w) (ys + k / w) = cursorAt xs ys w (w * h) (k + 1) := by
  have hw : 0 < w := Nat.pos_of_ne_zero (by rintro rfl; simp at hk)
  have hm := Nat.mod_lt k hw
  have hd : k / w < h := Nat.div_lt_of_lt_mul hk
  have e := Nat.div_add_mod k w
  simp only [Panel.advance, s.startCol, s.endCol, s.endRow, cursorAt]
  by_cases h1 : k % w + 1 < w
  · have h2 : k + 1 = w * (k / w) + (k % w + 1) := by omega
    have h3 : (k + 1) % w = k % w + 1 := by rw [h2, Nat.mul_add_mod, Nat.mod_eq_of_lt h1]
    have h4 : (k + 1) / w = k / w := by
      rw [h2, Nat.mul_add_div hw, Nat.div_eq_of_lt h1, Nat.add_zero]
    have h5 : k + 1 < w * h := by
      have := Nat.mul_le_mul_left w (show k / w + 1 ≤ h from hd)
      rw [Nat.mul_add] at this
      omega
    rw [if_pos (by omega), if_pos h5, h3, h4]
    rfl
  · have h1' : k % w + 1 = w := by omega
    have h2 : k + 1 = w * (k / w + 1) := by rw [Nat.mul_add]; omega
    have h3 : (k + 1) % w = 0 := by rw [h2, Nat.mul_mod_right]
    have h4 : (k + 1) / w = k / w + 1 := by rw [h2, Nat.mul_div_cancel_left _ hw]
    rw [if_neg (by omega), h3, h4]
    by_cases h6 : k / w + 1 < h
    · have h5 : k + 1 < w * h := by
        have := Nat.mul_lt_mul_of_pos_left h6 hw
        omega
      rw [if_pos (by omega), if_pos h5]
      rfl
    · have h5 : ¬ k + 1 < w * h := by
        have : k / w + 1 = h := by omega
        rw [h2, this]; omega
      have h7 : ¬ ys + k / w < ys + h - 1 := by generalize k / w = q at *; omega
      rw [if_neg h7, if_neg h5]

/-- One pixel of a stream: it lands on the cursor's cell (20_memory.md R56). -/
theorem Panel.Streaming.pixel {c : Cfg} (wf : c.WellFormed) {xs ys w h k : Nat} {p : Panel}
    (s : p.Streaming c xs ys w h k) (hk : k < w * h) (v : Pixel) :
    panelEvents c p (pixTrace v) = { p with
      args := p.args ++ pixelBytes v, gram := gramWrite c p.gram (ys + k / w) (xs + k % w) (wirev v),
      cursor := cursorAt xs ys w (w * h) (k + 1) } := by
  have kw := wireCmd_code wf .ramwr
  simp only [Cfg.code] at kw
  have hc : p.cursor = .cell (xs + k % w) (ys + k / w) := by rw [s.cursor, cursorAt, if_pos hk]
  have ha := advance_cursorAt s hk
  simp only [panelEvents_pix, panelData, Panel.takeArg, s.cmd, Option.bind_some, kw, panelDataRamwr, s.half, panelPixel, s.fmt, s.orient,
    hc, and_self, if_true, wirev]
  simp [← ha, pixelBytes, Panel.advance]

theorem Panel.Streaming.next {c : Cfg} {xs ys w h k : Nat} {p : Panel} (s : p.Streaming c xs ys w h k)
    (as : List Byte) (m : Memory) : ({ p with args := as, gram := m, cursor := cursorAt xs ys w (w * h) (k + 1) } : Panel).Streaming c xs ys w h (k + 1) :=
  ⟨s.good, s.cmd, s.half, s.fmt, s.orient, s.startCol, s.endCol, s.startRow, s.endRow, rfl⟩

/-- GRAM after the pixels `px`, the first of them the `k`-th of its window. -/
def paintFrom (c : Cfg) (xs ys w : Nat) : Nat → List Pixel → Memory → Memory
  | _, [], m => m
  | k, v :: px, m => paintFrom c xs ys w (k + 1) px (gramWrite c m (ys + k / w) (xs + k % w) (wirev v))

/-- The pixels of a stream (20_memory.md R56, R57). -/
theorem Panel.Streaming.pixels {c : Cfg} (wf : c.WellFormed) {xs ys w h : Nat} (px : List Pixel) :
    ∀ {k : Nat} {p : Panel}, p.Streaming c xs ys w h k → k + px.length ≤ w * h →
      panelEvents c p (px.flatMap pixTrace) = { p with
        args := p.args ++ px.flatMap pixelBytes
        gram := paintFrom c xs ys w k px p.gram
        cursor := cursorAt xs ys w (w * h) (k + px.length) } := by
  induction px with
  | nil => intro k p s _; simp [panelEvents_nil, paintFrom, ← s.cursor]
  | cons v px ih =>
    intro k p s hl
    simp only [List.length_cons] at hl
    rw [List.flatMap_cons, panelEvents_append, s.pixel wf (by omega), ih (s.next _ _) (by omega)]
    simp [paintFrom, Nat.add_assoc, Nat.add_comm 1]

theorem paintFrom_wf (c : Cfg) (xs ys w : Nat) (px : List Pixel) :
    ∀ (k : Nat) (m : Memory), m.wf = true → (paintFrom c xs ys w k px m).wf = true := by
  induction px with
  | nil => intro k m h; exact h
  | cons v px ih => intro k m h; exact ih _ _ (gramWrite_wf _ _ _ _ _ h)

/-- A cell after a run of pixels: the pixel whose turn it was, if it was any's. -/
theorem cellAt_paintFrom {c : Cfg} {xs ys w : Nat} (hw : 0 < w) (hx : xs + w ≤ c.nativeCols) (px : List Pixel) :
    ∀ (k : Nat) (m : Memory) (row col : Nat), col < c.nativeCols →
      cellAt c (paintFrom c xs ys w k px m) row col =
        if ys ≤ row ∧ xs ≤ col ∧ col < xs + w ∧ k ≤ (row - ys) * w + (col - xs) ∧
            (row - ys) * w + (col - xs) < k + px.length
        then (px[(row - ys) * w + (col - xs) - k]?).map wirev
        else cellAt c m row col := by
  induction px with
  | nil =>
    intro k m row col _
    rw [if_neg (by simp)]; rfl
  | cons v px ih =>
    intro k m row col hc
    have hm := Nat.mod_lt k hw
    have e := Nat.div_add_mod k w
    simp only [paintFrom, List.length_cons]
    rw [ih _ _ _ _ hc]
    by_cases hit : ys ≤ row ∧ xs ≤ col ∧ col < xs + w ∧ (row - ys) * w + (col - xs) = k
    · obtain ⟨h1, h2, h3, h4⟩ := hit
      have hq : k / w = row - ys := by
        rw [← h4, Nat.mul_comm, Nat.mul_add_div hw, Nat.div_eq_of_lt (by omega), Nat.add_zero]
      have hr : k % w = col - xs := by
        rw [← h4, Nat.mul_comm, Nat.mul_add_mod, Nat.mod_eq_of_lt (by omega)]
      rw [if_neg (by omega), if_pos ⟨h1, h2, h3, by omega, by omega⟩, hq, hr, Nat.add_sub_cancel' h1,
        Nat.add_sub_cancel' h2, cellAt_write_self, h4]
      simp
    · have hne : (row, col) ≠ (ys + k / w, xs + k % w) := fun hh => hit (by
        obtain ⟨rfl, rfl⟩ := Prod.mk.inj hh
        refine ⟨Nat.le_add_right _ _, Nat.le_add_right _ _, by omega, ?_⟩
        rw [Nat.add_sub_cancel_left, Nat.add_sub_cancel_left, Nat.mul_comm]; exact e)
      by_cases h5 : ys ≤ row ∧ xs ≤ col ∧ col < xs + w ∧ k + 1 ≤ (row - ys) * w + (col - xs) ∧
          (row - ys) * w + (col - xs) < k + 1 + px.length
      · rw [if_pos h5, if_pos ⟨h5.1, h5.2.1, h5.2.2.1, by omega, by omega⟩]
        obtain ⟨j, hj⟩ : ∃ j, (row - ys) * w + (col - xs) - k = j + 1 := ⟨(row - ys) * w + (col - xs) - k - 1, by omega⟩
        rw [hj, List.getElem?_cons_succ, show (row - ys) * w + (col - xs) - (k + 1) = j by omega]
      · rw [if_neg h5, if_neg (fun h6 => h5 ⟨h6.1, h6.2.1, h6.2.2.1, by
          have := h6.2.2.2.1
          have : (row - ys) * w + (col - xs) ≠ k := fun h7 => hit ⟨h6.1, h6.2.1, h6.2.2.1, h7⟩
          omega, by have := h6.2.2.2.2; omega⟩),
          cellAt_write_other _ _ (by omega) hc hne]

end Sys2Proof.Machine
end

