-- ==== Sys2Proof/Laws/Decode.lean ====
section
/-! SUPPORT. Laws/Decode.lean: what each format's decoder gives on its own encoding, and what bytes it accepts. -/

namespace Sys2Proof.Machine

theorem channelOf_chan8Of (ch : Channel) : channelOf (chan8Of ch) = some ch := by cases ch <;> rfl

theorem chan8Of_of_channelOf {b : Byte} {ch : Channel} (h : channelOf b = some ch) : b = chan8Of ch := by
  unfold channelOf at h
  apply BitVec.eq_of_toNat_eq
  split at h <;> first | (obtain rfl := Option.some.inj h; simpa [chan8Of] using ‹b.toNat = _›) | cases h

theorem channelOf_none {b : Byte} (h : 3 ≤ b.toNat) : channelOf b = none := by
  unfold channelOf
  split <;> first | omega | rfl

/-- The length byte of a well-formed text (30_encoding.md R77). -/
theorem textLength_toNat {text : List Byte} (h : text.length ≤ 255) : (BitVec.ofNat 8 text.length).toNat = text.length := by
  rw [BitVec.toNat_ofNat]; omega

/-! The operand decoder each opcode selects (30_encoding.md R74). -/

theorem decode_sendCommand (rest : List Byte) : decode (0x03#8 :: rest) = decodeByte .sendCommand rest := rfl
theorem decode_sendData (rest : List Byte) : decode (0x04#8 :: rest) = decodeByte .sendData rest := rfl
theorem decode_setDrawWindow (rest : List Byte) : decode (0x05#8 :: rest) = decodeFour .setDrawWindow rest := rfl
theorem decode_writePixel (rest : List Byte) : decode (0x07#8 :: rest) = decodePixel .writePixel rest := rfl
theorem decode_pack (rest : List Byte) : decode (0x08#8 :: rest) = decodePack rest := rfl
theorem decode_drawCharacter (rest : List Byte) : decode (0x09#8 :: rest) = decodeCharacter rest := rfl
theorem decode_drawString (rest : List Byte) : decode (0x0A#8 :: rest) = decodeString rest := rfl
theorem decode_drawLine (rest : List Byte) : decode (0x0B#8 :: rest) = decodeLine rest := rfl
theorem decode_refresh (rest : List Byte) : decode (0x0D#8 :: rest) = decodeFour .refresh rest := rfl

/-- Byte 0 outside 0x01..0x0D selects no operation (30_encoding.md R75). -/
theorem decode_illegal {b0 : Byte} (h : b0 = 0x00 ∨ 0x0E ≤ b0.toNat) (rest : List Byte) :
    decode (b0 :: rest) = .error (.illegalOpcode b0) := by
  rcases h with rfl | h
  · rfl
  · simp only [decode]
    split <;> first | omega | rfl

/-- SEQ's decoder gives host operations only: a wire command is the PANEL's. -/
theorem decode_op {bs : List Byte} {i : Instr} {rest : List Byte} (h : decode bs = .ok (i, rest)) :
    ∃ op, opOf i = some op := by
  cases bs with
  | nil => cases h
  | cons b0 bs =>
    simp only [decode, decodeByte, decodePixel, decodePack, decodeFour, decodeCharacter, decodeString, decodeLine] at h
    repeat' split at h
    all_goals first | (obtain ⟨rfl, -⟩ := Prod.mk.inj (Except.ok.inj h); exact ⟨_, rfl⟩) | cases h

end Sys2Proof.Machine
end

