-- ==== Sys2Proof/Laws/State.lean ====
section
/-! SUPPORT. Laws/State.lean: one lemma per field per update of State, true by rfl. -/

namespace Sys2Proof.Machine

@[simp] theorem emit_cfg (e : Event) (s : State) : (emit e s).cfg = s.cfg := rfl
@[simp] theorem emit_prog (e : Event) (s : State) : (emit e s).prog = s.prog := rfl
@[simp] theorem emit_bus (e : Event) (s : State) : (emit e s).bus = s.bus := rfl
@[simp] theorem emit_busRest (e : Event) (s : State) : (emit e s).busRest = s.busRest := rfl
@[simp] theorem emit_toInputs (e : Event) (s : State) : (emit e s).toInputs = s.toInputs := rfl
@[simp] theorem emit_host (e : Event) (s : State) : (emit e s).host = s.host := rfl
@[simp] theorem emit_rstN (e : Event) (s : State) : (emit e s).rstN = s.rstN := rfl
@[simp] theorem emit_pc (e : Event) (s : State) : (emit e s).pc = s.pc := rfl
@[simp] theorem emit_pstate (e : Event) (s : State) : (emit e s).pstate = s.pstate := rfl
@[simp] theorem emit_xferBusy (e : Event) (s : State) : (emit e s).xferBusy = s.xferBusy := rfl
@[simp] theorem emit_inflight (e : Event) (s : State) : (emit e s).inflight = s.inflight := rfl
@[simp] theorem emit_dcx (e : Event) (s : State) : (emit e s).dcx = s.dcx := rfl
@[simp] theorem emit_resx (e : Event) (s : State) : (emit e s).resx = s.resx := rfl
@[simp] theorem emit_winValid (e : Event) (s : State) : (emit e s).winValid = s.winValid := rfl
@[simp] theorem emit_win (e : Event) (s : State) : (emit e s).win = s.win := rfl
@[simp] theorem emit_streaming (e : Event) (s : State) : (emit e s).streaming = s.streaming := rfl
@[simp] theorem emit_pxRemaining (e : Event) (s : State) : (emit e s).pxRemaining = s.pxRemaining := rfl
@[simp] theorem emit_pixacc (e : Event) (s : State) : (emit e s).pixacc = s.pixacc := rfl
@[simp] theorem emit_halted (e : Event) (s : State) : (emit e s).halted = s.halted := rfl
@[simp] theorem emit_haltCause (e : Event) (s : State) : (emit e s).haltCause = s.haltCause := rfl
@[simp] theorem emit_haltPc (e : Event) (s : State) : (emit e s).haltPc = s.haltPc := rfl
@[simp] theorem emit_rasterBuf (e : Event) (s : State) : (emit e s).rasterBuf = s.rasterBuf := rfl
@[simp] theorem emit_wire (e : Event) (s : State) : (emit e s).wire = s.wire ++ [e] := rfl
@[simp] theorem emit_todo (e : Event) (s : State) : (emit e s).todo = s.todo := rfl
@[simp] theorem emit_panel (e : Event) (s : State) : (emit e s).panel = panelEvent s.cfg s.panel e := rfl

@[simp] theorem emitAll_cfg (es : List Event) (s : State) : (emitAll es s).cfg = s.cfg := rfl
@[simp] theorem emitAll_prog (es : List Event) (s : State) : (emitAll es s).prog = s.prog := rfl
@[simp] theorem emitAll_bus (es : List Event) (s : State) : (emitAll es s).bus = s.bus.drop (transfers es) := rfl
@[simp] theorem emitAll_busRest (es : List Event) (s : State) : (emitAll es s).busRest = s.busRest := rfl
@[simp] theorem emitAll_host (es : List Event) (s : State) : (emitAll es s).host = s.host := rfl
@[simp] theorem emitAll_rstN (es : List Event) (s : State) : (emitAll es s).rstN = s.rstN := rfl
@[simp] theorem emitAll_pc (es : List Event) (s : State) : (emitAll es s).pc = s.pc := rfl
@[simp] theorem emitAll_pstate (es : List Event) (s : State) : (emitAll es s).pstate = s.pstate := rfl
@[simp] theorem emitAll_xferBusy (es : List Event) (s : State) : (emitAll es s).xferBusy = s.xferBusy := rfl
@[simp] theorem emitAll_inflight (es : List Event) (s : State) : (emitAll es s).inflight = s.inflight := rfl
@[simp] theorem emitAll_dcx (es : List Event) (s : State) : (emitAll es s).dcx = s.dcx := rfl
@[simp] theorem emitAll_resx (es : List Event) (s : State) : (emitAll es s).resx = s.resx := rfl
@[simp] theorem emitAll_winValid (es : List Event) (s : State) : (emitAll es s).winValid = s.winValid := rfl
@[simp] theorem emitAll_win (es : List Event) (s : State) : (emitAll es s).win = s.win := rfl
@[simp] theorem emitAll_streaming (es : List Event) (s : State) : (emitAll es s).streaming = s.streaming := rfl
@[simp] theorem emitAll_pxRemaining (es : List Event) (s : State) : (emitAll es s).pxRemaining = s.pxRemaining := rfl
@[simp] theorem emitAll_pixacc (es : List Event) (s : State) : (emitAll es s).pixacc = s.pixacc := rfl
@[simp] theorem emitAll_halted (es : List Event) (s : State) : (emitAll es s).halted = s.halted := rfl
@[simp] theorem emitAll_haltCause (es : List Event) (s : State) : (emitAll es s).haltCause = s.haltCause := rfl
@[simp] theorem emitAll_haltPc (es : List Event) (s : State) : (emitAll es s).haltPc = s.haltPc := rfl
@[simp] theorem emitAll_rasterBuf (es : List Event) (s : State) : (emitAll es s).rasterBuf = s.rasterBuf := rfl
@[simp] theorem emitAll_wire (es : List Event) (s : State) : (emitAll es s).wire = s.wire ++ es := rfl
@[simp] theorem emitAll_todo (es : List Event) (s : State) : (emitAll es s).todo = s.todo := rfl
@[simp] theorem emitAll_panel (es : List Event) (s : State) : (emitAll es s).panel = panelEvents s.cfg s.panel es := rfl

@[simp] theorem raiseHalt_cfg (k : Cause) (s : State) : (raiseHalt k s).cfg = s.cfg := rfl
@[simp] theorem raiseHalt_prog (k : Cause) (s : State) : (raiseHalt k s).prog = s.prog := rfl
@[simp] theorem raiseHalt_bus (k : Cause) (s : State) : (raiseHalt k s).bus = s.bus := rfl
@[simp] theorem raiseHalt_busRest (k : Cause) (s : State) : (raiseHalt k s).busRest = s.busRest := rfl
@[simp] theorem raiseHalt_toInputs (k : Cause) (s : State) : (raiseHalt k s).toInputs = s.toInputs := rfl
@[simp] theorem raiseHalt_host (k : Cause) (s : State) : (raiseHalt k s).host = s.host := rfl
@[simp] theorem raiseHalt_rstN (k : Cause) (s : State) : (raiseHalt k s).rstN = s.rstN := rfl
@[simp] theorem raiseHalt_pc (k : Cause) (s : State) : (raiseHalt k s).pc = s.pc := rfl
@[simp] theorem raiseHalt_pstate (k : Cause) (s : State) : (raiseHalt k s).pstate = s.pstate := rfl
@[simp] theorem raiseHalt_xferBusy (k : Cause) (s : State) : (raiseHalt k s).xferBusy = s.xferBusy := rfl
@[simp] theorem raiseHalt_inflight (k : Cause) (s : State) : (raiseHalt k s).inflight = s.inflight := rfl
@[simp] theorem raiseHalt_dcx (k : Cause) (s : State) : (raiseHalt k s).dcx = s.dcx := rfl
@[simp] theorem raiseHalt_resx (k : Cause) (s : State) : (raiseHalt k s).resx = s.resx := rfl
@[simp] theorem raiseHalt_winValid (k : Cause) (s : State) : (raiseHalt k s).winValid = s.winValid := rfl
@[simp] theorem raiseHalt_win (k : Cause) (s : State) : (raiseHalt k s).win = s.win := rfl
@[simp] theorem raiseHalt_streaming (k : Cause) (s : State) : (raiseHalt k s).streaming = s.streaming := rfl
@[simp] theorem raiseHalt_pxRemaining (k : Cause) (s : State) : (raiseHalt k s).pxRemaining = s.pxRemaining := rfl
@[simp] theorem raiseHalt_pixacc (k : Cause) (s : State) : (raiseHalt k s).pixacc = s.pixacc := rfl
@[simp] theorem raiseHalt_halted (k : Cause) (s : State) : (raiseHalt k s).halted = true := rfl
@[simp] theorem raiseHalt_haltCause (k : Cause) (s : State) : (raiseHalt k s).haltCause = k := rfl
@[simp] theorem raiseHalt_haltPc (k : Cause) (s : State) : (raiseHalt k s).haltPc = s.pc := rfl
@[simp] theorem raiseHalt_rasterBuf (k : Cause) (s : State) : (raiseHalt k s).rasterBuf = s.rasterBuf := rfl
@[simp] theorem raiseHalt_wire (k : Cause) (s : State) : (raiseHalt k s).wire = s.wire := rfl
@[simp] theorem raiseHalt_todo (k : Cause) (s : State) : (raiseHalt k s).todo = s.todo := rfl
@[simp] theorem raiseHalt_panel (k : Cause) (s : State) : (raiseHalt k s).panel = s.panel := rfl

@[simp] theorem busChosen_cfg (s : State) : (busChosen s).cfg = s.cfg := rfl
@[simp] theorem busChosen_prog (s : State) : (busChosen s).prog = s.prog := rfl
@[simp] theorem busChosen_bus (s : State) : (busChosen s).bus = s.bus.tail := rfl
@[simp] theorem busChosen_toInputs (s : State) : (busChosen s).toInputs = { s.toInputs with bus := s.bus.tail } := rfl
@[simp] theorem busChosen_busRest (s : State) : (busChosen s).busRest = s.busRest := rfl
@[simp] theorem busChosen_host (s : State) : (busChosen s).host = s.host := rfl
@[simp] theorem busChosen_rstN (s : State) : (busChosen s).rstN = s.rstN := rfl
@[simp] theorem busChosen_pc (s : State) : (busChosen s).pc = s.pc := rfl
@[simp] theorem busChosen_pstate (s : State) : (busChosen s).pstate = s.pstate := rfl
@[simp] theorem busChosen_xferBusy (s : State) : (busChosen s).xferBusy = s.xferBusy := rfl
@[simp] theorem busChosen_inflight (s : State) : (busChosen s).inflight = s.inflight := rfl
@[simp] theorem busChosen_dcx (s : State) : (busChosen s).dcx = s.dcx := rfl
@[simp] theorem busChosen_resx (s : State) : (busChosen s).resx = s.resx := rfl
@[simp] theorem busChosen_winValid (s : State) : (busChosen s).winValid = s.winValid := rfl
@[simp] theorem busChosen_win (s : State) : (busChosen s).win = s.win := rfl
@[simp] theorem busChosen_streaming (s : State) : (busChosen s).streaming = s.streaming := rfl
@[simp] theorem busChosen_pxRemaining (s : State) : (busChosen s).pxRemaining = s.pxRemaining := rfl
@[simp] theorem busChosen_pixacc (s : State) : (busChosen s).pixacc = s.pixacc := rfl
@[simp] theorem busChosen_halted (s : State) : (busChosen s).halted = s.halted := rfl
@[simp] theorem busChosen_haltCause (s : State) : (busChosen s).haltCause = s.haltCause := rfl
@[simp] theorem busChosen_haltPc (s : State) : (busChosen s).haltPc = s.haltPc := rfl
@[simp] theorem busChosen_rasterBuf (s : State) : (busChosen s).rasterBuf = s.rasterBuf := rfl
@[simp] theorem busChosen_wire (s : State) : (busChosen s).wire = s.wire := rfl
@[simp] theorem busChosen_todo (s : State) : (busChosen s).todo = s.todo := rfl
@[simp] theorem busChosen_panel (s : State) : (busChosen s).panel = s.panel := rfl

@[simp] theorem busPerform_cfg (t : InFlight) (s : State) : (busPerform t s).cfg = s.cfg := rfl
@[simp] theorem busPerform_prog (t : InFlight) (s : State) : (busPerform t s).prog = s.prog := rfl
@[simp] theorem busPerform_bus (t : InFlight) (s : State) : (busPerform t s).bus = s.bus := rfl
@[simp] theorem busPerform_busRest (t : InFlight) (s : State) : (busPerform t s).busRest = s.busRest := rfl
@[simp] theorem busPerform_toInputs (t : InFlight) (s : State) : (busPerform t s).toInputs = s.toInputs := rfl
@[simp] theorem busPerform_host (t : InFlight) (s : State) : (busPerform t s).host = s.host := rfl
@[simp] theorem busPerform_rstN (t : InFlight) (s : State) : (busPerform t s).rstN = s.rstN := rfl
@[simp] theorem busPerform_pc (t : InFlight) (s : State) : (busPerform t s).pc = s.pc := rfl
@[simp] theorem busPerform_pstate (t : InFlight) (s : State) : (busPerform t s).pstate = s.pstate := rfl
@[simp] theorem busPerform_xferBusy (t : InFlight) (s : State) : (busPerform t s).xferBusy = false := rfl
@[simp] theorem busPerform_inflight (t : InFlight) (s : State) : (busPerform t s).inflight = none := rfl
@[simp] theorem busPerform_dcx (t : InFlight) (s : State) : (busPerform t s).dcx = s.dcx := rfl
@[simp] theorem busPerform_resx (t : InFlight) (s : State) : (busPerform t s).resx = s.resx := rfl
@[simp] theorem busPerform_winValid (t : InFlight) (s : State) : (busPerform t s).winValid = s.winValid := rfl
@[simp] theorem busPerform_win (t : InFlight) (s : State) : (busPerform t s).win = s.win := rfl
@[simp] theorem busPerform_streaming (t : InFlight) (s : State) : (busPerform t s).streaming = s.streaming := rfl
@[simp] theorem busPerform_pxRemaining (t : InFlight) (s : State) : (busPerform t s).pxRemaining = s.pxRemaining := rfl
@[simp] theorem busPerform_pixacc (t : InFlight) (s : State) : (busPerform t s).pixacc = s.pixacc := rfl
@[simp] theorem busPerform_halted (t : InFlight) (s : State) : (busPerform t s).halted = s.halted := rfl
@[simp] theorem busPerform_haltCause (t : InFlight) (s : State) : (busPerform t s).haltCause = s.haltCause := rfl
@[simp] theorem busPerform_haltPc (t : InFlight) (s : State) : (busPerform t s).haltPc = s.haltPc := rfl
@[simp] theorem busPerform_rasterBuf (t : InFlight) (s : State) : (busPerform t s).rasterBuf = s.rasterBuf := rfl
@[simp] theorem busPerform_wire (t : InFlight) (s : State) : (busPerform t s).wire = s.wire ++ [.xfer t.dc t.bytes] := rfl
@[simp] theorem busPerform_todo (t : InFlight) (s : State) : (busPerform t s).todo = s.todo := rfl
@[simp] theorem busPerform_panel (t : InFlight) (s : State) : (busPerform t s).panel = panelEvent s.cfg s.panel (.xfer t.dc t.bytes) := rfl

@[simp] theorem beginReset_cfg (s : State) : (beginReset s).cfg = s.cfg := rfl
@[simp] theorem beginReset_prog (s : State) : (beginReset s).prog = s.prog := rfl
@[simp] theorem beginReset_bus (s : State) : (beginReset s).bus = s.bus := rfl
@[simp] theorem beginReset_busRest (s : State) : (beginReset s).busRest = s.busRest := rfl
@[simp] theorem beginReset_toInputs (s : State) : (beginReset s).toInputs = s.toInputs := rfl
@[simp] theorem beginReset_host (s : State) : (beginReset s).host = s.host := rfl
@[simp] theorem beginReset_rstN (s : State) : (beginReset s).rstN = s.rstN := rfl
@[simp] theorem beginReset_pc (s : State) : (beginReset s).pc = s.pc := rfl
@[simp] theorem beginReset_pstate (s : State) : (beginReset s).pstate = .uninitialized := rfl
@[simp] theorem beginReset_xferBusy (s : State) : (beginReset s).xferBusy = s.xferBusy := rfl
@[simp] theorem beginReset_inflight (s : State) : (beginReset s).inflight = s.inflight := rfl
@[simp] theorem beginReset_dcx (s : State) : (beginReset s).dcx = s.dcx := rfl
@[simp] theorem beginReset_resx (s : State) : (beginReset s).resx = s.resx := rfl
@[simp] theorem beginReset_winValid (s : State) : (beginReset s).winValid = false := rfl
@[simp] theorem beginReset_win (s : State) : (beginReset s).win = s.win := rfl
@[simp] theorem beginReset_streaming (s : State) : (beginReset s).streaming = false := rfl
@[simp] theorem beginReset_pxRemaining (s : State) : (beginReset s).pxRemaining = 0 := rfl
@[simp] theorem beginReset_pixacc (s : State) : (beginReset s).pixacc = s.pixacc := rfl
@[simp] theorem beginReset_halted (s : State) : (beginReset s).halted = s.halted := rfl
@[simp] theorem beginReset_haltCause (s : State) : (beginReset s).haltCause = s.haltCause := rfl
@[simp] theorem beginReset_haltPc (s : State) : (beginReset s).haltPc = s.haltPc := rfl
@[simp] theorem beginReset_rasterBuf (s : State) : (beginReset s).rasterBuf = s.rasterBuf := rfl
@[simp] theorem beginReset_wire (s : State) : (beginReset s).wire = s.wire := rfl
@[simp] theorem beginReset_todo (s : State) : (beginReset s).todo = s.todo := rfl
@[simp] theorem beginReset_panel (s : State) : (beginReset s).panel = s.panel := rfl

@[simp] theorem openStream_cfg (s : State) : (openStream s).cfg = s.cfg := rfl
@[simp] theorem openStream_prog (s : State) : (openStream s).prog = s.prog := rfl
@[simp] theorem openStream_bus (s : State) : (openStream s).bus = s.bus := rfl
@[simp] theorem openStream_busRest (s : State) : (openStream s).busRest = s.busRest := rfl
@[simp] theorem openStream_toInputs (s : State) : (openStream s).toInputs = s.toInputs := rfl
@[simp] theorem openStream_host (s : State) : (openStream s).host = s.host := rfl
@[simp] theorem openStream_rstN (s : State) : (openStream s).rstN = s.rstN := rfl
@[simp] theorem openStream_pc (s : State) : (openStream s).pc = s.pc := rfl
@[simp] theorem openStream_pstate (s : State) : (openStream s).pstate = s.pstate := rfl
@[simp] theorem openStream_xferBusy (s : State) : (openStream s).xferBusy = s.xferBusy := rfl
@[simp] theorem openStream_inflight (s : State) : (openStream s).inflight = s.inflight := rfl
@[simp] theorem openStream_dcx (s : State) : (openStream s).dcx = s.dcx := rfl
@[simp] theorem openStream_resx (s : State) : (openStream s).resx = s.resx := rfl
@[simp] theorem openStream_winValid (s : State) : (openStream s).winValid = s.winValid := rfl
@[simp] theorem openStream_win (s : State) : (openStream s).win = s.win := rfl
@[simp] theorem openStream_streaming (s : State) : (openStream s).streaming = true := rfl
@[simp] theorem openStream_pxRemaining (s : State) : (openStream s).pxRemaining = s.win.count := rfl
@[simp] theorem openStream_pixacc (s : State) : (openStream s).pixacc = s.pixacc := rfl
@[simp] theorem openStream_halted (s : State) : (openStream s).halted = s.halted := rfl
@[simp] theorem openStream_haltCause (s : State) : (openStream s).haltCause = s.haltCause := rfl
@[simp] theorem openStream_haltPc (s : State) : (openStream s).haltPc = s.haltPc := rfl
@[simp] theorem openStream_rasterBuf (s : State) : (openStream s).rasterBuf = s.rasterBuf := rfl
@[simp] theorem openStream_wire (s : State) : (openStream s).wire = s.wire := rfl
@[simp] theorem openStream_todo (s : State) : (openStream s).todo = s.todo := rfl
@[simp] theorem openStream_panel (s : State) : (openStream s).panel = s.panel := rfl

@[simp] theorem countPixel_cfg (s : State) : (countPixel s).cfg = s.cfg := rfl
@[simp] theorem countPixel_prog (s : State) : (countPixel s).prog = s.prog := rfl
@[simp] theorem countPixel_bus (s : State) : (countPixel s).bus = s.bus := rfl
@[simp] theorem countPixel_busRest (s : State) : (countPixel s).busRest = s.busRest := rfl
@[simp] theorem countPixel_toInputs (s : State) : (countPixel s).toInputs = s.toInputs := rfl
@[simp] theorem countPixel_host (s : State) : (countPixel s).host = s.host := rfl
@[simp] theorem countPixel_rstN (s : State) : (countPixel s).rstN = s.rstN := rfl
@[simp] theorem countPixel_pc (s : State) : (countPixel s).pc = s.pc := rfl
@[simp] theorem countPixel_pstate (s : State) : (countPixel s).pstate = s.pstate := rfl
@[simp] theorem countPixel_xferBusy (s : State) : (countPixel s).xferBusy = s.xferBusy := rfl
@[simp] theorem countPixel_inflight (s : State) : (countPixel s).inflight = s.inflight := rfl
@[simp] theorem countPixel_dcx (s : State) : (countPixel s).dcx = s.dcx := rfl
@[simp] theorem countPixel_resx (s : State) : (countPixel s).resx = s.resx := rfl
@[simp] theorem countPixel_winValid (s : State) : (countPixel s).winValid = s.winValid := rfl
@[simp] theorem countPixel_win (s : State) : (countPixel s).win = s.win := rfl
@[simp] theorem countPixel_streaming (s : State) : (countPixel s).streaming = (s.streaming && decide (s.pxRemaining.toNat - 1 ≠ 0)) := rfl
@[simp] theorem countPixel_pxRemaining (s : State) : (countPixel s).pxRemaining = BitVec.ofNat 17 (s.pxRemaining.toNat - 1) := rfl
@[simp] theorem countPixel_pixacc (s : State) : (countPixel s).pixacc = s.pixacc := rfl
@[simp] theorem countPixel_halted (s : State) : (countPixel s).halted = s.halted := rfl
@[simp] theorem countPixel_haltCause (s : State) : (countPixel s).haltCause = s.haltCause := rfl
@[simp] theorem countPixel_haltPc (s : State) : (countPixel s).haltPc = s.haltPc := rfl
@[simp] theorem countPixel_rasterBuf (s : State) : (countPixel s).rasterBuf = s.rasterBuf := rfl
@[simp] theorem countPixel_wire (s : State) : (countPixel s).wire = s.wire := rfl
@[simp] theorem countPixel_todo (s : State) : (countPixel s).todo = s.todo := rfl
@[simp] theorem countPixel_panel (s : State) : (countPixel s).panel = s.panel := rfl

@[simp] theorem painted_cfg (x y w h : Nat) (s : State) : (painted x y w h s).cfg = s.cfg := rfl
@[simp] theorem painted_prog (x y w h : Nat) (s : State) : (painted x y w h s).prog = s.prog := rfl
@[simp] theorem painted_bus (x y w h : Nat) (s : State) : (painted x y w h s).bus = s.bus := rfl
@[simp] theorem painted_busRest (x y w h : Nat) (s : State) : (painted x y w h s).busRest = s.busRest := rfl
@[simp] theorem painted_toInputs (x y w h : Nat) (s : State) : (painted x y w h s).toInputs = s.toInputs := rfl
@[simp] theorem painted_host (x y w h : Nat) (s : State) : (painted x y w h s).host = s.host := rfl
@[simp] theorem painted_rstN (x y w h : Nat) (s : State) : (painted x y w h s).rstN = s.rstN := rfl
@[simp] theorem painted_pc (x y w h : Nat) (s : State) : (painted x y w h s).pc = s.pc := rfl
@[simp] theorem painted_pstate (x y w h : Nat) (s : State) : (painted x y w h s).pstate = s.pstate := rfl
@[simp] theorem painted_xferBusy (x y w h : Nat) (s : State) : (painted x y w h s).xferBusy = s.xferBusy := rfl
@[simp] theorem painted_inflight (x y w h : Nat) (s : State) : (painted x y w h s).inflight = s.inflight := rfl
@[simp] theorem painted_dcx (x y w h : Nat) (s : State) : (painted x y w h s).dcx = true := rfl
@[simp] theorem painted_resx (x y w h : Nat) (s : State) : (painted x y w h s).resx = s.resx := rfl
@[simp] theorem painted_winValid (x y w h : Nat) (s : State) : (painted x y w h s).winValid = true := rfl
@[simp] theorem painted_win (x y w h : Nat) (s : State) : (painted x y w h s).win = windowOf x y w h := rfl
@[simp] theorem painted_streaming (x y w h : Nat) (s : State) : (painted x y w h s).streaming = false := rfl
@[simp] theorem painted_pxRemaining (x y w h : Nat) (s : State) : (painted x y w h s).pxRemaining = 0 := rfl
@[simp] theorem painted_pixacc (x y w h : Nat) (s : State) : (painted x y w h s).pixacc = s.pixacc := rfl
@[simp] theorem painted_halted (x y w h : Nat) (s : State) : (painted x y w h s).halted = s.halted := rfl
@[simp] theorem painted_haltCause (x y w h : Nat) (s : State) : (painted x y w h s).haltCause = s.haltCause := rfl
@[simp] theorem painted_haltPc (x y w h : Nat) (s : State) : (painted x y w h s).haltPc = s.haltPc := rfl
@[simp] theorem painted_rasterBuf (x y w h : Nat) (s : State) : (painted x y w h s).rasterBuf = s.rasterBuf := rfl
@[simp] theorem painted_wire (x y w h : Nat) (s : State) : (painted x y w h s).wire = s.wire := rfl
@[simp] theorem painted_todo (x y w h : Nat) (s : State) : (painted x y w h s).todo = s.todo := rfl
@[simp] theorem painted_panel (x y w h : Nat) (s : State) : (painted x y w h s).panel = s.panel := rfl

@[simp] theorem hostIdle_cfg (s : State) : (hostIdle s).cfg = s.cfg := rfl
@[simp] theorem hostIdle_prog (s : State) : (hostIdle s).prog = s.prog := rfl
@[simp] theorem hostIdle_bus (s : State) : (hostIdle s).bus = s.bus := rfl
@[simp] theorem hostIdle_busRest (s : State) : (hostIdle s).busRest = s.busRest := rfl
@[simp] theorem hostIdle_host (s : State) : (hostIdle s).host = s.host.tail := rfl
@[simp] theorem hostIdle_rstN (s : State) : (hostIdle s).rstN = s.rstN := rfl
@[simp] theorem hostIdle_pc (s : State) : (hostIdle s).pc = s.pc := rfl
@[simp] theorem hostIdle_pstate (s : State) : (hostIdle s).pstate = s.pstate := rfl
@[simp] theorem hostIdle_xferBusy (s : State) : (hostIdle s).xferBusy = s.xferBusy := rfl
@[simp] theorem hostIdle_inflight (s : State) : (hostIdle s).inflight = s.inflight := rfl
@[simp] theorem hostIdle_dcx (s : State) : (hostIdle s).dcx = s.dcx := rfl
@[simp] theorem hostIdle_resx (s : State) : (hostIdle s).resx = s.resx := rfl
@[simp] theorem hostIdle_winValid (s : State) : (hostIdle s).winValid = s.winValid := rfl
@[simp] theorem hostIdle_win (s : State) : (hostIdle s).win = s.win := rfl
@[simp] theorem hostIdle_streaming (s : State) : (hostIdle s).streaming = s.streaming := rfl
@[simp] theorem hostIdle_pxRemaining (s : State) : (hostIdle s).pxRemaining = s.pxRemaining := rfl
@[simp] theorem hostIdle_pixacc (s : State) : (hostIdle s).pixacc = s.pixacc := rfl
@[simp] theorem hostIdle_halted (s : State) : (hostIdle s).halted = s.halted := rfl
@[simp] theorem hostIdle_haltCause (s : State) : (hostIdle s).haltCause = s.haltCause := rfl
@[simp] theorem hostIdle_haltPc (s : State) : (hostIdle s).haltPc = s.haltPc := rfl
@[simp] theorem hostIdle_rasterBuf (s : State) : (hostIdle s).rasterBuf = s.rasterBuf := rfl
@[simp] theorem hostIdle_wire (s : State) : (hostIdle s).wire = s.wire := rfl
@[simp] theorem hostIdle_todo (s : State) : (hostIdle s).todo = s.todo := rfl
@[simp] theorem hostIdle_panel (s : State) : (hostIdle s).panel = s.panel := rfl

end Sys2Proof.Machine
end

