-- ==== Sys2Proof/Laws/Run.lean ====
section
/-! SUPPORT. Laws/Run.lean: what a list of SEQ's actions does when BUS performs every transfer, as a relation that composes
(`Runs`), and where a failing check leaves the machine (`Stops`). -/

namespace Sys2Proof.Machine

/-- SEQ can act and every transfer will be performed. -/
structure Live (s : State) : Prop where
  halted : s.halted = false
  busy : s.xferBusy = false
  idle : s.inflight = none
  bus : Performs s

/-- The actions `ms` take `s` to `t`, whatever follows them. -/
def Runs (ms : List Micro) (s t : State) : Prop := ∀ ks, runSeq (ms ++ ks) s = runSeq ks t

/-- The actions `ms` end at `t` in a halt, whatever follows them. -/
def Stops (ms : List Micro) (s t : State) : Prop := ∀ ks, runSeq (ms ++ ks) s = { t with todo := [] }

theorem Runs.of_eq {a b : List Micro} {s t u : State} (h : Runs a s t) (hm : a = b) (ht : t = u) : Runs b s u := by
  subst hm ht; exact h

theorem Stops.of_eq {a b : List Micro} {s t u : State} (h : Stops a s t) (hm : a = b) (ht : t = u) : Stops b s u := by
  subst hm ht; exact h

theorem Runs.nil (s : State) : Runs [] s s := fun _ => rfl

theorem Runs.append {a b : List Micro} {s t u : State} (h : Runs a s t) (k : Runs b t u) : Runs (a ++ b) s u := fun ks => by
  rw [List.append_assoc, h, k]

theorem Runs.cons {m : Micro} {b : List Micro} {s t u : State} (h : Runs [m] s t) (k : Runs b t u) : Runs (m :: b) s u :=
  Runs.append (a := [m]) h k

theorem Runs.stops {a b : List Micro} {s t u : State} (h : Runs a s t) (k : Stops b t u) : Stops (a ++ b) s u := fun ks => by
  rw [List.append_assoc, h, k]

theorem Runs.stops_cons {m : Micro} {b : List Micro} {s t u : State} (h : Runs [m] s t) (k : Stops b t u) :
    Stops (m :: b) s u :=
  Runs.stops (a := [m]) h k

theorem Stops.append {a : List Micro} {s t : State} (h : Stops a s t) (b : List Micro) : Stops (a ++ b) s t := fun ks => by
  rw [List.append_assoc, h]

/-- An action that issues nothing and does not halt. -/
theorem Runs.silent {m : Micro} {s t : State} (h : seqMicro m s = t) (hh : t.halted = false) (hb : t.xferBusy = false) :
    Runs [m] s t := fun ks => by
  simp [runSeq, actMicro, h, hh, hb]

/-- Nothing is in flight and no halt has been entered. -/
structure Quiet (s : State) : Prop where
  halted : s.halted = false
  busy : s.xferBusy = false

theorem Live.quiet {s : State} (l : Live s) : Quiet s := ⟨l.halted, l.busy⟩

/-- A check that passes changes nothing, whatever BUS does. -/
theorem Runs.test {k : Check} {s : State} (l : Quiet s) (h : k.passes s = true) : Runs [.require k] s s :=
  Runs.silent (by simp [seqMicro, h]) l.halted l.busy

theorem Runs.check {k : Check} {s : State} (l : Live s) (h : k.passes s = true) : Runs [.require k] s s :=
  Runs.test l.quiet h

/-- A check that fails halts with its cause (60_exceptions.md R176). -/
theorem Stops.check {k : Check} {s : State} (h : k.passes s = false) :
    Stops [.require k] s (raiseHalt k.cause s) := fun ks => by
  simp [runSeq, actMicro, seqMicro, h]

theorem emitAll_nil (s : State) : emitAll [] s = s := by
  simp [emitAll, panelEvents, transfers]

theorem transfers_append (a b : List Event) : transfers (a ++ b) = transfers a + transfers b := by
  induction a with
  | nil => simp [transfers]
  | cons e a ih => cases e <;> simp [transfers, ih] <;> omega

theorem emitAll_emitAll (a b : List Event) (s : State) : emitAll b (emitAll a s) = emitAll (a ++ b) s := by
  simp [emitAll, panelEvents, transfers_append, List.drop_drop]

/-- A BUS that performs every transfer performs the next. -/
theorem Performs.next {s : State} (h : Performs s) : s.busNext = .perform := by
  unfold State.busNext
  cases hb : s.bus with
  | nil => exact h.2
  | cons b bs => exact h.1 b (by simp [hb])

/-- The issue of a non-empty list (40_transfer.md R101). -/
theorem issue_of_ne {bytes : List Byte} (h : bytes ≠ []) (s : State) :
    issue bytes s = { s with xferBusy := true, inflight := some ⟨s.dcx, bytes⟩ } := by
  simp [issue, h]

/-- An action that issues a transfer, and BUS's step on it. -/
theorem actMicro_issue {m : Micro} {bytes : List Byte} {s : State} (hm : seqMicro m s = issue bytes s) (hb : bytes ≠ [])
    (hh : s.halted = false) :
    actMicro m s = busStep { s with xferBusy := true, inflight := some ⟨s.dcx, bytes⟩ } := by
  simp [actMicro, hm, issue_of_ne hb, hh]

/-- BUS's step on a transfer in flight, by its next choice. -/
theorem busStep_perform {s : State} {t : InFlight} (hi : s.inflight = some t) (h : s.busNext = .perform) :
    busStep s = busPerform t (busChosen s) := by simp [busStep, hi, h]

theorem busStep_fault {s : State} {t : InFlight} {k : Nat} (hi : s.inflight = some t) (h : s.busNext = .fault k) :
    busStep s = busFault t k (busChosen s) := by simp [busStep, hi, h]

theorem busStep_stall {s : State} {t : InFlight} (hi : s.inflight = some t) (h : s.busNext = .stall) :
    busStep s = busChosen s := by simp [busStep, hi, h]

/-- Everything BUS's step can be. -/
theorem busStep_cases (s : State) : (s.inflight = none ∧ busStep s = s) ∨
    ∃ t, s.inflight = some t ∧ (busStep s = busPerform t (busChosen s) ∨ (∃ k, busStep s = busFault t k (busChosen s)) ∨
      busStep s = busChosen s) := by
  rcases hi : s.inflight with _ | t
  · exact .inl ⟨rfl, by simp [busStep, hi]⟩
  · refine .inr ⟨t, rfl, ?_⟩
    rcases hn : s.busNext with _ | k | _
    · exact .inl (busStep_perform hi hn)
    · exact .inr (.inl ⟨k, busStep_fault hi hn⟩)
    · exact .inr (.inr (busStep_stall hi hn))

/-- A performed transfer (40_transfer.md R109). -/
theorem Runs.xfer {m : Micro} {bytes : List Byte} {s : State} (l : Live s) (hm : seqMicro m s = issue bytes s)
    (hb : bytes ≠ []) : Runs [m] s (emitAll [.xfer s.dcx bytes] s) := by
  intro ks
  obtain ⟨h1, h2, h3, h4⟩ := l
  have hact : actMicro m s = emitAll [.xfer s.dcx bytes] s := by
    rw [actMicro_issue hm hb h1,
      busStep_perform (s := { s with xferBusy := true, inflight := some ⟨s.dcx, bytes⟩ }) (t := ⟨s.dcx, bytes⟩) rfl h4.next]
    apply State.ext <;> simp [panelEvents, transfers, h2, h3]
  simp [runSeq, hact, h1, h2]

/-- Updating a list of transfers keeps SEQ live. -/
theorem Live.emitAll {s : State} (l : Live s) (es : List Event) : Live (emitAll es s) where
  halted := l.halted
  busy := l.busy
  idle := l.idle
  bus := ⟨fun b hb => l.bus.1 b (List.mem_of_mem_drop hb), l.bus.2⟩

/-- What follows nothing: the operation ends. -/
theorem Runs.run {ms : List Micro} {s t : State} (h : Runs ms s t) : runSeq ms s = { t with todo := [] } := by
  have := h []
  simpa [runSeq] using this

theorem Stops.run {ms : List Micro} {s t : State} (h : Stops ms s t) : runSeq ms s = { t with todo := [] } := by
  simpa using h []

theorem Live.of_idle {s : State} (h : Idle s) (p : Performs s) : Live s := ⟨h.2.1, h.2.2.1, h.2.2.2.1, p⟩

theorem perform_idle {ms : List Micro} {s : State} (h : Idle s) : perform ms s = .next (runSeq ms s) := by
  obtain ⟨-, h2, h3, -, h5⟩ := h
  simp [perform, h2, h3, h5]

/-! ## Counting pixels (41_panel_protocol.md R116) -/

theorem countPixel_px (s : State) : (countPixel s).pxRemaining.toNat = s.pxRemaining.toNat - 1 := by
  have := s.pxRemaining.isLt
  simp only [countPixel, BitVec.toNat_ofNat]
  omega

theorem countPixel_open (s : State) : (countPixel s).streaming = (s.streaming && decide (1 < s.pxRemaining.toNat)) := by
  have : decide (s.pxRemaining.toNat - 1 ≠ 0) = decide (1 < s.pxRemaining.toNat) := by
    rw [decide_eq_decide]; omega
  simp only [countPixel, this]

end Sys2Proof.Machine
end

