-- ==== Sys2Proof/Laws/Bodies.lean ====
section
/-! SUPPORT. Laws/Bodies.lean: what each procedure of the protocol does when BUS performs every transfer: one lemma per
body, which the operations' results cite. -/

namespace Sys2Proof.Machine

/-- Data level on the select line. -/
abbrev dataLevel (s : State) : State := { s with dcx := true }

theorem Live.with_dcx {s : State} (l : Live s) (b : Bool) : Live { s with dcx := b } := ⟨l.1, l.2, l.3, l.4⟩

/-- The actions `ms` put the trace `tr` on the wire and leave the select line at the data level; no other register moves. -/
def Sends (ms : List Micro) (tr : List Event) : Prop := ∀ s, Live s → Runs ms s (dataLevel (emitAll tr s))

theorem Sends.append {a b : List Micro} {ta tb : List Event} (ha : Sends a ta) (hb : Sends b tb) :
    Sends (a ++ b) (ta ++ tb) := fun s l => by
  have := (ha s l).append (hb _ ((l.emitAll ta).with_dcx true))
  rwa [show dataLevel (emitAll tb (dataLevel (emitAll ta s))) = dataLevel (emitAll tb (emitAll ta s)) from rfl,
    emitAll_emitAll] at this

/-- `send_command` (41_panel_protocol.md R112). -/
theorem sends_command (b : Byte) : Sends (sendCommandBody b) (cmdTrace b) := fun s l =>
  Runs.cons (t := { s with dcx := false }) (Runs.silent rfl l.halted l.busy)
    (Runs.cons (Runs.xfer (l.with_dcx false) rfl (by simp)) (Runs.silent rfl l.halted l.busy))

/-- `send_data` (41_panel_protocol.md R113). -/
theorem sends_data (b : Byte) : Sends (sendDataBody b) (datTrace b) := fun s l =>
  Runs.cons (t := { s with dcx := true }) (Runs.silent rfl l.halted l.busy)
    (Runs.xfer (l.with_dcx true) rfl (by simp))

theorem sends_axis (c : Cfg) (cmd : Byte) (start len : Nat) : Sends (axisBody c cmd start len) (axisTrace c cmd start len) :=
  ((((sends_command _).append (sends_data _)).append (sends_data _)).append (sends_data _)).append (sends_data _)

theorem sends_window (c : Cfg) (x y w h : Nat) :
    Sends (axisBody c c.cmdCaset x w ++ axisBody c c.cmdRaset y h) (winTrace c x y w h) :=
  (sends_axis _ _ _ _).append (sends_axis _ _ _ _)

/-- The state after `set_draw_window` (41_panel_protocol.md R114); `s` is the state after its trace. -/
abbrev windowSet (x y w h : Nat) (s : State) : State :=
  { s with win := windowOf x y w h, winValid := true, dcx := true }

/-- `set_draw_window` on a window that fits (41_panel_protocol.md R114). -/
theorem runs_window {c : Cfg} {x y w h : Nat} {s : State} (l : Live s) (hc : s.cfg = c) (ok : WindowOk c x y w h) :
    Runs (setDrawWindowBody c x y w h) s (windowSet x y w h (emitAll (winTrace c x y w h) s)) := by
  have h1 : Runs [.require (.windowFits x y w h), .invalidateWindow] s { s with winValid := false } :=
    Runs.cons (Runs.check l (by simp [Check.passes, hc, ok])) (Runs.silent rfl l.halted l.busy)
  have l2 : Live { s with winValid := false } := ⟨l.1, l.2, l.3, l.4⟩
  have h2 := h1.append (sends_window c x y w h _ l2)
  have h3 := h2.append (Runs.silent (m := .loadWindow x y w h) rfl l.halted l.busy)
  exact h3.of_eq (by simp [setDrawWindowBody]) rfl

/-- `set_draw_window` on a window that does not fit (20_memory.md R43). -/
theorem stops_window {c : Cfg} {x y w h : Nat} {s : State} (hc : s.cfg = c) (ok : ¬ WindowOk c x y w h) :
    Stops (setDrawWindowBody c x y w h) s (raiseHalt .windowInvalid s) := by
  have := Stops.check (k := .windowFits x y w h) (s := s) (by simpa [Check.passes, hc] using ok)
  exact (this.append
    (.invalidateWindow :: (axisBody c c.cmdCaset x w ++ axisBody c c.cmdRaset y h ++ [.loadWindow x y w h]))).of_eq
      (by simp [setDrawWindowBody]) rfl

/-- `begin_pixel_write` (41_panel_protocol.md R115). -/
theorem runs_begin {c : Cfg} {s : State} (l : Live s) (hv : s.winValid = true) :
    Runs (beginPixelWriteBody c) s
      { emitAll (cmdTrace c.cmdRamwr) s with dcx := true, pxRemaining := s.win.count, streaming := true } :=
  Runs.cons (Runs.check l (by simp [Check.passes, hv]))
    ((sends_command _ s l).append (Runs.silent (m := .openStream) rfl l.halted l.busy))

/-- One pixel of a stream: the check, the transfer `m` issues, the count (41_panel_protocol.md R116). -/
theorem runs_pixel {m : Micro} {p : Pixel} {s : State} (l : Live s) (hd : s.dcx = true) (hs : s.streaming = true)
    (hm : seqMicro m s = issue (pixelBytes p) s) :
    Runs [.require .streaming, m, .countPixel] s (countPixel (emitAll (pixTrace p) s)) := by
  have hx : Runs [m] s (emitAll (pixTrace p) s) := by
    have := Runs.xfer l hm (by simp [pixelBytes])
    rwa [hd] at this
  exact Runs.cons (Runs.check l (by simp [Check.passes, hs]))
    (hx.cons (Runs.silent rfl l.halted l.busy))

/-- The pixels of a stream to its end: the loop of `fill` and of `draw_character`. `m i` issues the pixel `px i` as long as
RASTER_BUF is `buf`. -/
theorem runs_pixels {ι : Type} (m : ι → Micro) (px : ι → Pixel) (buf : List Pixel) (is : List ι)
    (hm : ∀ i ∈ is, ∀ s : State, s.rasterBuf = buf → seqMicro (m i) s = issue (pixelBytes (px i)) s) :
    ∀ s : State, Live s → s.dcx = true → s.rasterBuf = buf → is.length < 2 ^ 17 →
      s.pxRemaining = BitVec.ofNat 17 is.length → s.streaming = decide (0 < is.length) →
      Runs (is.flatMap fun i => [.require .streaming, m i, .countPixel]) s
        { emitAll ((is.map px).flatMap pixTrace) s with pxRemaining := 0, streaming := false } := by
  induction is with
  | nil =>
    intro s l hd hb hl hp hs
    have : { emitAll (([] : List ι).map px |>.flatMap pixTrace) s with pxRemaining := 0, streaming := false } = s := by
      apply State.ext <;> simp [hp, hs, panelEvents, transfers]
    rw [this]
    exact Runs.nil s
  | cons i is ih =>
    intro s l hd hb hl hp hs
    have hlen : is.length < 2 ^ 17 := by simp at hl; omega
    have h1 := runs_pixel l hd (by simpa using hs) (hm i (by simp) s hb)
    have hpx : s.pxRemaining.toNat - 1 = is.length := by
      rw [hp, BitVec.toNat_ofNat, Nat.mod_eq_of_lt hl]
      simp
    have h2 := ih (fun j hj => hm j (by simp [hj])) (countPixel (emitAll (pixTrace (px i)) s))
      ⟨l.1, l.2, l.3, (l.emitAll _).4⟩ hd hb hlen (by simp [hpx])
      (by simp [hpx, hs, Nat.pos_iff_ne_zero])
    have h3 := h1.append h2
    simp only [List.flatMap_cons, List.map_cons]
    rw [show ∀ t : State, ({ emitAll ((is.map px).flatMap pixTrace) (countPixel t) with
        pxRemaining := 0, streaming := false } : State)
      = { emitAll ((is.map px).flatMap pixTrace) t with pxRemaining := 0, streaming := false } from fun t => rfl,
      emitAll_emitAll] at h3
    exact h3

theorem fill_eq_flatMap (n : Nat) (color : Pixel) :
    (List.replicate n (writePixelBody color)).flatten =
      (List.range n).flatMap fun _ => [.require .streaming, .transfer (pixelBytes color), .countPixel] := by
  induction n with
  | zero => rfl
  | succ n ih =>
    rw [List.range_succ, List.flatMap_append, ← ih, List.replicate_succ', List.flatten_append]
    simp [writePixelBody]

/-- A window that fits has a pixel count the 17-bit registers hold. -/
theorem WindowOk.count_lt {c : Cfg} {x y w h : Nat} (wf : c.WellFormed) (ok : WindowOk c x y w h) : w * h < 2 ^ 17 := by
  obtain ⟨⟨-, h1⟩, ⟨-, h2⟩, -⟩ := wf
  obtain ⟨-, -, h3, h4⟩ := ok
  simp only [Cfg.usableCols, Cfg.usableRows] at h3 h4
  have hw : w ≤ 256 := by omega
  have hh : h ≤ 256 := by omega
  calc w * h ≤ 256 * 256 := Nat.mul_le_mul hw hh
    _ < 2 ^ 17 := by norm_num

/-- Opening a stream on the window just programmed and filling it: the end of every drawing procedure. -/
theorem runs_stream {ι : Type} {c : Cfg} {x y w h : Nat} (m : ι → Micro) (px : ι → Pixel) (is : List ι) {s : State}
    (hm : ∀ i ∈ is, ∀ t : State, t.rasterBuf = s.rasterBuf → seqMicro (m i) t = issue (pixelBytes (px i)) t)
    (l : Live s) (wf : c.WellFormed) (ok : WindowOk c x y w h) (hn : is.length = w * h) :
    Runs (beginPixelWriteBody c ++ is.flatMap fun i => [.require .streaming, m i, .countPixel])
      (windowSet x y w h s) (painted x y w h (emitAll (streamTrace c (is.map px)) s)) := by
  have lw : Live (windowSet x y w h s) := ⟨l.1, l.2, l.3, l.4⟩
  have h1 := runs_begin (c := c) lw rfl
  have hlt := ok.count_lt wf
  have hpos : 0 < is.length := by rw [hn]; exact Nat.mul_pos ok.1 ok.2.1
  have h2 := runs_pixels m px s.rasterBuf is hm
    { emitAll (cmdTrace c.cmdRamwr) (windowSet x y w h s) with
      dcx := true, pxRemaining := (windowSet x y w h s).win.count, streaming := true }
    ⟨l.1, l.2, l.3, (l.emitAll _).4⟩ rfl rfl (hn ▸ hlt)
    (by simp [windowOf, hn]) (by simp [hpos])
  have h3 := h1.append h2
  have e : ({ emitAll ((is.map px).flatMap pixTrace) { emitAll (cmdTrace c.cmdRamwr) (windowSet x y w h s) with
        dcx := true, pxRemaining := (windowSet x y w h s).win.count, streaming := true } with
      pxRemaining := 0, streaming := false } : State)
      = painted x y w h (emitAll ((is.map px).flatMap pixTrace) (emitAll (cmdTrace c.cmdRamwr) s)) := rfl
  rw [e, emitAll_emitAll] at h3
  exact h3

/-- `set_draw_window` then `fill` (44_line_primitive.md R151, R152). -/
theorem runs_fill {c : Cfg} {x y w h n : Nat} {color : Pixel} {s : State} (l : Live s) (hc : s.cfg = c)
    (wf : c.WellFormed) (ok : WindowOk c x y w h) (hn : n = w * h) :
    Runs (setDrawWindowBody c x y w h ++ fillBody c n color) s
      (painted x y w h (emitAll (paintTrace c x y w h (List.replicate n color)) s)) := by
  have h1 := runs_window l hc ok
  have h2 := runs_stream (c := c) (x := x) (y := y) (w := w) (h := h) (fun _ => .transfer (pixelBytes color))
    (fun _ => color) (List.range n) (s := emitAll (winTrace c x y w h) s) (fun _ _ _ _ => rfl) (l.emitAll _) wf ok
    (by simp [hn])
  have h3 := h1.append h2
  rw [emitAll_emitAll] at h3
  exact h3.of_eq (by simp [fillBody, fill_eq_flatMap]) (by simp [paintTrace])

/-! ## Characters and strings -/

theorem charHalt_none {c : Cfg} {x y : Nat} {code : Byte} {scale : Nat} :
    charHalt c x y code scale = none ↔ 1 ≤ scale ∧ c.InFont code ∧ WindowOk c x y (8 * scale) (8 * scale) := by
  unfold charHalt
  by_cases h1 : scale < 1
  · simp only [h1, if_true, reduceCtorEq, false_iff]; omega
  · have h1' : 1 ≤ scale := by omega
    rw [if_neg h1]
    by_cases h2 : c.InFont code
    · rw [if_neg (not_not.mpr h2)]
      by_cases h3 : WindowOk c x y (8 * scale) (8 * scale)
      · rw [if_neg (not_not.mpr h3)]
        exact ⟨fun _ => ⟨h1', h2, h3⟩, fun _ => rfl⟩
      · rw [if_pos h3]
        exact ⟨fun h => (nomatch h), fun h => absurd h.2.2 h3⟩
    · rw [if_pos h2]
      exact ⟨fun h => (nomatch h), fun h => absurd h.2.1 h2⟩

/-- The state after `draw_character` (43_glyph_rasterizer.md R141); `s` is the state after its trace. -/
abbrev charDrawn (x y scale : Nat) (s : State) : State :=
  { painted x y (8 * scale) (8 * scale) s with rasterBuf := [] }

/-- What `overwrite` puts in the buffer is what is read back from it. -/
theorem overwrite_getD {px : List Pixel} {i : Nat} (h : i < px.length) (buf : List Pixel) (d : Pixel) :
    (overwrite px buf).getD i d = px.getD i d := by
  exact List.getD_append _ _ _ _ h

/-- `draw_character` with every check passed (43_glyph_rasterizer.md R141). -/
theorem runs_character {c : Cfg} {x y : Nat} {code : Byte} {color : Pixel} {scale : Nat} {s : State} (l : Live s)
    (hc : s.cfg = c) (wf : c.WellFormed) (ok : charHalt c x y code scale = none) :
    Runs (drawCharacterBody c x y code color scale) s (charDrawn x y scale (emitAll (charTrace c x y code color scale) s)) := by
  obtain ⟨h1, h2, h3⟩ := charHalt_none.mp ok
  have k1 : Runs [.require (.scale scale), .require (.charCode code)] s s :=
    Runs.cons (Runs.check l (by simpa [Check.passes] using h1)) (Runs.check l (by simpa [Check.passes, hc] using h2))
  have k2 := k1.append (runs_window l hc h3)
  set t := emitAll (winTrace c x y (8 * scale) (8 * scale)) s with ht
  set buf := overwrite (raster c code color scale) t.rasterBuf with hbuf
  have k3 := k2.append (Runs.silent (m := .rasterize code color scale)
    (t := windowSet x y (8 * scale) (8 * scale) { t with rasterBuf := buf })
    (by simp [seqMicro, ht, hc, hbuf]) l.halted l.busy)
  have lt : Live { t with rasterBuf := buf } := ⟨l.1, l.2, l.3, (l.emitAll _).4⟩
  have k4 := k3.append (runs_stream (c := c) (fun i => .transferRaster i) (rasterPixel c code color scale)
    (List.range (8 * scale * (8 * scale)))
    (fun i hi u hu => by
      rw [List.mem_range] at hi
      simp only [seqMicro, hu, hbuf]
      rw [overwrite_getD (by simpa [raster] using hi)]
      simp [raster, hi])
    lt wf h3 (by simp))
  have k5 := k4.append (Runs.silent (m := .dropRaster) rfl l.halted l.busy)
  have e : ({ painted x y (8 * scale) (8 * scale) (emitAll (streamTrace c
        ((List.range (8 * scale * (8 * scale))).map (rasterPixel c code color scale)))
        { t with rasterBuf := buf }) with rasterBuf := [] } : State)
      = charDrawn x y scale (emitAll (streamTrace c (raster c code color scale)) t) := rfl
  change Runs _ _ { painted x y (8 * scale) (8 * scale) (emitAll (streamTrace c
        ((List.range (8 * scale * (8 * scale))).map (rasterPixel c code color scale)))
        { t with rasterBuf := buf }) with rasterBuf := [] } at k5
  rw [e, ht, emitAll_emitAll] at k5
  exact k5.of_eq (by simp [drawCharacterBody]; rfl) (by simp [charTrace, paintTrace])

/-- `draw_character` with a failing check (43_glyph_rasterizer.md R141, 60_exceptions.md R174). -/
theorem stops_character {c : Cfg} {x y : Nat} {code : Byte} {color : Pixel} {scale : Nat} {s : State} {k : Cause}
    (l : Quiet s) (hc : s.cfg = c) (bad : charHalt c x y code scale = some k) :
    Stops (drawCharacterBody c x y code color scale) s (raiseHalt k s) := by
  unfold charHalt at bad
  unfold drawCharacterBody
  simp only [List.append_assoc]
  by_cases h1 : scale < 1
  · rw [if_pos h1] at bad
    obtain rfl := Option.some.inj bad
    exact (Stops.check (k := .scale scale) (by simp [Check.passes]; omega)).append _
  · rw [if_neg h1] at bad
    refine Runs.stops_cons (Runs.test l (by simp [Check.passes]; omega)) ?_
    by_cases h2 : c.InFont code
    · have hn : ¬ WindowOk c x y (8 * scale) (8 * scale) := fun h3 => by
        rw [if_neg (not_not.mpr h2), if_neg (not_not.mpr h3)] at bad
        cases bad
      rw [if_neg (not_not.mpr h2), if_pos hn] at bad
      obtain rfl := Option.some.inj bad
      exact Runs.stops_cons (Runs.test l (by rw [Check.passes, hc]; exact decide_eq_true h2))
        ((stops_window hc hn).append _)
    · rw [if_pos h2] at bad
      obtain rfl := Option.some.inj bad
      exact (Stops.check (k := .charCode code) (by rw [Check.passes, hc]; exact decide_eq_false h2)).append _

theorem charX_succ (c : Cfg) (x k scale : Nat) : charX c x (k + 1) scale = charX c (charX c x 1 scale) k scale := by
  unfold charX; cases c.stringAxis <;> simp; ring

theorem charY_succ (c : Cfg) (y k scale : Nat) : charY c y (k + 1) scale = charY c (charY c y 1 scale) k scale := by
  unfold charY; cases c.stringAxis <;> simp; ring

@[simp] theorem charX_zero (c : Cfg) (x scale : Nat) : charX c x 0 scale = x := by
  unfold charX; cases c.stringAxis <;> simp

@[simp] theorem charY_zero (c : Cfg) (y scale : Nat) : charY c y 0 scale = y := by
  unfold charY; cases c.stringAxis <;> simp

theorem drawStringBody_cons (c : Cfg) (color : Pixel) (scale : Nat) (code : Byte) (text : List Byte) (x y : Nat) :
    drawStringBody c color scale (code :: text) x y = drawCharacterBody c x y code color scale ++
      drawStringBody c color scale text (charX c x 1 scale) (charY c y 1 scale) := by
  simp only [drawStringBody, charX, charY]
  cases c.stringAxis <;> simp

theorem stringTrace_cons (c : Cfg) (color : Pixel) (scale : Nat) (code : Byte) (text : List Byte) (x y : Nat) :
    stringTrace c color scale (code :: text) x y = charTrace c x y code color scale ++
      stringTrace c color scale text (charX c x 1 scale) (charY c y 1 scale) := by
  simp only [stringTrace, charX, charY]
  cases c.stringAxis <;> simp

theorem StringOk.cons {c : Cfg} {scale : Nat} {code : Byte} {text : List Byte} {x y : Nat} :
    StringOk c scale (code :: text) x y ↔
      charHalt c x y code scale = none ∧ StringOk c scale text (charX c x 1 scale) (charY c y 1 scale) := by
  constructor
  · intro h
    refine ⟨by simpa using h 0 (Nat.succ_pos _), fun k hk => ?_⟩
    have := h (k + 1) (Nat.succ_lt_succ hk)
    rwa [charX_succ, charY_succ] at this
  · rintro ⟨h1, h2⟩ k hk
    cases k with
    | zero => simpa using h1
    | succ k =>
      rw [charX_succ, charY_succ]
      exact h2 k (Nat.lt_of_succ_lt_succ hk)

theorem stringDrawn_cons (c : Cfg) (scale : Nat) (code : Byte) (text : List Byte) (x y : Nat) (s : State) :
    stringDrawn c scale (code :: text) x y s =
      stringDrawn c scale text (charX c x 1 scale) (charY c y 1 scale) (charDrawn x y scale s) := by
  cases text with
  | nil => simp [stringDrawn]
  | cons d ds =>
    simp only [stringDrawn, List.length_cons, Nat.add_sub_cancel]
    rw [charX_succ, charY_succ]
    rfl

theorem Live.drawn {s : State} (l : Live s) (x y scale : Nat) : Live (charDrawn x y scale s) := ⟨l.1, l.2, l.3, l.4⟩

theorem stringDrawn_emitAll (c : Cfg) (scale : Nat) (text : List Byte) (x y : Nat) (es : List Event) (s : State) :
    stringDrawn c scale text x y (emitAll es s) = emitAll es (stringDrawn c scale text x y s) := by
  cases text <;> rfl

/-- `draw_string` with every character's checks passed (43_glyph_rasterizer.md R143). -/
theorem runs_string {c : Cfg} {color : Pixel} {scale : Nat} (wf : c.WellFormed) (text : List Byte) :
    ∀ (x y : Nat) (s : State), Live s → s.cfg = c → StringOk c scale text x y →
      Runs (drawStringBody c color scale text x y) s
        (stringDrawn c scale text x y (emitAll (stringTrace c color scale text x y) s)) := by
  induction text with
  | nil =>
    intro x y s l hc ok
    exact (Runs.nil s).of_eq rfl (by simp [stringTrace, emitAll_nil, stringDrawn])
  | cons code text ih =>
    intro x y s l hc ok
    obtain ⟨h1, h2⟩ := StringOk.cons.mp ok
    have k1 := runs_character (color := color) l hc wf h1
    have k2 := k1.append (ih _ _ _ ((l.emitAll _).drawn x y scale) hc h2)
    rw [← drawStringBody_cons] at k2
    rw [stringDrawn_cons, stringTrace_cons, ← emitAll_emitAll]
    exact k2

/-- `draw_string` halts at the first character with a failing check, the characters before it complete
(43_glyph_rasterizer.md R143). -/
theorem stops_string {c : Cfg} {color : Pixel} {scale : Nat} (wf : c.WellFormed) {k : Cause} (pre : List Byte)
    (code : Byte) (post : List Byte) :
    ∀ (x y : Nat) (s : State), Live s → s.cfg = c → StringOk c scale pre x y →
      charHalt c (charX c x pre.length scale) (charY c y pre.length scale) code scale = some k →
      Stops (drawStringBody c color scale (pre ++ code :: post) x y) s
        (raiseHalt k (stringDrawn c scale pre x y (emitAll (stringTrace c color scale pre x y) s))) := by
  induction pre with
  | nil =>
    intro x y s l hc _ bad
    simp only [List.nil_append, stringDrawn, stringTrace, emitAll_nil, drawStringBody_cons]
    exact (stops_character l.quiet hc (by simpa using bad)).append _
  | cons d pre ih =>
    intro x y s l hc ok bad
    obtain ⟨h1, h2⟩ := StringOk.cons.mp ok
    have k1 := runs_character (color := color) l hc wf h1
    have k2 := k1.stops (ih _ _ _ ((l.emitAll _).drawn x y scale) hc h2
      (by rw [List.length_cons, charX_succ, charY_succ] at bad; exact bad))
    rw [← drawStringBody_cons] at k2
    rw [stringDrawn_cons, stringTrace_cons, ← emitAll_emitAll]
    exact k2

/-! ## The composite procedures -/

/-- The state after `reset` (41_panel_protocol.md R110); `s` is the state after its trace. -/
abbrev wasReset (s : State) : State :=
  { s with pstate := .reset, winValid := false, streaming := false, pxRemaining := 0, resx := true, dcx := true }

/-- Adding to a trace. -/
theorem runs_emit {m : Micro} {e : Event} {tr : List Event} {s t : State} (hm : seqMicro m (emitAll tr s) = emit e (emitAll tr t))
    (l : Live t) (hn : transfers [e] = 0) : Runs [m] (emitAll tr s) (emitAll (tr ++ [e]) t) := by
  have : emit e (emitAll tr t) = emitAll (tr ++ [e]) t := by
    rw [← emitAll_emitAll]
    apply State.ext <;> simp [panelEvents, hn]
  exact Runs.silent (hm.trans this) l.halted l.busy

/-- The registers inside `reset` (41_panel_protocol.md R110). -/
def resetting (resx : Bool) (s : State) : State := { beginReset s with resx := resx }

theorem Live.resetting {s : State} (l : Live s) (b : Bool) : Live (resetting b s) := ⟨l.1, l.2, l.3, l.4⟩

/-- `reset` (41_panel_protocol.md R110). -/
theorem runs_reset (c : Cfg) {s : State} (l : Live s) :
    Runs (resetBody c) s (wasReset (emitAll (rstTrace c) s)) := by
  have k1 : Runs [.beginReset] s (emitAll [] (resetting s.resx s)) :=
    Runs.silent (by rw [emitAll_nil]; rfl) l.halted l.busy
  have k2 : Runs [.setResx false] (emitAll [] (resetting s.resx s)) (emitAll ([] ++ [.resx false]) (resetting false s)) :=
    runs_emit (by rfl) (l.resetting _) rfl
  have k3 : Runs [.delay .tResetLow] (emitAll ([] ++ [.resx false]) (resetting false s))
      (emitAll ([] ++ [.resx false] ++ [.delay .tResetLow]) (resetting false s)) :=
    runs_emit (by rfl) (l.resetting _) rfl
  have k4 : Runs [.setResx true] (emitAll ([] ++ [.resx false] ++ [.delay .tResetLow]) (resetting false s))
      (emitAll ([] ++ [.resx false] ++ [.delay .tResetLow] ++ [.resx true]) (resetting true s)) :=
    runs_emit (by rfl) (l.resetting _) rfl
  have k5 : Runs [.delay .tPowerup1]
      (emitAll ([] ++ [.resx false] ++ [.delay .tResetLow] ++ [.resx true]) (resetting true s))
      (emitAll ([] ++ [.resx false] ++ [.delay .tResetLow] ++ [.resx true] ++ [.delay .tPowerup1]) (resetting true s)) :=
    runs_emit (by rfl) (l.resetting _) rfl
  have k6 := sends_command c.cmdSwreset _ ((l.resetting true).emitAll
    ([] ++ [.resx false] ++ [.delay .tResetLow] ++ [.resx true] ++ [.delay .tPowerup1]))
  rw [emitAll_emitAll] at k6
  set tr := [] ++ [Event.resx false] ++ [.delay .tResetLow] ++ [.resx true] ++ [.delay .tPowerup1] ++
    cmdTrace c.cmdSwreset with htr
  have k7 : Runs [.delay .tPowerup2] (emitAll tr (dataLevel (resetting true s)))
      (emitAll (tr ++ [.delay .tPowerup2]) (dataLevel (resetting true s))) :=
    runs_emit (by rfl) ((l.resetting _).with_dcx true) rfl
  have k8 : Runs [.setPstate .reset] (emitAll (tr ++ [.delay .tPowerup2]) (dataLevel (resetting true s)))
      (wasReset (emitAll (tr ++ [.delay .tPowerup2]) s)) :=
    Runs.silent rfl l.halted l.busy
  exact (k1.append (k2.append (k3.append (k4.append (k5.append (k6.append (k7.append k8))))))).of_eq rfl rfl

/-- The full usable area is a window that fits (41_panel_protocol.md R111). -/
theorem windowOk_full {c : Cfg} (wf : c.WellFormed) : WindowOk c 0 0 c.usableCols c.usableRows := by
  obtain ⟨-, -, ⟨h1, h2⟩, -⟩ := wf
  simp only [WindowOk, Cfg.usableCols, Cfg.usableRows]
  omega

/-- `configure` (41_panel_protocol.md R111). -/
theorem runs_configure {c : Cfg} {s : State} (l : Live s) (hc : s.cfg = c) (wf : c.WellFormed) :
    Runs (configureBody c) s
      { painted 0 0 c.usableCols c.usableRows (emitAll (cfgTrace c) s) with pstate := .configured } := by
  have k1 := (((sends_command c.cmdColmod).append (sends_data c.colmod16bit)).append
    (sends_command c.cmdMadctl)).append (sends_data c.madctlValue)
  generalize ht0 : cmdTrace c.cmdColmod ++ datTrace c.colmod16bit ++ cmdTrace c.cmdMadctl ++ datTrace c.madctlValue = t0 at k1
  have l1 : Live (dataLevel (emitAll t0 s)) := (l.emitAll t0).with_dcx true
  have k2 := runs_fill (n := c.usableCols * c.usableRows) (color := bg) l1 hc wf (windowOk_full wf) rfl
  generalize ht1 : paintTrace c 0 0 c.usableCols c.usableRows (List.replicate (c.usableCols * c.usableRows) bg) = t1 at k2
  have l2 : Live (painted 0 0 c.usableCols c.usableRows (emitAll t1 (dataLevel (emitAll t0 s)))) :=
    ⟨l.1, l.2, l.3, ((l.emitAll t0).emitAll t1).4⟩
  have k3 := sends_command c.cmdDispon _ l2
  have k4 : Runs [.setPstate .configured]
      (dataLevel (emitAll (cmdTrace c.cmdDispon) (painted 0 0 c.usableCols c.usableRows (emitAll t1 (dataLevel (emitAll t0 s))))))
      { painted 0 0 c.usableCols c.usableRows (emitAll (cmdTrace c.cmdDispon) (emitAll t1 (emitAll t0 s))) with
        pstate := .configured } :=
    Runs.silent rfl l.halted l.busy
  rw [emitAll_emitAll, emitAll_emitAll] at k4
  refine ((k1 s l).append (k2.append (k3.append k4))).of_eq (by simp [configureBody]) ?_
  rw [show t0 ++ (t1 ++ cmdTrace c.cmdDispon) = cfgTrace c by
    simp [cfgTrace, ← ht0, ← ht1, paintTrace, List.append_assoc]]

/-- The window of a line (44_line_primitive.md R151). -/
abbrev LineOk (c : Cfg) (xs ys xe ye : Nat) : Prop :=
  (xs = xe ∧ ys < ye ∧ WindowOk c xs ys 1 (ye - ys)) ∨ (ys = ye ∧ xs < xe ∧ WindowOk c xs ys (xe - xs) 1)

/-- The state after `draw_line` (44_line_primitive.md R151); `s` is the state after its trace. -/
abbrev lineDrawn (xs ys xe ye : Nat) (s : State) : State :=
  if xs = xe then painted xs ys 1 (ye - ys) s else painted xs ys (xe - xs) 1 s

/-- `draw_line` along one axis inside the usable area (44_line_primitive.md R151). -/
theorem runs_line {c : Cfg} {xs ys xe ye : Nat} {color : Pixel} {s : State} (l : Live s) (hc : s.cfg = c)
    (wf : c.WellFormed) (ok : LineOk c xs ys xe ye) :
    Runs (drawLineBody c xs ys xe ye color) s
      (lineDrawn xs ys xe ye (emitAll (lineTrace c xs ys xe ye color) s)) := by
  unfold drawLineBody lineTrace
  rcases ok with ⟨rfl, h2, h3⟩ | ⟨rfl, h2, h3⟩
  · simp only [lineDrawn, if_true]
    exact Runs.cons (Runs.check l (by simp [Check.passes]; omega))
      (Runs.cons (Runs.check l (by simp [Check.passes]; omega)) (runs_fill l hc wf h3 (by simp)))
  · have hne : xs ≠ xe := by omega
    simp only [lineDrawn, if_neg hne]
    exact Runs.cons (Runs.check l (by simp [Check.passes]; omega))
      (Runs.cons (Runs.check l (by simp [Check.passes]; omega)) (runs_fill l hc wf h3 (by simp)))

end Sys2Proof.Machine
end

