-- ==== Sys2Proof/Laws/Exec.lean ====
section
/-! SUPPORT. Laws/Exec.lean: exec of a host operation, from what its body does: the common checks, the PC's advance, and the
halts of the common checks. -/

namespace Sys2Proof.Machine

/-- A host operation's meaning is its program, performed. -/
theorem exec_eq_perform {i : Instr} {op : Op} (h : opOf i = some op) (s : State) :
    exec i s = perform (seqProgram s.cfg i) s := by
  cases i <;> first | rfl | cases h

/-- The program of a host operation is the common checks, a body, and the PC's advance by the descriptor's length. -/
theorem seqProgram_eq {i : Instr} {op : Op} (h : opOf i = some op) (c : Cfg) :
    ∃ body, seqProgram c i = operation op body (oplen i) := by
  cases i <;> first | (obtain rfl := Option.some.inj h; exact ⟨_, rfl⟩) | cases h

theorem Quiet.of_idle {s : State} (h : Idle s) : Quiet s := ⟨h.2.1, h.2.2.1⟩

/-- The common checks pass. -/
theorem runs_common {op : Op} {s : State} (q : Quiet s) (ha : Allowed op s) :
    Runs [.require (.legal op), .require (.streamRule op)] s s :=
  Runs.cons (Runs.test q (by simpa [Check.passes] using ha.1))
    (Runs.test q (by
      have := ha.2
      simp only [Check.passes]
      cases hs : s.streaming <;> simp_all))

/-- An allowed operation whose body completes (41_panel_protocol.md R117). -/
theorem perform_completes {op : Op} {body : List Micro} {len : Nat} {s t : State} (hi : Idle s) (ha : Allowed op s)
    (r : Runs body s t) (q : Quiet t) :
    perform (operation op body len) s = .next { t with pc := t.pc + len, todo := [] } := by
  rw [perform_idle hi]
  have k := ((runs_common (Quiet.of_idle hi) ha).append (r.append (Runs.silent (m := .advancePc len)
    (t := { t with pc := t.pc + len }) rfl q.halted q.busy))).run
  exact congrArg _ k

/-- An allowed operation whose body halts (60_exceptions.md R177). -/
theorem perform_halts {op : Op} {body : List Micro} {len : Nat} {s t : State} (hi : Idle s) (ha : Allowed op s)
    (r : Stops body s t) : perform (operation op body len) s = .next { t with todo := [] } := by
  rw [perform_idle hi]
  exact congrArg _ ((runs_common (Quiet.of_idle hi) ha).stops (r.append [.advancePc len])).run

/-- The common check of the protocol state fails (41_panel_protocol.md R119). -/
theorem perform_illegal {op : Op} {body : List Micro} {len : Nat} {s : State} (hi : Idle s)
    (h : opLegal op s.pstate = false) :
    perform (operation op body len) s = .next { raiseHalt .protocolOrder s with todo := [] } := by
  rw [perform_idle hi]
  have k : Stops [.require (.legal op)] s (raiseHalt .protocolOrder s) := Stops.check (by simpa [Check.passes] using h)
  exact congrArg _ (k.append (.require (.streamRule op) :: (body ++ [Micro.advancePc len]))).run

/-- The common check of the streaming discipline fails (41_panel_protocol.md R120). -/
theorem perform_streaming {op : Op} {body : List Micro} {len : Nat} {s : State} (hi : Idle s)
    (h : opLegal op s.pstate = true) (hs : s.streaming = true) (he : streamExempt op = false) :
    perform (operation op body len) s = .next { raiseHalt .streamCount s with todo := [] } := by
  rw [perform_idle hi]
  have k1 : Runs [.require (.legal op)] s s := Runs.test (Quiet.of_idle hi) (by simpa [Check.passes] using h)
  have k2 : Stops [.require (.streamRule op)] s (raiseHalt .streamCount s) :=
    Stops.check (by simp [Check.passes, hs, he])
  exact congrArg _ ((k1.stops k2).append (body ++ [Micro.advancePc len])).run

/-- Between operations nothing is left to do. -/
theorem todo_of_idle {s : State} (h : Idle s) : ({ s with todo := [] } : State) = s := by
  obtain ⟨-, -, -, -, h⟩ := h
  rw [← h]

theorem allowed_closed {op : Op} {s : State} (h : opLegal op s.pstate = true) (hs : s.streaming = false) : Allowed op s :=
  ⟨h, fun k => by rw [hs] at k; cases k⟩

end Sys2Proof.Machine
end

