-- ==== Sys2Proof/Laws/Frame.lean ====
section
/-! SUPPORT. Laws/Frame.lean: which actions an operation's program consists of, and that a part of the state no action of a
program writes is the same after it, whatever BUS does. -/

namespace Sys2Proof.Machine

/-! ## The actions of a program -/

/-- The actions of the procedures that program and fill a window. -/
def Micro.paints : Micro → Bool
  | .require _ => true
  | .invalidateWindow => true
  | .setDcx _ => true
  | .transfer bytes => bytes.length = 1 || bytes.length = 2
  | .loadWindow _ _ _ _ => true
  | .openStream => true
  | .countPixel => true
  | .beginReset => false
  | .setResx _ => false
  | .delay _ => false
  | .setPstate _ => false
  | .packField _ _ => false
  | .rasterize _ _ _ => false
  | .transferRaster _ => false
  | .dropRaster => false
  | .advancePc _ => false
  | .write _ => false

/-- The actions of the rasterizer. -/
def Micro.rasters : Micro → Bool
  | .rasterize _ _ _ => true
  | .transferRaster _ => true
  | .dropRaster => true
  | .require _ => false
  | .invalidateWindow => false
  | .setDcx _ => false
  | .transfer _ => false
  | .loadWindow _ _ _ _ => false
  | .openStream => false
  | .countPixel => false
  | .beginReset => false
  | .setResx _ => false
  | .delay _ => false
  | .setPstate _ => false
  | .packField _ _ => false
  | .advancePc _ => false
  | .write _ => false

/-- The actions of the drawing procedures. -/
abbrev Micro.draws (m : Micro) : Prop := m.paints = true ∨ m.rasters = true

theorem sendCommandBody_paints (code : Byte) : ∀ m ∈ sendCommandBody code, m.paints = true := by
  simp [sendCommandBody, Micro.paints]

theorem sendDataBody_paints (byte : Byte) : ∀ m ∈ sendDataBody byte, m.paints = true := by
  simp [sendDataBody, Micro.paints]

theorem writePixelBody_paints (p : Pixel) : ∀ m ∈ writePixelBody p, m.paints = true := by
  simp [writePixelBody, Micro.paints, pixelBytes]

theorem setDrawWindowBody_paints (c : Cfg) (x y w h : Nat) : ∀ m ∈ setDrawWindowBody c x y w h, m.paints = true := by
  simp [setDrawWindowBody, axisBody, sendCommandBody, sendDataBody, Micro.paints]

theorem beginPixelWriteBody_paints (c : Cfg) : ∀ m ∈ beginPixelWriteBody c, m.paints = true := by
  simp [beginPixelWriteBody, sendCommandBody, Micro.paints]

theorem fillBody_paints (c : Cfg) (n : Nat) (color : Pixel) : ∀ m ∈ fillBody c n color, m.paints = true := by
  intro m hm
  rcases List.mem_append.mp hm with hm | hm
  · exact beginPixelWriteBody_paints c m hm
  · rw [fill_eq_flatMap] at hm
    obtain ⟨i, -, hm⟩ := List.mem_flatMap.mp hm
    have k : ∀ m ∈ [Micro.require .streaming, .transfer (pixelBytes color), .countPixel], m.paints = true := by
      simp [Micro.paints, pixelBytes]
    exact k m hm

theorem drawLineBody_paints (c : Cfg) (xs ys xe ye : Nat) (color : Pixel) :
    ∀ m ∈ drawLineBody c xs ys xe ye color, m.paints = true := by
  intro m hm
  unfold drawLineBody at hm
  rcases List.mem_cons.mp hm with rfl | hm
  · rfl
  · split at hm <;> rcases List.mem_cons.mp hm with rfl | hm <;> first | rfl | skip
    all_goals
      rcases List.mem_append.mp hm with hm | hm
      · exact setDrawWindowBody_paints _ _ _ _ _ m hm
      · exact fillBody_paints _ _ _ m hm

theorem drawCharacterBody_draws (c : Cfg) (x y : Nat) (code : Byte) (color : Pixel) (scale : Nat) :
    ∀ m ∈ drawCharacterBody c x y code color scale, m.draws := by
  intro m hm
  simp only [drawCharacterBody, List.mem_append] at hm
  rcases hm with ((((hm | hm) | hm) | hm) | hm) | hm
  · revert hm; revert m; simp [Micro.draws, Micro.paints]
  · exact .inl (setDrawWindowBody_paints _ _ _ _ _ m hm)
  · revert hm; revert m; simp [Micro.draws, Micro.rasters]
  · exact .inl (beginPixelWriteBody_paints _ m hm)
  · obtain ⟨i, -, hm⟩ := List.mem_flatMap.mp hm
    have k : ∀ m ∈ writeRasterBody i, m.draws := by simp [writeRasterBody, Micro.draws, Micro.rasters, Micro.paints]
    exact k m hm
  · revert hm; revert m; simp [Micro.draws, Micro.rasters]

theorem drawStringBody_draws (c : Cfg) (color : Pixel) (scale : Nat) (text : List Byte) :
    ∀ x y, ∀ m ∈ drawStringBody c color scale text x y, m.draws := by
  induction text with
  | nil => intro x y m hm; cases hm
  | cons code text ih =>
    intro x y m hm
    rw [drawStringBody_cons] at hm
    rcases List.mem_append.mp hm with hm | hm
    · exact drawCharacterBody_draws _ _ _ _ _ _ m hm
    · exact ih _ _ m hm

theorem valueBody_draws (c : Cfg) (q : QuantitySlots) (t10 : Nat) (symbol : Byte) :
    ∀ m ∈ valueBody c q t10 symbol, m.draws := by
  intro m hm
  simp only [valueBody, List.mem_append] at hm
  rcases hm with (hm | hm) | hm
  · exact drawStringBody_draws _ _ _ _ _ _ m hm
  · exact drawCharacterBody_draws _ _ _ _ _ _ m hm
  · exact drawCharacterBody_draws _ _ _ _ _ _ m hm

theorem refreshBody_draws (c : Cfg) (it ih ot oh : Int) : ∀ m ∈ refreshBody c it ih ot oh, m.draws := by
  intro m hm
  rcases List.mem_cons.mp hm with rfl | hm
  · exact .inl rfl
  · simp only [List.mem_append] at hm
    rcases hm with ((hm | hm) | hm) | hm <;> exact valueBody_draws _ _ _ _ m hm

/-- What `reset` and `configure` write of the protocol besides a window and its fill. -/
def Micro.protocol : Micro → Bool
  | .beginReset => true
  | .setResx _ => true
  | .delay _ => true
  | .setPstate _ => true
  | .require _ => false
  | .invalidateWindow => false
  | .setDcx _ => false
  | .transfer _ => false
  | .loadWindow _ _ _ _ => false
  | .openStream => false
  | .countPixel => false
  | .packField _ _ => false
  | .rasterize _ _ _ => false
  | .transferRaster _ => false
  | .dropRaster => false
  | .advancePc _ => false
  | .write _ => false

theorem resetBody_actions (c : Cfg) : ∀ m ∈ resetBody c, m.protocol = true ∨ (∃ l, m = .setDcx l) ∨ m = .transfer [c.cmdSwreset] := by
  simp [resetBody, sendCommandBody, Micro.protocol]

theorem configureBody_actions (c : Cfg) : ∀ m ∈ configureBody c, m.paints = true ∨ m = .setPstate .configured := by
  intro m hm
  simp only [configureBody, List.mem_append] at hm
  rcases hm with ((((((hm | hm) | hm) | hm) | hm) | hm) | hm) | hm
  on_goal 5 => exact .inl (setDrawWindowBody_paints _ _ _ _ _ m hm)
  on_goal 5 => exact .inl (fillBody_paints _ _ _ m hm)
  all_goals
    revert hm; revert m
    simp [sendCommandBody, sendDataBody, Micro.paints]

theorem initBody_actions (c : Cfg) : ∀ m ∈ initBody c, m.protocol = true ∨ m.draws := by
  intro m hm
  simp only [initBody, List.mem_append] at hm
  rcases hm with ((hm | hm) | hm) | hm
  · rcases resetBody_actions c m hm with h | ⟨l, rfl⟩ | rfl
    · exact .inl h
    · exact .inr (.inl rfl)
    · exact .inr (.inl rfl)
  · rcases configureBody_actions c m hm with h | rfl
    · exact .inr (.inl h)
    · exact .inl rfl
  · obtain ⟨l, -, hm⟩ := List.mem_flatMap.mp hm
    exact .inr (drawStringBody_draws _ _ _ _ _ _ m hm)
  · obtain ⟨l, -, hm⟩ := List.mem_flatMap.mp hm
    exact .inr (.inl (drawLineBody_paints _ _ _ _ _ _ m hm))

/-- An action of an operation is a common check, the PC's advance, or an action of the body. -/
theorem mem_operation {op : Op} {body : List Micro} {len : Nat} {m : Micro} :
    m ∈ operation op body len ↔ m = .require (.legal op) ∨ m = .require (.streamRule op) ∨ m ∈ body ∨ m = .advancePc len := by
  simp [operation]

/-- The operations that neither reset nor configure draw. -/
theorem seqProgram_draws {c : Cfg} {i : Instr} {op : Op} (ho : opOf i = some op)
    (h : op ∉ [Op.reset, .configure, .pack, .init]) : ∀ m ∈ seqProgram c i, m.draws ∨ ∃ n, m = .advancePc n := by
  intro m hm
  cases i <;> first | (exfalso; simp [opOf] at ho; done) | (exfalso; simp [opOf] at ho; subst ho; simp at h; done) | skip
  all_goals
    rcases mem_operation.mp hm with rfl | rfl | hm | rfl
    · exact .inl (.inl rfl)
    · exact .inl (.inl rfl)
    on_goal 2 => exact .inr ⟨_, rfl⟩
  case sendCommand => exact .inl (.inl (sendCommandBody_paints _ m hm))
  case sendData => exact .inl (.inl (sendDataBody_paints _ m hm))
  case setDrawWindow => exact .inl (.inl (setDrawWindowBody_paints _ _ _ _ _ m hm))
  case beginPixelWrite => exact .inl (.inl (beginPixelWriteBody_paints _ m hm))
  case writePixel => exact .inl (.inl (writePixelBody_paints _ m hm))
  case drawCharacter => exact .inl (drawCharacterBody_draws _ _ _ _ _ _ m hm)
  case drawString => exact .inl (drawStringBody_draws _ _ _ _ _ _ m hm)
  case drawLine => exact .inl (.inl (drawLineBody_paints _ _ _ _ _ _ m hm))
  case refresh => exact .inl (refreshBody_draws _ _ _ _ _ m hm)

theorem mem_packOp {ch : Channel} {pct : Byte} {m : Micro} (hm : m ∈ packOp ch pct) :
    (∃ k, m = .require k) ∨ m = .packField ch pct.toNat ∨ m = .advancePc 3 := by
  simp only [packOp, operation, packBody, List.cons_append, List.nil_append, List.mem_cons, List.not_mem_nil, or_false] at hm
  rcases hm with rfl | rfl | rfl | rfl | rfl <;> simp

theorem mem_resetOp {c : Cfg} {m : Micro} (hm : m ∈ resetOp c) : m.protocol = true ∨ (∃ k, m = .require k) ∨
    (∃ l, m = .setDcx l) ∨ (∃ b, m = .transfer [b]) ∨ m = .advancePc 1 := by
  rcases mem_operation.mp hm with rfl | rfl | hm | rfl
  · exact .inr (.inl ⟨_, rfl⟩)
  · exact .inr (.inl ⟨_, rfl⟩)
  · rcases resetBody_actions c m hm with h | ⟨l, rfl⟩ | rfl
    · exact .inl h
    · exact .inr (.inr (.inl ⟨_, rfl⟩))
    · exact .inr (.inr (.inr (.inl ⟨_, rfl⟩)))
  · exact .inr (.inr (.inr (.inr rfl)))

theorem mem_configureOp {c : Cfg} {m : Micro} (hm : m ∈ configureOp c) :
    m.paints = true ∨ m = .setPstate .configured ∨ m = .advancePc 1 := by
  rcases mem_operation.mp hm with rfl | rfl | hm | rfl
  · exact .inl rfl
  · exact .inl rfl
  · rcases configureBody_actions c m hm with h | rfl
    · exact .inl h
    · exact .inr (.inl rfl)
  · exact .inr (.inr rfl)

theorem mem_initOp {c : Cfg} {m : Micro} (hm : m ∈ initOp c) : m.protocol = true ∨ m.draws ∨ m = .advancePc 1 := by
  rcases mem_operation.mp hm with rfl | rfl | hm | rfl
  · exact .inr (.inl (.inl rfl))
  · exact .inr (.inl (.inl rfl))
  · rcases initBody_actions c m hm with h | h
    · exact .inl h
    · exact .inr (.inl h)
  · exact .inr (.inr rfl)

/-- The program of a host operation: the common checks, a body that does not write PC, and PC's advance by the
descriptor's length. -/
theorem seqProgram_body {i : Instr} {op : Op} (ho : opOf i = some op) (c : Cfg) :
    ∃ body, seqProgram c i = operation op body (oplen i) ∧
      ∀ m ∈ body, m.protocol = true ∨ m.draws ∨ ∃ ch pct, m = .packField ch pct := by
  cases i <;> first | (exfalso; simp [opOf] at ho; done) | (obtain rfl := Option.some.inj ho; refine ⟨_, rfl, fun m hm => ?_⟩)
  case reset =>
    rcases resetBody_actions c m hm with h | ⟨l, rfl⟩ | rfl
    · exact .inl h
    · exact .inr (.inl (.inl rfl))
    · exact .inr (.inl (.inl rfl))
  case configure =>
    rcases configureBody_actions c m hm with h | rfl
    · exact .inr (.inl (.inl h))
    · exact .inl rfl
  case sendCommand => exact .inr (.inl (.inl (sendCommandBody_paints _ m hm)))
  case sendData => exact .inr (.inl (.inl (sendDataBody_paints _ m hm)))
  case setDrawWindow => exact .inr (.inl (.inl (setDrawWindowBody_paints _ _ _ _ _ m hm)))
  case beginPixelWrite => exact .inr (.inl (.inl (beginPixelWriteBody_paints _ m hm)))
  case writePixel => exact .inr (.inl (.inl (writePixelBody_paints _ m hm)))
  case pack =>
    simp only [packBody, List.mem_cons, List.not_mem_nil, or_false] at hm
    rcases hm with rfl | rfl
    · exact .inr (.inl (.inl rfl))
    · exact .inr (.inr ⟨_, _, rfl⟩)
  case drawCharacter => exact .inr (.inl (drawCharacterBody_draws _ _ _ _ _ _ m hm))
  case drawString => exact .inr (.inl (drawStringBody_draws _ _ _ _ _ _ m hm))
  case drawLine => exact .inr (.inl (.inl (drawLineBody_paints _ _ _ _ _ _ m hm)))
  case init =>
    rcases initBody_actions c m hm with h | h
    · exact .inl h
    · exact .inr (.inl h)
  case refresh => exact .inr (.inl (refreshBody_draws _ _ _ _ _ m hm))

/-- Every action of every operation. -/
theorem seqProgram_actions {c : Cfg} {i : Instr} {m : Micro} (hm : m ∈ seqProgram c i) :
    m.protocol = true ∨ m.draws ∨ (∃ ch pct, m = .packField ch pct) ∨ ∃ n, m = .advancePc n := by
  cases ho : opOf i with
  | none => cases i <;> first | (simp [opOf] at ho; done) | cases hm
  | some op =>
    obtain ⟨body, e, h⟩ := seqProgram_body ho c
    rw [e] at hm
    rcases mem_operation.mp hm with rfl | rfl | hm | rfl
    · exact .inr (.inl (.inl rfl))
    · exact .inr (.inl (.inl rfl))
    · rcases h m hm with h | h | h
      · exact .inl h
      · exact .inr (.inl h)
      · exact .inr (.inr (.inl h))
    · exact .inr (.inr (.inr ⟨_, rfl⟩))

/-! ## Frames -/

/-- What BUS never writes (10_state.md R10): every register but XFER_BUSY, INFLIGHT and the halt's. -/
theorem busStep_keeps (s : State) : (busStep s).cfg = s.cfg ∧ (busStep s).prog = s.prog ∧ (busStep s).host = s.host ∧
    (busStep s).rstN = s.rstN ∧ (busStep s).pc = s.pc ∧ (busStep s).pstate = s.pstate ∧ (busStep s).dcx = s.dcx ∧
    (busStep s).resx = s.resx ∧ (busStep s).winValid = s.winValid ∧ (busStep s).win = s.win ∧
    (busStep s).streaming = s.streaming ∧ (busStep s).pxRemaining = s.pxRemaining ∧ (busStep s).pixacc = s.pixacc ∧
    (busStep s).rasterBuf = s.rasterBuf ∧ (busStep s).todo = s.todo := by
  rcases busStep_cases s with ⟨-, e⟩ | ⟨t, -, e | ⟨k, e⟩ | e⟩ <;> rw [e] <;> simp [busFault]

/-- What issuing a transfer never writes. -/
theorem issue_keeps (bytes : List Byte) (s : State) : (issue bytes s).cfg = s.cfg ∧ (issue bytes s).prog = s.prog ∧
    (issue bytes s).host = s.host ∧ (issue bytes s).rstN = s.rstN ∧ (issue bytes s).pc = s.pc ∧
    (issue bytes s).pstate = s.pstate ∧ (issue bytes s).dcx = s.dcx ∧ (issue bytes s).resx = s.resx ∧
    (issue bytes s).winValid = s.winValid ∧ (issue bytes s).win = s.win ∧ (issue bytes s).streaming = s.streaming ∧
    (issue bytes s).pxRemaining = s.pxRemaining ∧ (issue bytes s).pixacc = s.pixacc ∧
    (issue bytes s).rasterBuf = s.rasterBuf ∧ (issue bytes s).todo = s.todo ∧ (issue bytes s).wire = s.wire ∧
    (issue bytes s).panel = s.panel ∧ (issue bytes s).bus = s.bus := by
  unfold issue; split <;> simp [raiseHalt]

/-- What a check never writes. -/
theorem require_keeps (k : Check) (s : State) : seqMicro (.require k) s = s ∨ seqMicro (.require k) s = raiseHalt k.cause s := by
  simp only [seqMicro]; split <;> simp

theorem busStep_todo (s : State) (x : List Micro) : busStep { s with todo := x } = { busStep s with todo := x } := by
  have hn : State.busNext { s with todo := x } = s.busNext := rfl
  unfold busStep
  simp only [hn]
  split
  · rfl
  · split <;> rfl

/-- A relation between states that holds along every piece of a run holds along the run. -/
structure Along (R : State → State → Prop) (ok : Micro → Prop) : Prop where
  trans : ∀ {a b c}, R a b → R b c → R a c
  todo : ∀ s x, R s { s with todo := x }
  bus : ∀ s, R s (busStep s)
  micro : ∀ m s, ok m → R s (seqMicro m s)

theorem Along.runSeq {R : State → State → Prop} {ok : Micro → Prop} (h : Along R ok) (ms : List Micro)
    (hm : ∀ m ∈ ms, ok m) : ∀ s, R s (runSeq ms s) := by
  induction ms with
  | nil => intro s; exact h.todo s []
  | cons m ms ih =>
    intro s
    have ha : R s (actMicro m s) := by
      unfold actMicro
      simp only
      split
      · exact h.micro m s (hm m (by simp))
      · split
        · exact h.trans (h.micro m s (hm m (by simp))) (h.bus _)
        · exact h.micro m s (hm m (by simp))
    simp only [Machine.runSeq]
    split
    · exact h.trans ha (h.todo _ _)
    · split
      · exact h.trans ha (h.todo _ _)
      · exact h.trans ha (ih (fun m h' => hm m (by simp [h'])) _)

theorem Along.resume {R : State → State → Prop} {ok : Micro → Prop} (h : Along R ok) {s : State}
    (hm : ∀ m ∈ s.todo, ok m) : R s (resume s) := by
  unfold Machine.resume
  simp only
  split
  · exact h.trans (h.bus s) (h.todo _ _)
  · split
    · exact h.bus s
    · exact h.trans (h.bus s) (h.runSeq _ (by rw [(busStep_keeps s).2.2.2.2.2.2.2.2.2.2.2.2.2.2]; exact hm) _)

/-- A part of the state that no action of a program, no step of BUS and no move in the program writes. -/
theorem runSeq_frame {α : Type} (f : State → α) (htodo : ∀ s x, f { s with todo := x } = f s)
    (hbus : ∀ s, f (busStep s) = f s) (ms : List Micro) (h : ∀ m ∈ ms, ∀ s, f (seqMicro m s) = f s) :
    ∀ s, f (runSeq ms s) = f s := by
  induction ms with
  | nil => intro s; exact htodo s []
  | cons m ms ih =>
    intro s
    have ha : f (actMicro m s) = f s := by
      unfold actMicro
      simp only
      split
      · exact h m (by simp) s
      · split
        · rw [hbus, h m (by simp) s]
        · exact h m (by simp) s
    simp only [runSeq]
    split
    · rw [htodo, ha]
    · split
      · rw [htodo, ha]
      · rw [ih (fun m hm => h m (by simp [hm])), ha]

/-- The same for a program that goes on after BUS's step. -/
theorem resume_frame {α : Type} (f : State → α) (htodo : ∀ s x, f { s with todo := x } = f s)
    (hbus : ∀ s, f (busStep s) = f s) {s : State} (h : ∀ m ∈ s.todo, ∀ s, f (seqMicro m s) = f s) :
    f (resume s) = f s := by
  unfold Machine.resume
  simp only
  split
  · rw [htodo, hbus]
  · split
    · exact hbus s
    · rw [(busStep_keeps s).2.2.2.2.2.2.2.2.2.2.2.2.2.2, runSeq_frame f htodo hbus _ h, hbus]

/-- A program that issues no transfer: what its actions keep, it keeps. -/
theorem runSeq_silent {α : Type} (f : State → α) (htodo : ∀ s x, f { s with todo := x } = f s) (ms : List Micro)
    (h : ∀ m ∈ ms, ∀ s, f (seqMicro m s) = f s ∧ (seqMicro m s).xferBusy = s.xferBusy) :
    ∀ s, s.xferBusy = false → f (runSeq ms s) = f s ∧ (runSeq ms s).xferBusy = false := by
  induction ms with
  | nil => intro s hs; exact ⟨htodo s [], hs⟩
  | cons m ms ih =>
    intro s hs
    obtain ⟨h1, h2⟩ := h m (by simp) s
    have ha : actMicro m s = seqMicro m s := by simp [actMicro, h2, hs]
    have hb : (seqMicro m s).xferBusy = false := h2.trans hs
    simp only [runSeq, ha]
    split
    · exact ⟨by rw [htodo, h1], hb⟩
    · rw [if_neg (by simp [hb])]
      have := ih (fun m hm => h m (by simp [hm])) (seqMicro m s) hb
      rwa [h1] at this

/-- The same for exec: a host operation keeps what its program does not write. -/
theorem exec_frame {α : Type} (f : State → α) (htodo : ∀ s x, f { s with todo := x } = f s)
    (hbus : ∀ s, f (busStep s) = f s) {i : Instr} {op : Op} (ho : opOf i = some op) {s t : State}
    (h : ∀ m ∈ seqProgram s.cfg i, ∀ s, f (seqMicro m s) = f s) (he : exec i s = .next t) : f t = f s := by
  rw [exec_eq_perform ho] at he
  unfold perform at he
  split at he
  · cases he
  · split at he
    · cases he
    · obtain rfl := Host.Outcome.next.inj he
      exact runSeq_frame f htodo hbus _ h s

/-! ## What an action leaves alone -/

/-- No action writes CFG, PROG, HOST's list, RST_N or its place in the program. -/
theorem seqMicro_keeps (m : Micro) (s : State) : (seqMicro m s).cfg = s.cfg ∧ (seqMicro m s).prog = s.prog ∧
    (seqMicro m s).host = s.host ∧ (seqMicro m s).rstN = s.rstN ∧ (seqMicro m s).todo = s.todo := by
  cases m
  case require k => rcases require_keeps k s with e | e <;> rw [e] <;> simp [raiseHalt]
  case transfer bytes => have := issue_keeps bytes s; simp [seqMicro, this]
  case transferRaster i => have := issue_keeps (pixelBytes (s.rasterBuf.getD i bg)) s; simp only [seqMicro, this, and_self]
  case write w => cases w <;> simp [seqMicro, writeReg]
  all_goals simp [seqMicro]

/-- A drawing action leaves PSTATE, RESX, PIXACC and PC alone. -/
theorem seqMicro_draws {m : Micro} (h : m.draws) (s : State) : (seqMicro m s).pstate = s.pstate ∧
    (seqMicro m s).resx = s.resx ∧ (seqMicro m s).pixacc = s.pixacc ∧ (seqMicro m s).pc = s.pc := by
  cases m
  case require k => rcases require_keeps k s with e | e <;> rw [e] <;> simp [raiseHalt]
  case transfer bytes => have := issue_keeps bytes s; simp [seqMicro, this]
  case transferRaster i => have := issue_keeps (pixelBytes (s.rasterBuf.getD i bg)) s; simp only [seqMicro, this, and_self]
  all_goals simp [seqMicro, Micro.draws, Micro.paints, Micro.rasters] at h ⊢

/-- An action that programs or fills a window leaves RASTER_BUF alone. -/
theorem seqMicro_paints {m : Micro} (h : m.paints = true) (s : State) : (seqMicro m s).rasterBuf = s.rasterBuf := by
  cases m
  case require k => rcases require_keeps k s with e | e <;> (rw [e]; try simp [raiseHalt])
  case transfer bytes => have := issue_keeps bytes s; simp [seqMicro, this]
  all_goals first | rfl | simp [Micro.paints] at h

/-- An action of `reset` leaves the Draw Window registers, PIXACC, PC and RASTER_BUF alone. -/
theorem seqMicro_protocol {m : Micro} (h : m.protocol = true) (s : State) : (seqMicro m s).win = s.win ∧
    (seqMicro m s).pixacc = s.pixacc ∧ (seqMicro m s).pc = s.pc ∧ (seqMicro m s).rasterBuf = s.rasterBuf := by
  cases m <;> simp [seqMicro, Micro.protocol] at h ⊢

end Sys2Proof.Machine
end

