-- ==== Sys2Proof/Laws/Step.lean ====
section
/-! SUPPORT. Laws/Step.lean: what step does around exec: HOST's action, the fetch, and a transfer in flight. -/

namespace Sys2Proof.Machine

theorem hostAct_idle {s : State} (h : HostIdle s) : hostAct s = none := by
  unfold hostAct
  rcases h with h | h
  · simp [h]
  · cases hs : s.host with
    | nil => rfl
    | cons a as => simp [hs] at h; simp [h]

/-- HOST does nothing exactly when its next action is to do nothing. -/
theorem hostAct_none {s : State} (h : hostAct s = none) : HostIdle s := by
  unfold hostAct at h
  split at h
  · cases h
  · cases h
  · next e => exact .inr (by simp [e])
  · next e => exact .inl e

/-- With HOST idle a step is DHE's. -/
theorem step_hostIdle {s : State} (h : HostIdle s) : step s = dheStep { s with host := s.host.tail } := by
  simp only [step, hostAct_idle h, hostIdle]

/-- Between operations a step fetches (41_panel_protocol.md R117). -/
theorem step_idle {s : State} (h : Idle s) (hh : HostIdle s) : step s = fetchAndRun { s with host := s.host.tail } := by
  obtain ⟨h1, h2, h3, h4, h5⟩ := h
  simp [step_hostIdle hh, dheStep, h1, h2, h3, h5]

/-- With a transfer in flight a step is BUS's, after which SEQ goes on (40_transfer.md R102, R103). -/
theorem step_busy {s : State} (h1 : s.rstN = true) (h2 : s.halted = false) (h3 : s.xferBusy = true) (hh : HostIdle s) :
    step s = .next (resume { s with host := s.host.tail }) := by
  simp [step_hostIdle hh, dheStep, h1, h2, h3]

/-- A host operation's meaning, when it is a next state, is the run of its program from a state that is neither halted nor
inside another operation. -/
theorem exec_next {i : Instr} {op : Op} (ho : opOf i = some op) {s t : State} (h : exec i s = .next t) :
    s.halted = false ∧ s.xferBusy = false ∧ s.todo = [] ∧ t = runSeq (seqProgram s.cfg i) s := by
  rw [exec_eq_perform ho] at h
  unfold perform at h
  split at h
  · cases h
  · split at h
    · cases h
    · rename_i h1 h2
      simp only [Bool.or_eq_true, Bool.not_eq_true', not_or, Bool.not_eq_true, List.isEmpty_eq_false_iff,
        not_not] at h1 h2
      exact ⟨h1, h2.1, h2.2, (Host.Outcome.next.inj h).symm⟩

/-- Everything a step can do when HOST leaves RST_N alone; `u` is the state with HOST's turn taken. -/
inductive DheStep (u : State) : State → Prop where
  /-- BUS's step on the transfer in flight, and SEQ goes on. -/
  | busy (h : u.xferBusy = true) : DheStep u (resume u)
  /-- SEQ goes on inside an operation. -/
  | inside (m : Micro) (ms : List Micro) (hb : u.xferBusy = false) (h : u.todo = m :: ms) : DheStep u (runSeq (m :: ms) u)
  /-- SEQ performs the operation at PC. -/
  | operation (i : Instr) (op : Op) (rest : List Byte) (ho : opOf i = some op) (hd : fetch u = .ok (i, rest))
      (hb : u.xferBusy = false) (ht : u.todo = []) : DheStep u (runSeq (seqProgram u.cfg i) u)
  /-- The bytes at PC are no operation. -/
  | illegal (r : Reject) (hd : fetch u = .error r) (hf : fetchStop r u = .next (raiseHalt .illegalOp u))
      (hb : u.xferBusy = false) (ht : u.todo = []) : DheStep u (raiseHalt .illegalOp u)

/-- Everything a step can do. -/
theorem step_cases {s t : State} (h : step s = .next t) :
    (∃ rest, s.host = .assertReset :: rest ∧ t = assertReset { s with host := rest }) ∨
    (∃ rest, s.host = .releaseReset :: rest ∧ t = releaseReset { s with host := rest }) ∨
    (HostIdle s ∧ s.rstN = true ∧ s.halted = false ∧ DheStep { s with host := s.host.tail } t) := by
  cases ha : hostAct s with
  | some u =>
    have : t = u := by
      have h' := h
      simp only [step, ha] at h'
      exact (Host.Outcome.next.inj h').symm
    subst this
    unfold hostAct at ha
    split at ha
    · next r e => exact .inl ⟨r, e, (Option.some.inj ha).symm⟩
    · next r e => exact .inr (.inl ⟨r, e, (Option.some.inj ha).symm⟩)
    · cases ha
    · cases ha
  | none =>
    have hh := hostAct_none ha
    rw [step_hostIdle hh] at h
    set u : State := { s with host := s.host.tail } with hu
    unfold dheStep at h
    split at h
    · cases h
    · rename_i hr
      split at h
      · cases h
      · rename_i hl
        refine .inr (.inr ⟨hh, by simpa [hu] using hr, by simpa [hu] using hl, ?_⟩)
        split at h
        · rename_i hb
          obtain rfl := Host.Outcome.next.inj h
          exact .busy hb
        · rename_i hb
          have hb' : u.xferBusy = false := by simpa using hb
          split at h
          · rename_i ht
            unfold fetchAndRun at h
            split at h
            · rename_i i rest hd
              obtain ⟨op, ho⟩ := decode_op hd
              obtain ⟨-, -, -, rfl⟩ := exec_next ho h
              exact .operation i op rest ho hd hb' ht
            · rename_i r hd
              unfold fetchStop at h
              split at h
              · split at h <;> cases h
              · obtain rfl := Host.Outcome.next.inj h
                exact .illegal _ hd rfl hb' ht
              · obtain rfl := Host.Outcome.next.inj h
                exact .illegal _ hd rfl hb' ht
          · rename_i m ms ht
            obtain rfl := Host.Outcome.next.inj h
            exact .inside m ms hb' ht

/-- A relation that holds along every piece of a run holds along a step. -/
theorem Along.dheStep {R : State → State → Prop} (h : Along R fun _ => True) (hh : ∀ c s, R s (raiseHalt c s))
    {s t : State} (d : DheStep s t) : R s t := by
  cases d with
  | busy hb => exact h.resume fun _ _ => trivial
  | inside m ms hb ht => exact h.runSeq _ (fun _ _ => trivial) _
  | operation i op rest ho hd hb ht => exact h.runSeq _ (fun _ _ => trivial) _
  | illegal r hd hf hb ht => exact hh _ _

/-- A run's first step. -/
theorem run_succ (M : Host.Core) (n : Nat) (s t : M.State) (h : M.step s = .next t) : M.run (n + 1) s = M.run n t := by
  rw [Host.Core.run, h]

/-- A run of at least one step reaches no state from one without a next state. -/
theorem run_stop (M : Host.Core) (n : Nat) (s t : M.State) (h : ∀ u, M.step s ≠ .next u) : M.run (n + 1) s ≠ .next t := by
  intro e
  unfold Host.Core.run at e
  split at e
  · exact h _ ‹_›
  · cases e
  · cases e

theorem core_run_succ (n : Nat) {s t : State} (h : step s = .next t) :
    Sys2Proof.core.run (n + 1) s = Sys2Proof.core.run n t := run_succ Sys2Proof.core n s t h

theorem fineCore_run_succ (n : Nat) {s t : State} (h : tick s = .next t) : fineCore.run (n + 1) s = fineCore.run n t :=
  run_succ fineCore n s t h

/-- A proper beginning of a descriptor is truncated (30_encoding.md R79). -/
theorem decode_take {c : Cfg} {i : Instr} {k : Nat} (hw : i.wellFormed = true) (hn : i.wire = none) (h0 : 0 < k)
    (hk : k < oplen i) : decode ((encode c i).take k) = .error .truncated := by
  cases i
  case drawString x y color scale text =>
    have ht : text.length ≤ 255 := by simpa [Instr.wellFormed] using hw
    by_cases h9 : k < 9
    · interval_cases k <;> rfl
    · obtain ⟨j, rfl⟩ : ∃ j, k = j + 9 := ⟨k - 9, by omega⟩
      simp only [oplen] at hk
      have : ¬ text.length ≤ j := by omega
      simp [encode, bytes16, decode_drawString, decodeString, textLength_toNat ht, this]
  all_goals
    simp only [oplen] at hk
    first
      | omega
      | (interval_cases k <;> rfl)

end Sys2Proof.Machine
end

