-- ==== Sys2Proof/Laws/Agents.lean ====
section
/-! SUPPORT. Laws/Agents.lean: SEQ's place in its program moves on its own: no action reads `todo`; what one agent step
does at such a place; and that a group of register writes, taken apart, does what the group does. -/

namespace Sys2Proof.Machine

/-- No action reads or writes SEQ's place in the program. -/
theorem seqMicro_todo (m : Micro) (s : State) (x : List Micro) :
    seqMicro m { s with todo := x } = { seqMicro m s with todo := x } := by
  cases m
  case require k =>
    have hp : k.passes { s with todo := x } = k.passes s := by cases k <;> rfl
    simp only [seqMicro, hp]
    split <;> rfl
  case transfer bytes => simp only [seqMicro, issue]; split <;> rfl
  case transferRaster i => simp only [seqMicro, issue]; split <;> rfl
  case write w => cases w <;> rfl
  all_goals rfl

theorem actMicro_todo (m : Micro) (s : State) (x : List Micro) :
    actMicro m { s with todo := x } = { actMicro m s with todo := x } := by
  unfold actMicro
  simp only [seqMicro_todo]
  split
  · rfl
  · split
    · rw [busStep_todo]
    · rfl

/-- Where SEQ stood before a program makes no difference to it. -/
theorem runSeq_todo (ms : List Micro) : ∀ (s : State) (x : List Micro), runSeq ms { s with todo := x } = runSeq ms s := by
  induction ms with
  | nil => intro s x; rfl
  | cons m ms ih =>
    intro s x
    simp only [runSeq, actMicro_todo]
    split
    · rfl
    · split
      · rfl
      · exact ih _ x

/-! ## Groups of register writes -/

/-- An action that groups no writes is its own only step. -/
def Micro.single (m : Micro) : Prop := ∀ c, m.writes c = [m]

/-- Any other action only writes registers: it issues nothing and cannot halt. -/
theorem Micro.single_or_group (m : Micro) : m.single ∨ ∀ c, ∃ ws : List RegWrite, m.writes c = ws.map .write := by
  cases m
  case beginReset => exact .inr fun _ => ⟨_, rfl⟩
  case loadWindow => exact .inr fun _ => ⟨_, rfl⟩
  case openStream => exact .inr fun _ => ⟨_, rfl⟩
  case countPixel => exact .inr fun _ => ⟨_, rfl⟩
  case packField ch pct =>
    cases ch
    · exact .inr fun _ => ⟨[_], rfl⟩
    · exact .inr fun _ => ⟨_, rfl⟩
    · exact .inr fun _ => ⟨[_], rfl⟩
  case rasterize => exact .inr fun _ => ⟨_, rfl⟩
  all_goals exact .inl fun _ => rfl

/-- RASTER_BUF written from index `k` on, Pixel by Pixel. -/
theorem writes_raster (px : List Pixel) : ∀ (k : Nat) (s : State), k ≤ s.rasterBuf.length →
    (rasterWrites k px).foldl (fun s w => writeReg w s) s =
      { s with rasterBuf := s.rasterBuf.take k ++ px ++ s.rasterBuf.drop (k + px.length) } := by
  induction px with
  | nil => intro k s _; simp [rasterWrites]
  | cons p px ih =>
    intro k s h
    rw [rasterWrites, List.foldl_cons, ih]
    · have h1 : (s.rasterBuf.take k ++ p :: s.rasterBuf.drop (k + 1)).take (k + 1) = s.rasterBuf.take k ++ [p] := by
        rw [List.take_append, List.length_take, Nat.min_eq_left h, Nat.add_sub_cancel_left, List.take_take,
          Nat.min_eq_right (Nat.le_succ k)]
        rfl
      have h2 : (s.rasterBuf.take k ++ p :: s.rasterBuf.drop (k + 1)).drop (k + 1 + px.length) =
          s.rasterBuf.drop (k + (px.length + 1)) := by
        rw [List.drop_append, List.length_take, Nat.min_eq_left h, List.drop_eq_nil_of_le (by simp; omega),
          show k + 1 + px.length - k = px.length + 1 by omega, List.drop_succ_cons, List.drop_drop, List.nil_append]
        congr 1; omega
      simp only [writeReg, h1, h2]
      simp
    · simp [writeReg]; omega

/-- The writes of a group, one after the other, do what the group does (10_state.md R10). -/
theorem writes_seqMicro (m : Micro) (s : State) : (m.writes s.cfg).foldl (fun s w => seqMicro w s) s = seqMicro m s := by
  cases m
  case packField ch pct =>
    cases ch
    · rfl
    · simp only [Micro.writes, List.map_cons, List.map_nil, List.foldl_cons, List.foldl_nil, seqMicro, writeReg, setField]
      congr 2
      generalize BitVec.ofNat 3 (quant .green pct) = a
      generalize BitVec.ofNat 3 (quant .green pct / 8) = b
      ext i hi
      simp
      grind
    · rfl
  case countPixel =>
    simp only [Micro.writes, List.map_cons, List.map_nil, List.foldl_cons, List.foldl_nil, seqMicro, writeReg, countPixel]
    congr 3
    have := s.pxRemaining.isLt
    rw [decide_eq_decide, ne_eq, ne_eq, not_iff_not, ← BitVec.toNat_inj, BitVec.toNat_ofNat]
    simp
    omega
  case rasterize code color scale =>
    have := writes_raster (raster s.cfg code color scale) 0 s (Nat.zero_le _)
    simp only [Micro.writes, List.foldl_map, seqMicro, this]
    simp [overwrite]
  all_goals simp [Micro.writes, seqMicro, writeReg, beginReset, openStream]

/-- An agent step of BUS. -/
theorem tick_bus {s : State} (h1 : s.rstN = true) (h2 : s.halted = false) (h3 : s.xferBusy = true) (hh : s.host = []) :
    tick s = .next (endIfHalted (busStep s)) := by
  have e : hostIdle s = s := by unfold hostIdle; rw [hh, List.tail_nil, ← hh]
  simp [tick, hostAct, hh, e, tickDhe, h1, h2, h3]

/-- An agent step of SEQ inside an operation. -/
theorem tick_seq {s : State} {m : Micro} {ms : List Micro} (h1 : s.rstN = true) (h2 : s.halted = false)
    (h3 : s.xferBusy = false) (hh : s.host = []) (ht : s.todo = m :: ms) :
    tick s = .next (seqTick m ms s) := by
  have e : hostIdle s = s := by unfold hostIdle; rw [hh, List.tail_nil, ← hh]
  simp [tick, hostAct, hh, e, tickDhe, h1, h2, h3, ht]

/-- An agent step of SEQ between operations. -/
theorem tick_fetch {s : State} (h1 : s.rstN = true) (h2 : s.halted = false) (h3 : s.xferBusy = false) (hh : s.host = [])
    (ht : s.todo = []) : tick s = match fetch s with
      | .ok (i, _) => .next { s with todo := seqProgram s.cfg i }
      | .error r => fetchStop r s := by
  have e : hostIdle s = s := by unfold hostIdle; rw [hh, List.tail_nil, ← hh]
  simp [tick, hostAct, hh, e, tickDhe, h1, h2, h3, ht] <;> rfl

/-- A register write neither halts nor issues a transfer, and leaves HOST's side alone. -/
theorem writeReg_quiet (w : RegWrite) (s : State) : (writeReg w s).halted = s.halted ∧
    (writeReg w s).xferBusy = s.xferBusy ∧ (writeReg w s).host = s.host ∧ (writeReg w s).rstN = s.rstN ∧
    (writeReg w s).todo = s.todo := by
  cases w <;> simp [writeReg]

/-- Register writes do not read SEQ's place in the program. -/
theorem writeReg_todo (w : RegWrite) (s : State) (x : List Micro) :
    writeReg w { s with todo := x } = { writeReg w s with todo := x } := by cases w <;> rfl

theorem writes_todo (ws : List RegWrite) : ∀ (s : State) (x : List Micro),
    ws.foldl (fun s w => writeReg w s) { s with todo := x } = { ws.foldl (fun s w => writeReg w s) s with todo := x } := by
  induction ws with
  | nil => intro s x; rfl
  | cons w ws ih => intro s x; rw [List.foldl_cons, writeReg_todo, ih, List.foldl_cons]

/-- The agent steps of register writes still to come. -/
theorem ticks_writes (ws : List RegWrite) : ∀ (ms : List Micro) (s : State), s.rstN = true → s.halted = false →
    s.xferBusy = false → s.host = [] → s.todo = ws.map .write ++ ms →
    fineCore.run ws.length s = .next { ws.foldl (fun s w => writeReg w s) s with todo := ms } := by
  induction ws with
  | nil => intro ms s _ _ _ _ ht; simp only [List.foldl_nil]; rw [← show s.todo = ms from ht]; rfl
  | cons w ws ih =>
    intro ms s h1 h2 h3 hh ht
    obtain ⟨q1, q2, q3, q4, q5⟩ := writeReg_quiet w { s with todo := ws.map .write ++ ms }
    have e : seqTick (.write w) (ws.map .write ++ ms) s = writeReg w { s with todo := ws.map .write ++ ms } := by
      change endIfHalted (writeReg w { s with todo := ws.map .write ++ ms }) = _
      rw [endIfHalted, if_neg (by rw [q1]; simp [h2])]
    have k : tick s = .next (seqTick (.write w) (ws.map .write ++ ms) s) := tick_seq h1 h2 h3 hh ht
    rw [e] at k
    rw [List.length_cons, fineCore_run_succ _ k, ih ms _ (q4.trans h1) (q1.trans h2) (q2.trans h3) (q3.trans hh) q5]
    rw [writeReg_todo, writes_todo, List.foldl_cons]

/-- A group of register writes neither halts nor issues a transfer. -/
theorem group_quiet {m : Micro} {s : State} {ws : List RegWrite} (hw : m.writes s.cfg = ws.map .write) :
    (seqMicro m s).halted = s.halted ∧ (seqMicro m s).xferBusy = s.xferBusy := by
  have f := writes_seqMicro m s
  rw [hw, List.foldl_map] at f
  rw [← f]
  clear f hw
  induction ws generalizing s with
  | nil => exact ⟨rfl, rfl⟩
  | cons w ws ih =>
    obtain ⟨q1, q2, -⟩ := writeReg_quiet w s
    obtain ⟨i1, i2⟩ := ih (s := writeReg w s)
    exact ⟨i1.trans q1, i2.trans q2⟩

/-- The agent steps of a group of register writes do what the group does. -/
theorem ticks_group {m : Micro} {ms : List Micro} {s : State} {ws : List RegWrite} (hw : m.writes s.cfg = ws.map .write)
    (h1 : s.rstN = true) (h2 : s.halted = false) (h3 : s.xferBusy = false) (hh : s.host = []) (ht : s.todo = m :: ms) :
    ∃ n, fineCore.run n s = .next { seqMicro m s with todo := ms } := by
  have f := writes_seqMicro m s
  rw [hw, List.foldl_map] at f
  have f' : ws.foldl (fun s w => writeReg w s) s = seqMicro m s := f
  have k := tick_seq h1 h2 h3 hh ht
  cases ws with
  | nil =>
    refine ⟨1, ?_⟩
    rw [← f', fineCore_run_succ _ k]
    simp only [seqTick, hw, List.map_nil, List.foldl_nil]
    rfl
  | cons w ws =>
    have r := ticks_writes (w :: ws) ms { s with todo := (w :: ws).map .write ++ ms } h1 h2 h3 hh rfl
    have k2 : tick { s with todo := (w :: ws).map .write ++ ms } =
        .next (seqTick (.write w) (ws.map .write ++ ms) { s with todo := (w :: ws).map .write ++ ms }) :=
      tick_seq h1 h2 h3 hh rfl
    have e : seqTick m ms s = seqTick (.write w) (ws.map .write ++ ms) { s with todo := (w :: ws).map .write ++ ms } := by
      unfold seqTick
      rw [hw]
      rfl
    refine ⟨(w :: ws).length, ?_⟩
    rw [List.length_cons, fineCore_run_succ _ k, e]
    rw [List.length_cons, fineCore_run_succ _ k2] at r
    rw [r, ← f', writes_todo]

end Sys2Proof.Machine
end

