-- ==== Sys2Proof/Laws/Screen.lean ====
section
/-! SUPPORT. Laws/Screen.lean: a painted window as a patch laid over the screen, the screen being what may be said of the
cells of GRAM. -/

namespace Sys2Proof.Machine

/-- A window and the pixels that fill it. -/
structure Patch where
  box : Box
  pixels : List Pixel

/-- The patch laid over a screen. -/
def Patch.over (c : Cfg) (P : Patch) (f : Nat → Nat → Option Pixel) (row col : Nat) : Option Pixel :=
  if CellIn c P.box row col then
    (P.pixels[(row - phys c P.box.y) * P.box.w + (col - phys c P.box.x)]?).map wirev
  else f row col

/-- Patches laid over a screen, the first first. -/
def overlay (c : Cfg) (Ps : List Patch) (f : Nat → Nat → Option Pixel) : Nat → Nat → Option Pixel :=
  Ps.foldl (fun g P => P.over c g) f

/-- The patch fits the usable area and has a pixel for each of its cells. -/
structure Patch.Fits (c : Cfg) (P : Patch) : Prop where
  window : WindowOk c P.box.x P.box.y P.box.w P.box.h
  length : P.pixels.length = P.box.w * P.box.h

theorem overlay_append (c : Cfg) (a b : List Patch) (f : Nat → Nat → Option Pixel) :
    overlay c (a ++ b) f = overlay c b (overlay c a f) := by simp [overlay]

/-- A cell outside every patch is as before. -/
theorem overlay_outside {c : Cfg} {row col : Nat} (Ps : List Patch) (h : ∀ P ∈ Ps, ¬ CellIn c P.box row col) :
    ∀ f, overlay c Ps f row col = f row col := by
  induction Ps with
  | nil => intro f; rfl
  | cons P Ps ih =>
    intro f
    have h1 := h P (by simp)
    change overlay c Ps (P.over c f) row col = _
    rw [ih (fun Q hQ => h Q (by simp [hQ])), Patch.over, if_neg h1]

/-- Laying patches is done cell by cell. -/
theorem overlay_congr {c : Cfg} {row col : Nat} (Ps : List Patch) :
    ∀ {f g : Nat → Nat → Option Pixel}, f row col = g row col → overlay c Ps f row col = overlay c Ps g row col := by
  induction Ps with
  | nil => intro f g h; exact h
  | cons P Ps ih =>
    intro f g h
    refine ih (f := P.over c f) (g := P.over c g) ?_
    unfold Patch.over
    split
    · rfl
    · exact h

/-- A cell under some patch does not depend on what lay below. -/
theorem overlay_covered {c : Cfg} {row col : Nat} (Ps : List Patch) {P : Patch} (hP : P ∈ Ps)
    (h : CellIn c P.box row col) : ∀ f g, overlay c Ps f row col = overlay c Ps g row col := by
  induction Ps with
  | nil => cases hP
  | cons Q Ps ih =>
    intro f g
    rcases List.mem_cons.mp hP with rfl | h'
    · refine overlay_congr Ps (f := P.over c f) (g := P.over c g) ?_
      rw [Patch.over, Patch.over, if_pos h, if_pos h]
    · exact ih h' (Q.over c f) (Q.over c g)

/-- Laying the same patches twice is laying them once. -/
theorem overlay_overlay (c : Cfg) (Ps : List Patch) (f : Nat → Nat → Option Pixel) (row col : Nat) :
    overlay c Ps (overlay c Ps f) row col = overlay c Ps f row col := by
  by_cases k : ∃ P ∈ Ps, CellIn c P.box row col
  · obtain ⟨P, hP, h⟩ := k
    exact overlay_covered Ps hP h _ _
  · exact overlay_outside Ps (fun P hP h => k ⟨P, hP, h⟩) _

/-! ## The panel -/

/-- The panel is good, inside no stream, and in the mode CONFIGURE sets. -/
structure Panel.Ready (c : Cfg) (p : Panel) : Prop where
  good : p.bad = false
  closed : p.streamOpen c = false
  fmt : p.fmt = some c.colmod16bit
  orient : p.orient = some c.madctlValue

/-- The panel's window is the box. -/
structure Panel.HasWindow (c : Cfg) (b : Box) (p : Panel) : Prop where
  xs : p.xs = some (phys c b.x)
  xe : p.xe = some (phys c (b.x + b.w - 1))
  ys : p.ys = some (phys c b.y)
  ye : p.ye = some (phys c (b.y + b.h - 1))

/-- The memory-write command on a panel with a window and no open stream (20_memory.md R53). -/
theorem panelEvents_ramwr {c : Cfg} (wf : c.WellFormed) {p : Panel} (hs : p.streamOpen c = false) {xs xe ys ye : Nat}
    (h1 : p.xs = some xs) (h2 : p.xe = some xe) (h3 : p.ys = some ys) (h4 : p.ye = some ye) :
    panelEvents c p (cmdTrace c.cmdRamwr) =
      { p with cmd := some c.cmdRamwr, args := [], half := none, cursor := .cell xs ys } := by
  have k := panelCommand_code wf .ramwr p
  simp only [Cfg.code] at k
  rw [panelEvents_cmd, k]
  simp only [panelCmd, panelRamwr, h1, h2, h3, h4, Panel.enter, hs, Bool.or_false]

/-- A window painted on a ready panel (20_memory.md R44, R56, R57). -/
theorem panelEvents_paint {c : Cfg} (wf : c.WellFormed) {P : Patch} (ft : P.Fits c) {p : Panel} (r : p.Ready c) :
    let q := panelEvents c p (paintTrace c P.box.x P.box.y P.box.w P.box.h P.pixels)
    q.Ready c ∧ q.HasWindow c P.box ∧ q.on = p.on ∧ (p.gram.wf = true → q.gram.wf = true) ∧
      ∀ row col, q.gramCell c row col = P.over c (p.gramCell c) row col := by
  obtain ⟨⟨x, y, w, h⟩, px⟩ := P
  obtain ⟨ok, hl⟩ := ft
  simp only at ok hl ⊢
  have hp := ok.phys_lt wf
  have hw : 0 < w := ok.1
  have hh : 0 < h := ok.2.1
  have hn : 0 < w * h := Nat.mul_pos hw hh
  have e1 : phys c (x + w - 1) = phys c x + w - 1 := by unfold phys; omega
  have e2 : phys c (y + h - 1) = phys c y + h - 1 := by unfold phys; omega
  rw [paintTrace, streamTrace, panelEvents_append, panelEvents_append, panelEvents_win wf r.good r.closed ok,
    panelEvents_ramwr wf (streamOpen_of_cmd wf .raset (by decide) rfl) rfl rfl rfl rfl]
  set p1 : Panel := { p with
    cmd := some c.cmdRamwr, args := [], half := none, xs := some (phys c x), xe := some (phys c (x + w - 1)),
    ys := some (phys c y), ye := some (phys c (y + h - 1)), cursor := .cell (phys c x) (phys c y) } with hp1
  have st : p1.Streaming c (phys c x) (phys c y) w h 0 :=
    ⟨r.good, rfl, rfl, r.fmt, r.orient, rfl, by rw [← e1], rfl, by rw [← e2], by simp [hp1, cursorAt, hn]⟩
  change let q := panelEvents c p1 (px.flatMap pixTrace); _
  rw [st.pixels wf px (by omega)]
  refine ⟨⟨r.good, ?_, r.fmt, r.orient⟩, ⟨rfl, rfl, rfl, rfl⟩, rfl, fun hg => paintFrom_wf _ _ _ _ _ _ _ hg, ?_⟩
  · simp [Panel.streamOpen, cursorAt, hl, hp1]
  · intro row col
    rw [gramCell_eq, Patch.over, gramCell_eq]
    have hb : p1.bad = false := r.good
    simp only [hb, r.good, Bool.false_or]
    by_cases hin : row < c.nativeRows ∧ col < c.nativeCols
    · have hB : (!(decide (row < c.nativeRows) && decide (col < c.nativeCols))) = false := by simp [hin.1, hin.2]
      simp only [hB, Bool.false_eq_true, if_false]
      rw [cellAt_paintFrom hw (by omega) _ _ _ _ _ hin.2, hl]
      have e3 : phys c (x + w) = phys c x + w := by unfold phys; omega
      have e4 : phys c (y + h) = phys c y + h := by unfold phys; omega
      by_cases hc : CellIn c ⟨x, y, w, h⟩ row col
      · have hc' := hc
        obtain ⟨c1, c2, c3, c4⟩ := hc
        simp only [e3, e4] at c2 c4
        have : (row - phys c y) * w + (col - phys c x) < w * h := by
          have := Nat.mul_le_mul_right w (show row - phys c y + 1 ≤ h by omega)
          rw [Nat.add_mul, Nat.mul_comm h w] at this
          omega
        rw [if_pos ⟨c1, c3, by omega, by omega, by omega⟩, if_pos hc', Nat.sub_zero]
      · rw [if_neg, if_neg hc]
        rintro ⟨d1, d2, d3, -, d5⟩
        apply hc
        refine ⟨d1, ?_, d2, by simp only [e3]; omega⟩
        simp only [e4]
        by_contra hr
        have := Nat.mul_le_mul_right w (show h ≤ row - phys c y by omega)
        rw [Nat.mul_comm h w] at this
        omega
    · have hB : (!(decide (row < c.nativeRows) && decide (col < c.nativeCols))) = true := by
        rw [Bool.not_eq_true', Bool.and_eq_false_iff, decide_eq_false_iff_not, decide_eq_false_iff_not]
        omega
      have hc : ¬ CellIn c ⟨x, y, w, h⟩ row col := by
        rintro ⟨c1, c2, c3, c4⟩
        simp only [phys] at c2 c4 hp
        omega
      simp only [hB, if_true, if_neg hc]

end Sys2Proof.Machine
end

