-- ==== Sys2Proof/Laws/Draw.lean ====
section
/-! SUPPORT. Laws/Draw.lean: every drawing procedure seen at once from SEQ and from the PANEL: the events it puts on WIRE, the
halt it ends in if it ends in one, and the patches it lays over the screen, all fixed by CFG and the operands. -/

namespace Sys2Proof.Machine

/-- What a drawing procedure that puts `es` on WIRE and lays `Ps` over the screen may do to a state. -/
structure Drawn (c : Cfg) (es : List Event) (Ps : List Patch) (s t : State) : Prop where
  trace : t.wire = s.wire ++ es
  panel : t.panel = panelEvents c s.panel es
  cfg : t.cfg = s.cfg
  streaming : t.streaming = false
  pstate : t.pstate = s.pstate
  dcx : s.dcx = true → t.dcx = true
  ready : s.panel.Ready c → t.panel.Ready c
  screen : s.panel.Ready c → ∀ row col, t.panel.gramCell c row col = overlay c Ps (s.panel.gramCell c) row col
  window : s.panel.Ready c → (s.winValid = true → SameWindow s) → t.winValid = true → SameWindow t

/-- The actions `ms` draw: with every transfer performed they put `es` on WIRE, lay `Ps` over the screen, and end in the
halt `k`, or complete if `k` is none. -/
structure Draws (c : Cfg) (ms : List Micro) (k : Option Cause) (es : List Event) (Ps : List Patch) : Prop where
  fits : ∀ P ∈ Ps, P.Fits c
  run : ∀ s, Live s → s.cfg = c → s.streaming = false → ∃ t, Drawn c es Ps s t ∧
    (k = none → Runs ms s t ∧ Live t) ∧ (∀ x, k = some x → Stops ms s t ∧ t.halted = true ∧ t.haltCause = x)

theorem Drawn.refl {c : Cfg} {s : State} (h : s.streaming = false) : Drawn c [] [] s s where
  trace := by simp
  panel := rfl
  cfg := rfl
  streaming := h
  pstate := rfl
  dcx := id
  ready := id
  screen := fun _ _ _ => rfl
  window := fun _ h => h

theorem Drawn.trans {c : Cfg} {ea eb : List Event} {Pa Pb : List Patch} {s t u : State} (a : Drawn c ea Pa s t)
    (b : Drawn c eb Pb t u) : Drawn c (ea ++ eb) (Pa ++ Pb) s u where
  trace := by rw [b.trace, a.trace, List.append_assoc]
  panel := by rw [b.panel, a.panel, panelEvents_append]
  cfg := b.cfg.trans a.cfg
  streaming := b.streaming
  pstate := b.pstate.trans a.pstate
  dcx := fun h => b.dcx (a.dcx h)
  ready := fun h => b.ready (a.ready h)
  screen := fun h row col => by
    rw [b.screen (a.ready h), overlay_append]
    exact overlay_congr _ (a.screen h row col)
  window := fun h w => b.window (a.ready h) (a.window h w)

theorem Draws.nil (c : Cfg) : Draws c [] none [] [] where
  fits := by simp
  run := fun s l _ h => ⟨s, Drawn.refl h, fun _ => ⟨Runs.nil s, l⟩, fun _ h => by cases h⟩

theorem Draws.append {c : Cfg} {a b : List Micro} {k : Option Cause} {ea eb : List Event} {Pa Pb : List Patch}
    (ha : Draws c a none ea Pa) (hb : Draws c b k eb Pb) : Draws c (a ++ b) k (ea ++ eb) (Pa ++ Pb) where
  fits := fun P h => (List.mem_append.mp h).elim (ha.fits P) (hb.fits P)
  run := fun s l hc hs => by
    obtain ⟨t, d, h1, -⟩ := ha.run s l hc hs
    obtain ⟨r, lt⟩ := h1 rfl
    obtain ⟨u, e, g1, g2⟩ := hb.run t lt (d.cfg.trans hc) d.streaming
    exact ⟨u, d.trans e, fun hk => ⟨r.append (g1 hk).1, (g1 hk).2⟩, fun x hx =>
      ⟨r.stops (g2 x hx).1, (g2 x hx).2⟩⟩

theorem Draws.append_halt {c : Cfg} {a : List Micro} {x : Cause} {ea : List Event} {Pa : List Patch}
    (ha : Draws c a (some x) ea Pa) (b : List Micro) : Draws c (a ++ b) (some x) ea Pa where
  fits := ha.fits
  run := fun s l hc hs => by
    obtain ⟨t, d, -, h2⟩ := ha.run s l hc hs
    exact ⟨t, d, fun h => by (cases h), fun y hy => ⟨(h2 y hy).1.append b, (h2 y hy).2⟩⟩

/-- The actions draw something, and end somehow. -/
def Drawing (c : Cfg) (ms : List Micro) : Prop := ∃ k es Ps, Draws c ms k es Ps

theorem Drawing.append {c : Cfg} {a b : List Micro} (ha : Drawing c a) (hb : Drawing c b) : Drawing c (a ++ b) := by
  obtain ⟨ka, ea, Pa, da⟩ := ha
  obtain ⟨kb, eb, Pb, db⟩ := hb
  cases ka with
  | none => exact ⟨kb, _, _, da.append db⟩
  | some x => exact ⟨some x, _, _, da.append_halt b⟩

theorem Drawing.flatMap {α : Type} {c : Cfg} {f : α → List Micro} (as : List α) (h : ∀ a, Drawing c (f a)) :
    Drawing c (as.flatMap f) := by
  induction as with
  | nil => exact ⟨_, _, _, Draws.nil c⟩
  | cons a as ih => exact (h a).append ih

theorem Draws.flatMap {α : Type} {c : Cfg} {f : α → List Micro} {e : α → List Event} {P : α → List Patch} (as : List α)
    (h : ∀ a ∈ as, Draws c (f a) none (e a) (P a)) : Draws c (as.flatMap f) none (as.flatMap e) (as.flatMap P) := by
  induction as with
  | nil => exact Draws.nil c
  | cons a as ih => exact (h a (by simp)).append (ih fun b hb => h b (by simp [hb]))

/-- A check that passes in every state draws nothing. -/
theorem Draws.check {c : Cfg} {q : Check} (h : ∀ s : State, s.cfg = c → q.passes s = true) :
    Draws c [.require q] none [] [] where
  fits := by simp
  run := fun s l hc hs => ⟨s, Drawn.refl hs, fun _ => ⟨Runs.check l (h s hc), l⟩, fun _ h => by cases h⟩

/-- A check that fails in every state halts. -/
theorem Draws.failing {c : Cfg} {q : Check} (h : ∀ s : State, s.cfg = c → q.passes s = false) :
    Draws c [.require q] (some q.cause) [] [] where
  fits := by simp
  run := fun s _ hc hs => ⟨raiseHalt q.cause s,
    ⟨by simp, rfl, rfl, hs, rfl, id, id, fun _ _ _ => rfl, fun _ h => h⟩,
    fun h => by (cases h), fun x hx => ⟨Stops.check (h s hc), rfl, Option.some.inj hx⟩⟩

/-- DHE's window and the panel's are the same after both were given a window that fits (20_memory.md R44). -/
theorem sameWindow_of_painted {c : Cfg} (wf : c.WellFormed) {x y w h : Nat} (ok : WindowOk c x y w h) {t : State}
    (hc : t.cfg = c) (hw : t.win = windowOf x y w h) (hp : t.panel.HasWindow c ⟨x, y, w, h⟩) : SameWindow t := by
  have k := ok.phys_lt wf
  have h1 := wf.1.2
  have h2 := wf.2.1.2
  obtain ⟨o1, o2, -, -⟩ := ok
  simp only [phys] at k
  refine ⟨hp.xs.trans ?_, hp.xe.trans ?_, hp.ys.trans ?_, hp.ye.trans ?_⟩ <;>
    simp only [hw, windowOf, hc, BitVec.toNat_ofNat, phys] <;> congr 1 <;> omega

/-- A painted window (43_glyph_rasterizer.md R141, 44_line_primitive.md R151). -/
theorem drawn_painted {c : Cfg} (wf : c.WellFormed) {P : Patch} (ft : P.Fits c) {s t : State} (hc : s.cfg = c)
    (h : ∃ b, t = { painted P.box.x P.box.y P.box.w P.box.h
      (emitAll (paintTrace c P.box.x P.box.y P.box.w P.box.h P.pixels) s) with rasterBuf := b }) :
    Drawn c (paintTrace c P.box.x P.box.y P.box.w P.box.h P.pixels) [P] s t := by
  obtain ⟨b, rfl⟩ := h
  have e : ∀ u : State, u = { painted P.box.x P.box.y P.box.w P.box.h
      (emitAll (paintTrace c P.box.x P.box.y P.box.w P.box.h P.pixels) s) with rasterBuf := b } →
      u.panel = panelEvents c s.panel (paintTrace c P.box.x P.box.y P.box.w P.box.h P.pixels) := by
    rintro u rfl; simp only [painted, emitAll, hc]
  exact ⟨rfl, e _ rfl, rfl, rfl, rfl, fun _ => rfl,
    fun r => by rw [e _ rfl]; exact (panelEvents_paint wf ft r).1,
    fun r row col => by rw [e _ rfl]; exact (panelEvents_paint wf ft r).2.2.2.2 row col,
    fun r _ _ => sameWindow_of_painted wf ft.window hc rfl (by rw [e _ rfl]; exact (panelEvents_paint wf ft r).2.1)⟩

/-! ## The drawing procedures -/

/-- The patch of a character. -/
def charPatch (c : Cfg) (x y : Nat) (code : Byte) (color : Pixel) (scale : Nat) : Patch :=
  ⟨⟨x, y, 8 * scale, 8 * scale⟩, raster c code color scale⟩

theorem charPatch_fits {c : Cfg} {x y : Nat} {code : Byte} {color : Pixel} {scale : Nat}
    (ok : charHalt c x y code scale = none) : (charPatch c x y code color scale).Fits c :=
  ⟨(charHalt_none.mp ok).2.2, by simp [charPatch, raster]⟩

/-- `draw_character` with every check passed. -/
theorem draws_character {c : Cfg} (wf : c.WellFormed) {x y : Nat} {code : Byte} {color : Pixel} {scale : Nat}
    (ok : charHalt c x y code scale = none) :
    Draws c (drawCharacterBody c x y code color scale) none (charTrace c x y code color scale)
      [charPatch c x y code color scale] where
  fits := by simpa using charPatch_fits ok
  run := fun s l hc hs => ⟨_, drawn_painted wf (charPatch_fits ok) hc ⟨[], rfl⟩,
    fun _ => ⟨runs_character l hc wf ok, (l.emitAll _).drawn x y scale⟩, fun _ h => by cases h⟩

/-- `draw_character` with a failing check. -/
theorem draws_character_halt {c : Cfg} {x y : Nat} {code : Byte} {color : Pixel} {scale : Nat} {k : Cause}
    (bad : charHalt c x y code scale = some k) : Draws c (drawCharacterBody c x y code color scale) (some k) [] [] where
  fits := by simp
  run := fun s l hc hs => ⟨raiseHalt k s,
    ⟨by simp, rfl, rfl, hs, rfl, id, id, fun _ _ _ => rfl, fun _ h => h⟩,
    fun h => by (cases h), fun x hx => ⟨stops_character l.quiet hc bad, rfl, Option.some.inj hx⟩⟩

theorem drawing_character {c : Cfg} (wf : c.WellFormed) (x y : Nat) (code : Byte) (color : Pixel) (scale : Nat) :
    Drawing c (drawCharacterBody c x y code color scale) := by
  cases h : charHalt c x y code scale with
  | none => exact ⟨_, _, _, draws_character wf h⟩
  | some k => exact ⟨_, _, _, draws_character_halt h⟩

/-- The patches of a string. -/
def stringPatches (c : Cfg) (color : Pixel) (scale : Nat) : List Byte → Nat → Nat → List Patch
  | [], _, _ => []
  | code :: text, x, y =>
    charPatch c x y code color scale :: stringPatches c color scale text (charX c x 1 scale) (charY c y 1 scale)

/-- Each patch of a string is one of its characters' boxes. -/
theorem mem_stringPatches {c : Cfg} {color : Pixel} {scale : Nat} (text : List Byte) :
    ∀ {x y : Nat} {P : Patch}, P ∈ stringPatches c color scale text x y →
      ∃ k < text.length, P.box = ⟨charX c x k scale, charY c y k scale, 8 * scale, 8 * scale⟩ := by
  induction text with
  | nil => intro x y P h; cases h
  | cons code text ih =>
    intro x y P h
    rcases List.mem_cons.mp h with rfl | h
    · exact ⟨0, Nat.succ_pos _, by simp [charPatch]⟩
    · obtain ⟨k, hk, e⟩ := ih h
      exact ⟨k + 1, Nat.succ_lt_succ hk, by rw [e, charX_succ c x k, charY_succ c y k]⟩

/-- `draw_string` with every character's checks passed. -/
theorem draws_string {c : Cfg} (wf : c.WellFormed) {color : Pixel} {scale : Nat} (text : List Byte) :
    ∀ {x y : Nat}, StringOk c scale text x y →
      Draws c (drawStringBody c color scale text x y) none (stringTrace c color scale text x y)
        (stringPatches c color scale text x y) := by
  induction text with
  | nil => intro x y _; exact Draws.nil c
  | cons code text ih =>
    intro x y ok
    obtain ⟨h1, h2⟩ := StringOk.cons.mp ok
    rw [drawStringBody_cons, stringTrace_cons]
    exact (draws_character wf h1).append (ih h2)

theorem drawing_string {c : Cfg} (wf : c.WellFormed) (color : Pixel) (scale : Nat) (text : List Byte) :
    ∀ x y : Nat, Drawing c (drawStringBody c color scale text x y) := by
  induction text with
  | nil => intro x y; exact ⟨_, _, _, Draws.nil c⟩
  | cons code text ih =>
    intro x y
    rw [drawStringBody_cons]
    exact (drawing_character wf x y code color scale).append (ih _ _)

/-- The patch of a line. -/
def linePatch (l : Line) : Patch :=
  if l.xs = l.xe then ⟨⟨l.xs, l.ys, 1, l.ye - l.ys⟩, List.replicate (l.ye - l.ys) l.color⟩
  else ⟨⟨l.xs, l.ys, l.xe - l.xs, 1⟩, List.replicate (l.xe - l.xs) l.color⟩

theorem linePatch_box (l : Line) : (linePatch l).box = l.box := by
  unfold linePatch Line.box; split <;> rfl

theorem linePatch_fits {c : Cfg} {l : Line} (ok : LineOk c l.xs l.ys l.xe l.ye) : (linePatch l).Fits c := by
  unfold linePatch
  rcases ok with ⟨h1, h2, h3⟩ | ⟨h1, h2, h3⟩
  · rw [if_pos h1]; exact ⟨h3, by simp⟩
  · rw [if_neg (by omega)]; exact ⟨h3, by simp⟩

theorem lineTrace_eq (c : Cfg) (l : Line) : lineTrace c l.xs l.ys l.xe l.ye l.color =
    paintTrace c (linePatch l).box.x (linePatch l).box.y (linePatch l).box.w (linePatch l).box.h (linePatch l).pixels := by
  unfold lineTrace linePatch; split <;> rfl

/-- `draw_line` with every check passed. -/
theorem draws_line {c : Cfg} (wf : c.WellFormed) {l : Line} (ok : LineOk c l.xs l.ys l.xe l.ye) :
    Draws c (drawLineBody c l.xs l.ys l.xe l.ye l.color) none (lineTrace c l.xs l.ys l.xe l.ye l.color) [linePatch l] where
  fits := by simpa using linePatch_fits ok
  run := fun s lv hc hs => by
    refine ⟨lineDrawn l.xs l.ys l.xe l.ye (emitAll (lineTrace c l.xs l.ys l.xe l.ye l.color) s), ?_,
      fun _ => ⟨runs_line lv hc wf ok, ?_⟩, fun _ h => by cases h⟩
    · rw [lineTrace_eq]
      refine drawn_painted wf (linePatch_fits ok) hc ⟨s.rasterBuf, ?_⟩
      unfold linePatch lineDrawn
      split <;> rfl
    · unfold lineDrawn
      split <;> exact ⟨lv.1, lv.2, lv.3, (lv.emitAll _).4⟩

/-- The halt `draw_line` ends in, if its checks do not all pass (60_exceptions.md R174). -/
def lineHalt (c : Cfg) (xs ys xe ye : Nat) : Option Cause :=
  if (xs = xe ∧ ys = ye) ∨ (xs ≠ xe ∧ ys ≠ ye) then some .lineInvalid
  else if xs = xe then if ys < ye ∧ WindowOk c xs ys 1 (ye - ys) then none else some .windowInvalid
  else if xs < xe ∧ WindowOk c xs ys (xe - xs) 1 then none else some .windowInvalid

theorem lineHalt_none {c : Cfg} {xs ys xe ye : Nat} : lineHalt c xs ys xe ye = none ↔ LineOk c xs ys xe ye := by
  have aux : ∀ {A B : Prop} [Decidable A] [Decidable B],
      (if (xs = xe ∧ ys = ye) ∨ (xs ≠ xe ∧ ys ≠ ye) then some Cause.lineInvalid
        else if xs = xe then if ys < ye ∧ A then none else some .windowInvalid
        else if xs < xe ∧ B then none else some .windowInvalid) = none ↔
      (xs = xe ∧ ys < ye ∧ A) ∨ (ys = ye ∧ xs < xe ∧ B) := by
    intro A B _ _
    by_cases h1 : xs = xe <;> by_cases h2 : ys = ye <;> simp [h1, h2]
  exact aux

/-- `draw_line` with a failing check touches nothing and halts (44_line_primitive.md R151). -/
theorem stops_line {c : Cfg} {xs ys xe ye : Nat} {color : Pixel} {s : State} {k : Cause} (l : Quiet s) (hc : s.cfg = c)
    (bad : lineHalt c xs ys xe ye = some k) : Stops (drawLineBody c xs ys xe ye color) s (raiseHalt k s) := by
  unfold lineHalt at bad
  unfold drawLineBody
  by_cases h1 : (xs = xe ∧ ys = ye) ∨ (xs ≠ xe ∧ ys ≠ ye)
  · rw [if_pos h1] at bad
    obtain rfl := Option.some.inj bad
    exact (Stops.check (k := .axisAligned xs ys xe ye) (by simp [Check.passes]; omega)).append _
  · rw [if_neg h1] at bad
    refine Runs.stops_cons (Runs.test l (by simp [Check.passes]; omega)) ?_
    by_cases h2 : xs = xe
    · rw [if_pos h2] at bad
      rw [if_pos h2]
      split at bad
      · cases bad
      · rename_i h3
        obtain rfl := Option.some.inj bad
        by_cases h4 : ys < ye
        · exact Runs.stops_cons (Runs.test l (by simp [Check.passes]; omega))
            ((stops_window hc fun h5 => h3 ⟨h4, h5⟩).append _)
        · exact (Stops.check (k := .startFirst ys ye) (by simp [Check.passes]; omega)).append _
    · rw [if_neg h2] at bad
      rw [if_neg h2]
      split at bad
      · cases bad
      · rename_i h3
        obtain rfl := Option.some.inj bad
        by_cases h4 : xs < xe
        · exact Runs.stops_cons (Runs.test l (by simp [Check.passes]; omega))
            ((stops_window hc fun h5 => h3 ⟨h4, h5⟩).append _)
        · exact (Stops.check (k := .startFirst xs xe) (by simp [Check.passes]; omega)).append _

theorem drawing_line {c : Cfg} (wf : c.WellFormed) (l : Line) :
    Drawing c (drawLineBody c l.xs l.ys l.xe l.ye l.color) := by
  cases h : lineHalt c l.xs l.ys l.xe l.ye with
  | none => exact ⟨_, _, _, draws_line wf (lineHalt_none.mp h)⟩
  | some k =>
    exact ⟨some k, [], [], by simp, fun s lv hc hs => ⟨raiseHalt k s,
      ⟨by simp, rfl, rfl, hs, rfl, id, id, fun _ _ _ => rfl, fun _ h => h⟩,
      fun h => by (cases h), fun x hx => ⟨stops_line lv.quiet hc h, rfl, Option.some.inj hx⟩⟩⟩

/-- `value` (45_display_session.md R163). -/
theorem drawing_value {c : Cfg} (wf : c.WellFormed) (q : QuantitySlots) (t10 : Nat) (symbol : Byte) :
    Drawing c (valueBody c q t10 symbol) :=
  ((drawing_string wf _ _ _ _ _).append (drawing_character wf _ _ _ _ _)).append (drawing_character wf _ _ _ _ _)

/-- `refresh` (45_display_session.md R163). -/
theorem drawing_refresh {c : Cfg} (wf : c.WellFormed) (it ih ot oh : Int) : Drawing c (refreshBody c it ih ot oh) := by
  refine Drawing.append (a := [_]) ?_ ((((drawing_value wf _ _ _).append (drawing_value wf _ _ _)).append
    (drawing_value wf _ _ _)).append (drawing_value wf _ _ _))
  by_cases h : 0 ≤ it ∧ 0 ≤ ih ∧ 0 ≤ ot ∧ 0 ≤ oh
  · exact ⟨_, _, _, Draws.check fun s _ => by simp [Check.passes, h]⟩
  · exact ⟨_, _, _, Draws.failing fun s _ => by
      simp only [Check.passes, Bool.and_eq_false_iff, decide_eq_false_iff_not]; omega⟩

end Sys2Proof.Machine
end

