-- ==== Sys2Proof/Laws/Layout.lean ====
section
/-! SUPPORT. Laws/Layout.lean: what a well-formed LAYOUT gives INIT and REFRESH (45_display_session.md R160, R162): digits,
strings that stay in their boxes, lines that draw. -/

namespace Sys2Proof.Machine

/-! ## Digits -/

theorem digitsAux_lt (fuel : Nat) : ∀ (m : Nat) (acc : List Nat), m ≤ fuel → (∀ d ∈ acc, d < 10) →
    ∀ d ∈ digitsAux fuel m acc, d < 10 := by
  induction fuel with
  | zero =>
    intro m acc h ha d hd
    simp only [digitsAux, List.mem_cons] at hd
    rcases hd with rfl | hd
    · omega
    · exact ha d hd
  | succ fuel ih =>
    intro m acc h ha d hd
    simp only [digitsAux] at hd
    split at hd
    · rcases List.mem_cons.mp hd with rfl | hd
      · assumption
      · exact ha d hd
    · exact ih (m / 10) (m % 10 :: acc) (by omega) (by
        intro e he
        rcases List.mem_cons.mp he with rfl | he
        · omega
        · exact ha e he) d hd

/-- Every digit is one (45_display_session.md R162). -/
theorem digits_lt {m d : Nat} (h : d ∈ digits m) : d < 10 := digitsAux_lt m m [] le_rfl (by simp) d h

theorem digitsAux_length (fuel : Nat) : ∀ (k m : Nat) (acc : List Nat), m ≤ fuel → m < 10 ^ (k + 1) →
    (digitsAux fuel m acc).length ≤ acc.length + (k + 1) := by
  induction fuel with
  | zero => intro k m acc _ _; simp [digitsAux]
  | succ fuel ih =>
    intro k m acc h hk
    simp only [digitsAux]
    split
    · simp
    · cases k with
      | zero => omega
      | succ k =>
        have := ih k (m / 10) (m % 10 :: acc) (by omega) (by rw [Nat.pow_succ] at hk; omega)
        simp only [List.length_cons] at this
        omega

/-- A number below 1000 has at most three digits. -/
theorem digits_length {m : Nat} (h : m < 1000) : (digits m).length ≤ 3 := by
  have := digitsAux_length m 2 m [] le_rfl (by simpa using h)
  simpa [digits] using this

/-- The value a list of digits writes, most significant first. -/
def ofDigits (ds : List Nat) : Nat := ds.foldl (fun a d => 10 * a + d) 0

theorem ofDigits_foldl (ds : List Nat) : ∀ a, ds.foldl (fun a d => 10 * a + d) a = a * 10 ^ ds.length + ofDigits ds := by
  induction ds with
  | nil => intro a; simp [ofDigits]
  | cons d ds ih =>
    intro a
    simp only [ofDigits, List.foldl_cons, List.length_cons]
    rw [ih (10 * a + d), ih (10 * 0 + d), pow_succ]
    ring

theorem ofDigits_digitsAux (fuel : Nat) : ∀ (m : Nat) (acc : List Nat), m ≤ fuel →
    ofDigits (digitsAux fuel m acc) = m * 10 ^ acc.length + ofDigits acc := by
  have hcons : ∀ (d : Nat) (ds : List Nat), ofDigits (d :: ds) = d * 10 ^ ds.length + ofDigits ds := by
    intro d ds
    have := ofDigits_foldl ds (10 * 0 + d)
    simpa [ofDigits] using this
  induction fuel with
  | zero => intro m acc h; simp [digitsAux, hcons]
  | succ fuel ih =>
    intro m acc h
    simp only [digitsAux]
    split
    · rw [hcons]
    · rw [ih _ _ (by omega), hcons, List.length_cons, pow_succ]
      have := Nat.div_add_mod m 10
      calc m / 10 * (10 ^ acc.length * 10) + (m % 10 * 10 ^ acc.length + ofDigits acc)
          = (10 * (m / 10) + m % 10) * 10 ^ acc.length + ofDigits acc := by ring
        _ = m * 10 ^ acc.length + ofDigits acc := by rw [this]

/-- `digits(m)` are the digits of m (45_display_session.md R162). -/
theorem ofDigits_digits (m : Nat) : ofDigits (digits m) = m := by
  have := ofDigits_digitsAux m m [] le_rfl
  simpa [digits, ofDigits] using this

/-- A digit's character code is in the font (00_scope.md R2). -/
theorem digitCode_inFont {c : Cfg} (wf : c.WellFormed) {d : Nat} (h : d < 10) : c.InFont (digitCode c d) := by
  obtain ⟨-, -, -, -, -, -, ⟨h1, h2⟩, -, -⟩ := wf
  have h3 := c.fontLast.isLt
  have : (digitCode c d).toNat = c.digitBase.toNat + d := by
    simp only [digitCode, BitVec.toNat_add, BitVec.toNat_ofNat]
    omega
  unfold Cfg.InFont
  omega

theorem istring_inFont {c : Cfg} (wf : c.WellFormed) (t10 : Nat) : ∀ code ∈ istring c t10, c.InFont code := by
  intro code h
  obtain ⟨d, hd, rfl⟩ := List.mem_map.mp h
  exact digitCode_inFont wf (digits_lt hd)

theorem istring_length {c : Cfg} {t10 : Nat} (h : t10 < 10000) : (istring c t10).length ≤ 3 := by
  simpa [istring] using digits_length (show ipart t10 < 1000 by unfold ipart; omega)

theorem dchar_inFont {c : Cfg} (wf : c.WellFormed) (t10 : Nat) : c.InFont (dchar c t10) :=
  digitCode_inFont wf (by unfold dpart; omega)

/-! ## Strings in their boxes -/

/-- A string no longer than its box draws without a halt. -/
theorem stringOk_of_box {c : Cfg} {x y n scale : Nat} {text : List Byte} (hs : 1 ≤ scale) (hn : text.length ≤ n)
    (hf : ∀ code ∈ text, c.InFont code) (hb : (c.textBox x y n scale).Inside c) : StringOk c scale text x y := by
  intro k hk
  rw [charHalt_none]
  refine ⟨hs, hf _ (List.getElem_mem hk), ?_⟩
  have hn0 : n ≠ 0 := by omega
  have hle : (k + 1) * (8 * scale) ≤ n * (8 * scale) := Nat.mul_le_mul_right _ (by omega)
  rw [Nat.add_mul, Nat.one_mul] at hle
  unfold Cfg.textBox at hb
  unfold WindowOk charX charY
  cases ha : c.stringAxis <;> simp only [ha, if_neg hn0, Box.Inside, Box.Empty] at hb ⊢ <;>
    rcases hb with hb | hb <;> omega

/-- Every patch of a string lies in the string's box. -/
theorem stringPatches_box {c : Cfg} {color : Pixel} {scale : Nat} (text : List Byte) :
    ∀ {x y n : Nat}, text.length ≤ n → ∀ P ∈ stringPatches c color scale text x y, ∀ row col,
      CellIn c P.box row col → CellIn c (c.textBox x y n scale) row col := by
  induction text with
  | nil => intro x y n _ P hP; cases hP
  | cons code text ih =>
    intro x y n hn P hP row col hc
    simp only [List.length_cons] at hn
    obtain ⟨m, rfl⟩ : ∃ m, n = m + 1 := ⟨n - 1, by omega⟩
    have e : (m + 1) * (8 * scale) = m * (8 * scale) + 8 * scale := by ring
    rcases List.mem_cons.mp hP with rfl | hP
    · unfold CellIn charPatch phys at hc
      unfold CellIn Cfg.textBox phys
      cases c.stringAxis <;> simp only [Nat.add_one_ne_zero, if_false, e] at hc ⊢ <;>
        generalize m * (8 * scale) = q <;> omega
    · have := ih (n := m) (by omega) P hP row col hc
      unfold CellIn Cfg.textBox phys charX charY at this
      unfold CellIn Cfg.textBox phys
      cases ha : c.stringAxis <;> simp only [ha, Nat.add_one_ne_zero, if_false, e] at this ⊢ <;>
        generalize m * (8 * scale) = q at * <;> split at this <;> omega

/-! ## A well-formed LAYOUT -/

theorem stringOk_label {c : Cfg} (lw : c.LayoutWellFormed) {l : Label} (h : l ∈ c.layout.labels) :
    StringOk c l.scale l.text l.x l.y := by
  obtain ⟨-, h2, h3, h4⟩ := lw.1 l h
  exact stringOk_of_box h3 le_rfl h2 h4

theorem lineOk_of_drawable {c : Cfg} {l : Line} (h : l.Drawable c) : LineOk c l.xs l.ys l.xe l.ye := by
  obtain ⟨h1, h2, h3⟩ := h
  unfold Line.box at h2 h3
  unfold LineOk WindowOk
  rcases h1 with ⟨h1, h4⟩ | ⟨h1, h4⟩
  · simp only [if_pos h1] at h2 h3; omega
  · have : l.xs ≠ l.xe := by omega
    simp only [if_neg this] at h2 h3; omega

theorem lineOk_decoration {c : Cfg} (lw : c.LayoutWellFormed) {l : Line} (h : l ∈ c.layout.lines) :
    LineOk c l.xs l.ys l.xe l.ye := lineOk_of_drawable (lw.2.1 l h)

/-- The labels draw (45_display_session.md R161). -/
theorem draws_labels {c : Cfg} (wf : c.WellFormed) (lw : c.LayoutWellFormed) :
    Draws c (c.layout.labels.flatMap (labelBody c)) none
      (c.layout.labels.flatMap fun l => stringTrace c l.color l.scale l.text l.x l.y)
      (c.layout.labels.flatMap fun l => stringPatches c l.color l.scale l.text l.x l.y) :=
  Draws.flatMap _ fun _ h => draws_string wf _ (stringOk_label lw h)

/-- The decorative lines draw (45_display_session.md R161). -/
theorem draws_decorations {c : Cfg} (wf : c.WellFormed) (lw : c.LayoutWellFormed) :
    Draws c (c.layout.lines.flatMap (decorationBody c)) none
      (c.layout.lines.flatMap fun l => lineTrace c l.xs l.ys l.xe l.ye l.color)
      (c.layout.lines.flatMap fun l => [linePatch l]) :=
  Draws.flatMap _ fun _ h => draws_line wf (lineOk_decoration lw h)

/-- The registers of the stream and of the pins as every drawing procedure leaves them. -/
structure Settled (s : State) : Prop where
  valid : s.winValid = true
  line : s.dcx = true
  closed : s.streaming = false
  count : s.pxRemaining = 0

/-- The actions put `es` on WIRE from a settled state and write no register but the Draw Window and RASTER_BUF. -/
def Repaints (c : Cfg) (ms : List Micro) (es : List Event) : Prop :=
  ∀ s, Live s → s.cfg = c → Settled s →
    ∃ t, Runs ms s t ∧ Live t ∧ t = { emitAll es s with win := t.win, rasterBuf := t.rasterBuf }

theorem Repaints.nil (c : Cfg) : Repaints c [] [] := fun s l _ _ => ⟨s, Runs.nil s, l, by rw [emitAll_nil]⟩

theorem Repaints.append {c : Cfg} {a b : List Micro} {ea eb : List Event} (ha : Repaints c a ea) (hb : Repaints c b eb) :
    Repaints c (a ++ b) (ea ++ eb) := fun s l hc h => by
  obtain ⟨t, r, lt, e⟩ := ha s l hc h
  obtain ⟨u, r', lu, e'⟩ := hb t lt (by rw [e]; exact hc) (by rw [e]; exact ⟨h.1, h.2, h.3, h.4⟩)
  refine ⟨u, r.append r', lu, ?_⟩
  rw [← emitAll_emitAll]
  generalize hw : u.win = w at e' ⊢
  generalize hb : u.rasterBuf = b at e' ⊢
  rw [e', e]
  rfl

theorem Repaints.flatMap {α : Type} {c : Cfg} {f : α → List Micro} {e : α → List Event} (as : List α)
    (h : ∀ a ∈ as, Repaints c (f a) (e a)) : Repaints c (as.flatMap f) (as.flatMap e) := by
  induction as with
  | nil => exact Repaints.nil c
  | cons a as ih => exact (h a (by simp)).append (ih fun b hb => h b (by simp [hb]))

theorem repaints_string {c : Cfg} (wf : c.WellFormed) {color : Pixel} {scale x y : Nat} {text : List Byte}
    (ok : StringOk c scale text x y) :
    Repaints c (drawStringBody c color scale text x y) (stringTrace c color scale text x y) := fun s l hc h => by
  refine ⟨_, runs_string wf text x y s l hc ok, ?_, ?_⟩
  · cases text
    · exact l.emitAll _
    · exact ⟨l.1, l.2, l.3, (l.emitAll _).4⟩
  · cases text
    · rfl
    · apply State.ext <;> simp [stringDrawn, painted, h.1, h.2, h.3, h.4]

theorem repaints_line {c : Cfg} (wf : c.WellFormed) {color : Pixel} {xs ys xe ye : Nat} (ok : LineOk c xs ys xe ye) :
    Repaints c (drawLineBody c xs ys xe ye color) (lineTrace c xs ys xe ye color) := fun s l hc h => by
  refine ⟨_, runs_line l hc wf ok, ?_, ?_⟩ <;> unfold lineDrawn <;> split
  · exact ⟨l.1, l.2, l.3, (l.emitAll _).4⟩
  · exact ⟨l.1, l.2, l.3, (l.emitAll _).4⟩
  · apply State.ext <;> simp [painted, h.1, h.2, h.3, h.4]
  · apply State.ext <;> simp [painted, h.1, h.2, h.3, h.4]

/-- `init`'s labels and lines (45_display_session.md R161). -/
theorem repaints_init {c : Cfg} (wf : c.WellFormed) (lw : c.LayoutWellFormed) :
    Repaints c (c.layout.labels.flatMap (labelBody c) ++ c.layout.lines.flatMap (decorationBody c))
      (c.layout.labels.flatMap (fun l => stringTrace c l.color l.scale l.text l.x l.y) ++
        c.layout.lines.flatMap (fun l => lineTrace c l.xs l.ys l.xe l.ye l.color)) :=
  (Repaints.flatMap _ fun _ h => repaints_string wf (stringOk_label lw h)).append
    (Repaints.flatMap _ fun _ h => repaints_line wf (lineOk_decoration lw h))

/-- What a well-formed LAYOUT says of one quantity's slots. -/
structure QuantityOk (c : Cfg) (q : QuantitySlots) : Prop where
  mem : q ∈ c.layout.quantities
  scales : 1 ≤ q.int.scale ∧ 1 ≤ q.sym.scale ∧ 1 ≤ q.dec.scale
  int : (c.textBox q.int.x q.int.y 3 q.int.scale).Inside c
  sym : (c.textBox q.sym.x q.sym.y 1 q.sym.scale).Inside c
  dec : (c.textBox q.dec.x q.dec.y 1 q.dec.scale).Inside c

theorem quantityOk {c : Cfg} (lw : c.LayoutWellFormed) {q : QuantitySlots} (h : q ∈ c.layout.quantities) :
    QuantityOk c q := by
  obtain ⟨-, -, h3, h4, -⟩ := lw
  have hs : ∀ s ∈ [q.int, q.sym, q.dec], s ∈ c.layout.slots := fun s hs => List.mem_flatMap.mpr ⟨q, h, hs⟩
  have hb : ∀ b ∈ c.quantityBoxes q, b ∈ c.slotBoxes := fun b hb => List.mem_flatMap.mpr ⟨q, h, hb⟩
  exact ⟨h, ⟨h3 _ (hs _ (by simp)), h3 _ (hs _ (by simp)), h3 _ (hs _ (by simp))⟩, h4 _ (hb _ (by simp [Cfg.quantityBoxes])),
    h4 _ (hb _ (by simp [Cfg.quantityBoxes])), h4 _ (hb _ (by simp [Cfg.quantityBoxes]))⟩

/-- A character in a box for one draws without a halt. -/
theorem charHalt_of_box {c : Cfg} {x y scale : Nat} {code : Byte} (hs : 1 ≤ scale) (hf : c.InFont code)
    (hb : (c.textBox x y 1 scale).Inside c) : charHalt c x y code scale = none := by
  have := stringOk_of_box (text := [code]) hs le_rfl (by simpa using hf) hb 0 (by simp)
  simpa using this

theorem symbols_inFont {c : Cfg} (wf : c.WellFormed) : c.InFont c.percentCode ∧ c.InFont c.degreeCode :=
  ⟨wf.2.2.2.2.2.2.2.1, wf.2.2.2.2.2.2.2.2⟩

/-- The patches of `value`. -/
def valuePatches (c : Cfg) (q : QuantitySlots) (t10 : Nat) (symbol : Byte) : List Patch :=
  stringPatches c c.layout.valueColor q.int.scale (istring c t10) q.int.x q.int.y ++
  [charPatch c q.sym.x q.sym.y symbol c.layout.valueColor q.sym.scale] ++
  [charPatch c q.dec.x q.dec.y (dchar c t10) c.layout.valueColor q.dec.scale]

/-- `value` with a reading below 1000.0 in a well-formed LAYOUT (45_display_session.md R163). -/
theorem draws_value {c : Cfg} (wf : c.WellFormed) {q : QuantitySlots} (k : QuantityOk c q) {t10 : Nat} (ht : t10 < 10000)
    {symbol : Byte} (hs : c.InFont symbol) :
    Draws c (valueBody c q t10 symbol) none (valueTrace c q t10 symbol) (valuePatches c q t10 symbol) :=
  ((draws_string wf _ (stringOk_of_box k.scales.1 (istring_length ht) (istring_inFont wf t10) k.int)).append
    (draws_character wf (charHalt_of_box k.scales.2.1 hs k.sym))).append
    (draws_character wf (charHalt_of_box k.scales.2.2 (dchar_inFont wf t10) k.dec))

/-- Every patch of `value` lies in a slot box. -/
theorem valuePatches_box {c : Cfg} {q : QuantitySlots} (h : q ∈ c.layout.quantities) {t10 : Nat} (ht : t10 < 10000)
    {symbol : Byte} {P : Patch} (hP : P ∈ valuePatches c q t10 symbol) {row col : Nat} (hc : CellIn c P.box row col) :
    ∃ b ∈ c.slotBoxes, CellIn c b row col := by
  have hb : ∀ b ∈ c.quantityBoxes q, b ∈ c.slotBoxes := fun b hb => List.mem_flatMap.mpr ⟨q, h, hb⟩
  have one : ∀ (x y scale : Nat) (code : Byte), CellIn c (charPatch c x y code c.layout.valueColor scale).box row col →
      CellIn c (c.textBox x y 1 scale) row col := fun x y scale code h1 =>
    stringPatches_box (color := c.layout.valueColor) [code] (by simp) _ (by simp [stringPatches]) row col h1
  simp only [valuePatches, List.mem_append, List.mem_singleton] at hP
  rcases hP with (hP | rfl) | rfl
  · exact ⟨_, hb _ (by simp [Cfg.quantityBoxes]), stringPatches_box _ (istring_length ht) P hP row col hc⟩
  · exact ⟨_, hb (c.textBox q.sym.x q.sym.y 1 q.sym.scale) (by simp [Cfg.quantityBoxes]), one _ _ _ _ hc⟩
  · exact ⟨_, hb (c.textBox q.dec.x q.dec.y 1 q.dec.scale) (by simp [Cfg.quantityBoxes]), one _ _ _ _ hc⟩

/-- The patches of `refresh`. -/
def refreshPatches (c : Cfg) (it ih ot oh : Nat) : List Patch :=
  valuePatches c c.layout.inside.temperature it c.degreeCode ++
  valuePatches c c.layout.inside.humidity ih c.percentCode ++
  valuePatches c c.layout.outside.temperature ot c.degreeCode ++
  valuePatches c c.layout.outside.humidity oh c.percentCode

/-- `refresh` with four readings from 0 to 999.9 in a well-formed LAYOUT (45_display_session.md R163). -/
theorem draws_refresh {c : Cfg} (wf : c.WellFormed) (lw : c.LayoutWellFormed) {it ih ot oh : Nat} (h1 : it < 10000)
    (h2 : ih < 10000) (h3 : ot < 10000) (h4 : oh < 10000) :
    Draws c (refreshBody c it ih ot oh) none (refreshTrace c it ih ot oh) (refreshPatches c it ih ot oh) := by
  have q1 := quantityOk lw (q := c.layout.inside.temperature) (by simp [Layout.quantities])
  have q2 := quantityOk lw (q := c.layout.inside.humidity) (by simp [Layout.quantities])
  have q3 := quantityOk lw (q := c.layout.outside.temperature) (by simp [Layout.quantities])
  have q4 := quantityOk lw (q := c.layout.outside.humidity) (by simp [Layout.quantities])
  obtain ⟨hp, hd⟩ := symbols_inFont wf
  exact Draws.append (a := [_]) (ea := []) (Pa := []) (Draws.check fun s _ => by simp [Check.passes])
    ((((draws_value wf q1 h1 hd).append (draws_value wf q2 h2 hp)).append (draws_value wf q3 h3 hd)).append
      (draws_value wf q4 h4 hp))

/-- `value` with a reading below 1000.0 in a well-formed LAYOUT (45_display_session.md R163). -/
theorem runs_value {c : Cfg} (wf : c.WellFormed) {q : QuantitySlots} (k : QuantityOk c q) {t10 : Nat} (ht : t10 < 10000)
    {symbol : Byte} (hs : c.InFont symbol) {s : State} (l : Live s) (hc : s.cfg = c) :
    Runs (valueBody c q t10 symbol) s (charDrawn q.dec.x q.dec.y q.dec.scale (emitAll (valueTrace c q t10 symbol) s)) := by
  have h1 := runs_string (color := c.layout.valueColor) wf (istring c t10) q.int.x q.int.y s l hc
    (stringOk_of_box k.scales.1 (istring_length ht) (istring_inFont wf t10) k.int)
  set t1 := emitAll (stringTrace c c.layout.valueColor q.int.scale (istring c t10) q.int.x q.int.y) s with e1
  have l1 : Live (stringDrawn c q.int.scale (istring c t10) q.int.x q.int.y t1) := by
    have := l.emitAll (stringTrace c c.layout.valueColor q.int.scale (istring c t10) q.int.x q.int.y)
    cases istring c t10 <;> exact ⟨l.1, l.2, l.3, this.4⟩
  have c1 : (stringDrawn c q.int.scale (istring c t10) q.int.x q.int.y t1).cfg = c := by
    cases istring c t10 <;> exact hc
  have h2 := runs_character (color := c.layout.valueColor) l1 c1 wf (charHalt_of_box k.scales.2.1 hs k.sym)
  have l2 := (l1.emitAll (charTrace c q.sym.x q.sym.y symbol c.layout.valueColor q.sym.scale)).drawn q.sym.x q.sym.y q.sym.scale
  have h3 := runs_character (color := c.layout.valueColor) l2 c1 wf (charHalt_of_box k.scales.2.2 (dchar_inFont wf t10) k.dec)
  refine ((h1.append h2).append h3).of_eq rfl ?_
  rw [← stringDrawn_emitAll, e1, emitAll_emitAll]
  generalize hx : stringTrace c c.layout.valueColor q.int.scale (istring c t10) q.int.x q.int.y ++
          charTrace c q.sym.x q.sym.y symbol c.layout.valueColor q.sym.scale = tr
  have key : ∀ u : State, charDrawn q.dec.x q.dec.y q.dec.scale (emitAll (charTrace c q.dec.x q.dec.y (dchar c t10) c.layout.valueColor q.dec.scale)
      (charDrawn q.sym.x q.sym.y q.sym.scale (stringDrawn c q.int.scale (istring c t10) q.int.x q.int.y u))) =
      charDrawn q.dec.x q.dec.y q.dec.scale (emitAll (charTrace c q.dec.x q.dec.y (dchar c t10) c.layout.valueColor q.dec.scale) u) := by
    intro u; cases istring c t10 <;> rfl
  rw [key, emitAll_emitAll, ← hx]
  rfl

/-- The same after another element has been drawn. -/
theorem runs_value_from {c : Cfg} (wf : c.WellFormed) {q : QuantitySlots} (k : QuantityOk c q) {t10 : Nat} (ht : t10 < 10000)
    {symbol : Byte} (hs : c.InFont symbol) {s : State} (l : Live s) (hc : s.cfg = c) (x y z : Nat) (tr : List Event) :
    Runs (valueBody c q t10 symbol) (charDrawn x y z (emitAll tr s))
      (charDrawn q.dec.x q.dec.y q.dec.scale (emitAll (tr ++ valueTrace c q t10 symbol) s)) := by
  refine (runs_value wf k ht hs ((l.emitAll tr).drawn x y z) hc).of_eq rfl ?_
  rw [← emitAll_emitAll]
  rfl

/-- `refresh` with four readings from 0 to 999.9 in a well-formed LAYOUT (45_display_session.md R163). -/
theorem runs_refresh {c : Cfg} (wf : c.WellFormed) (lw : c.LayoutWellFormed) {it ih ot oh : Nat} (h1 : it < 10000)
    (h2 : ih < 10000) (h3 : ot < 10000) (h4 : oh < 10000) {s : State} (l : Live s) (hc : s.cfg = c) :
    Runs (refreshBody c it ih ot oh) s (charDrawn c.layout.outside.humidity.dec.x c.layout.outside.humidity.dec.y
      c.layout.outside.humidity.dec.scale (emitAll (refreshTrace c it ih ot oh) s)) := by
  have q1 := quantityOk lw (q := c.layout.inside.temperature) (by simp [Layout.quantities])
  have q2 := quantityOk lw (q := c.layout.inside.humidity) (by simp [Layout.quantities])
  have q3 := quantityOk lw (q := c.layout.outside.temperature) (by simp [Layout.quantities])
  have q4 := quantityOk lw (q := c.layout.outside.humidity) (by simp [Layout.quantities])
  obtain ⟨hp, hd⟩ := symbols_inFont wf
  have k0 : Runs [.require (.readings it ih ot oh)] s s := Runs.check l (by simp [Check.passes])
  exact Runs.append k0 ((((runs_value wf q1 h1 hd l hc).append (runs_value_from wf q2 h2 hp l hc _ _ _ _)).append
    (runs_value_from wf q3 h3 hd l hc _ _ _ _)).append (runs_value_from wf q4 h4 hp l hc _ _ _ _))

/-- Every patch of `refresh` lies in a slot box. -/
theorem refreshPatches_box {c : Cfg} {it ih ot oh : Nat} (h1 : it < 10000) (h2 : ih < 10000) (h3 : ot < 10000)
    (h4 : oh < 10000) {P : Patch} (hP : P ∈ refreshPatches c it ih ot oh) {row col : Nat}
    (hc : CellIn c P.box row col) : ∃ b ∈ c.slotBoxes, CellIn c b row col := by
  simp only [refreshPatches, List.mem_append] at hP
  rcases hP with ((hP | hP) | hP) | hP
  · exact valuePatches_box (by simp [Layout.quantities]) h1 hP hc
  · exact valuePatches_box (by simp [Layout.quantities]) h2 hP hc
  · exact valuePatches_box (by simp [Layout.quantities]) h3 hP hc
  · exact valuePatches_box (by simp [Layout.quantities]) h4 hP hc

/-- Boxes with a cell in common meet. -/
theorem meets_of_cell {c : Cfg} {a b : Box} {row col : Nat} (ha : CellIn c a row col) (hb : CellIn c b row col) :
    a.Meets b := by
  simp only [CellIn, phys] at ha hb
  simp only [Box.Meets, Box.Empty]
  omega

end Sys2Proof.Machine
end

