-- ==== Sys2Proof/Laws/Screening.lean ====
section
/-! SUPPORT. Laws/Screening.lean: exec of a drawing operation, from what its body draws: what is on WIRE and on the screen
after it. -/

namespace Sys2Proof.Machine

/-- Configured, in step, and no stream open: the panel is ready to be drawn on. -/
theorem InStep.ready {s : State} (h : InStep s) (hp : s.pstate = .configured) (hs : s.streaming = false) :
    s.panel.Ready s.cfg :=
  ⟨h.good, h.closed hs, (h.mode hp).1, (h.mode hp).2⟩

/-- A program leaves RST_N and CFG alone. -/
theorem runSeq_rstN (ms : List Micro) (s : State) : (runSeq ms s).rstN = s.rstN :=
  runSeq_frame (·.rstN) (fun _ _ => rfl) (fun s => (busStep_keeps s).2.2.2.1) ms
    (fun m _ s => (seqMicro_keeps m s).2.2.2.1) s

/-- An operation that completes leaves SEQ between operations. -/
theorem idle_of_runs {ms : List Micro} {s t : State} (hi : Idle s) (r : Runs ms s t) (l : Live t) (n : Nat) :
    Idle { t with pc := n, todo := [] } := by
  have h := runSeq_rstN ms s
  rw [r.run] at h
  exact ⟨h.trans hi.1, l.halted, l.busy, l.idle, rfl⟩

/-- An operation whose body draws and completes. -/
theorem exec_draws {i : Instr} {op : Op} (ho : opOf i = some op) {body : List Micro} {s : State} {es : List Event}
    {Ps : List Patch} (hb : seqProgram s.cfg i = operation op body (oplen i)) (d : Draws s.cfg body none es Ps) (hi : Idle s)
    (hp : Performs s) (ha : opLegal op s.pstate = true) (hs : s.streaming = false) :
    ∃ t, exec i s = .next t ∧ Drawn s.cfg es Ps s t ∧ Idle t ∧ Performs t := by
  obtain ⟨t, e, h, -⟩ := d.run s (Live.of_idle hi hp) rfl hs
  obtain ⟨r, l⟩ := h rfl
  refine ⟨{ t with pc := t.pc + oplen i, todo := [] }, ?_, ?_, idle_of_runs hi r l _, l.bus⟩
  · rw [exec_eq_perform ho s, hb, perform_completes hi (allowed_closed ha hs) r l.quiet]
  · exact ⟨e.trace, e.panel, e.cfg, e.streaming, e.pstate, e.dcx, e.ready, e.screen, e.window⟩

/-- An operation whose body draws and halts. -/
theorem exec_draws_halt {i : Instr} {op : Op} (ho : opOf i = some op) {body : List Micro} {s : State} {es : List Event}
    {Ps : List Patch} {k : Cause} (hb : seqProgram s.cfg i = operation op body (oplen i))
    (d : Draws s.cfg body (some k) es Ps) (hi : Idle s) (hp : Performs s) (ha : opLegal op s.pstate = true)
    (hs : s.streaming = false) :
    ∃ t, exec i s = .next t ∧ Drawn s.cfg es Ps s t ∧ t.halted = true ∧ t.haltCause = k := by
  obtain ⟨t, e, -, h⟩ := d.run s (Live.of_idle hi hp) rfl hs
  obtain ⟨r, h1, h2⟩ := h k rfl
  refine ⟨{ t with todo := [] }, ?_, ?_, h1, h2⟩
  · rw [exec_eq_perform ho s, hb, perform_halts hi (allowed_closed ha hs) r]
  · exact ⟨e.trace, e.panel, e.cfg, e.streaming, e.pstate, e.dcx, e.ready, e.screen, e.window⟩

/-- The screen after a drawing operation on an in-step panel. -/
theorem Drawn.screen_inStep {es : List Event} {Ps : List Patch} {s t : State} (d : Drawn s.cfg es Ps s t) (h : InStep s)
    (hp : s.pstate = .configured) (hs : s.streaming = false) :
    t.panel.bad = false ∧ ∀ row col, t.panel.gramCell s.cfg row col = overlay s.cfg Ps (s.panel.gramCell s.cfg) row col :=
  ⟨(d.ready (h.ready hp hs)).good, d.screen (h.ready hp hs)⟩

end Sys2Proof.Machine
end

