-- ==== Sys2Proof/Laws/InStep.lean ====
section
/-! SUPPORT. Laws/InStep.lean: the panel after bring-up, and the pieces of staying in step (20_memory.md R60): what each
procedure does to an in-step panel, and which cells it may write. -/

namespace Sys2Proof.Machine

/-! ## Bring-up -/

/-- `reset` clears the panel, whatever it was (20_memory.md R51). -/
theorem panelEvents_rst {c : Cfg} (wf : c.WellFormed) (p : Panel) : panelEvents c p (rstTrace c) = Panel.cleared := by
  have k := panelCommand_code wf .swreset Panel.cleared
  simp only [Cfg.code] at k
  rw [rstTrace, panelEvents_append, panelEvents_append, panelEvents_cmd]
  change panelEvent c (panelCommand c c.cmdSwreset Panel.cleared) (.delay .tPowerup2) = _
  rw [k]
  rfl

/-- A one-parameter command and its parameter (20_memory.md R58). -/
theorem panelEvents_colmod {c : Cfg} (wf : c.WellFormed) {p : Panel} (hb : p.bad = false) (hs : p.streamOpen c = false)
    (b : Byte) : panelEvents c p (cmdTrace c.cmdColmod ++ datTrace b) =
      { p with cmd := some c.cmdColmod, args := [b], half := none, fmt := some b } := by
  have k := panelCommand_code wf .colmod p
  have kw := wireCmd_code wf .colmod
  simp only [Cfg.code] at k kw
  simp only [panelEvents_append, panelEvents_cmd, panelEvents_dat, k, panelCmd, panelColmod, Panel.enter, hb, hs, panelData,
    Option.bind_some, kw, Panel.takeArg, panelDataColmod, Bool.or_false, List.nil_append]

theorem panelEvents_madctl {c : Cfg} (wf : c.WellFormed) {p : Panel} (hb : p.bad = false) (hs : p.streamOpen c = false)
    (b : Byte) : panelEvents c p (cmdTrace c.cmdMadctl ++ datTrace b) =
      { p with cmd := some c.cmdMadctl, args := [b], half := none, orient := some b } := by
  have k := panelCommand_code wf .madctl p
  have kw := wireCmd_code wf .madctl
  simp only [Cfg.code] at k kw
  simp only [panelEvents_append, panelEvents_cmd, panelEvents_dat, k, panelCmd, panelMadctl, Panel.enter, hb, hs, panelData,
    Option.bind_some, kw, Panel.takeArg, panelDataMadctl, Bool.or_false, List.nil_append]

theorem panelEvents_dispon {c : Cfg} (wf : c.WellFormed) {p : Panel} (hb : p.bad = false) (hs : p.streamOpen c = false) :
    panelEvents c p (cmdTrace c.cmdDispon) =
      { p with cmd := some c.cmdDispon, args := [], half := none, on := true } := by
  have k := panelCommand_code wf .dispon p
  simp only [Cfg.code] at k
  simp only [panelEvents_cmd, k, panelCmd, panelDispon, Panel.enter, hb, hs, Bool.or_false]

/-- The patch `configure` lays: the whole usable area, white (41_panel_protocol.md R111). -/
def fullPatch (c : Cfg) : Patch :=
  ⟨⟨0, 0, c.usableCols, c.usableRows⟩, List.replicate (c.usableCols * c.usableRows) bg⟩

theorem fullPatch_fits {c : Cfg} (wf : c.WellFormed) : (fullPatch c).Fits c := ⟨windowOk_full wf, by simp [fullPatch]⟩

/-- What may be said of a cell depends on GRAM and P_BAD only. -/
theorem gramCell_congr {c : Cfg} {p q : Panel} (h1 : p.gram = q.gram) (h2 : p.bad = q.bad) (row col : Nat) :
    p.gramCell c row col = q.gramCell c row col := by
  simp only [gramCell_eq, h1, h2]

/-- `configure` on a good panel inside no stream (41_panel_protocol.md R111). -/
theorem panelEvents_cfg {c : Cfg} (wf : c.WellFormed) {p : Panel} (hb : p.bad = false) (hs : p.streamOpen c = false) :
    let q := panelEvents c p (cfgTrace c)
    q.Ready c ∧ q.HasWindow c (fullPatch c).box ∧ q.on = true ∧
      ∀ row col, q.gramCell c row col = (fullPatch c).over c (p.gramCell c) row col := by
  have e : cfgTrace c = (cmdTrace c.cmdColmod ++ datTrace c.colmod16bit) ++
      ((cmdTrace c.cmdMadctl ++ datTrace c.madctlValue) ++
        (paintTrace c (fullPatch c).box.x (fullPatch c).box.y (fullPatch c).box.w (fullPatch c).box.h (fullPatch c).pixels ++
          cmdTrace c.cmdDispon)) := by
    simp [cfgTrace, paintTrace, fullPatch]
  rw [e, panelEvents_append, panelEvents_colmod wf hb hs, panelEvents_append,
    panelEvents_madctl (p := { p with
      cmd := some c.cmdColmod, args := [c.colmod16bit], half := none, fmt := some c.colmod16bit }) wf hb
      (streamOpen_of_cmd wf .colmod (by decide) rfl), panelEvents_append]
  set p1 : Panel := { p with
    cmd := some c.cmdMadctl, args := [c.madctlValue], half := none, fmt := some c.colmod16bit,
    orient := some c.madctlValue } with hp1
  have r1 : p1.Ready c := ⟨hb, streamOpen_of_cmd wf .madctl (by decide) rfl, rfl, rfl⟩
  obtain ⟨r2, w2, -, -, g2⟩ := panelEvents_paint wf (fullPatch_fits wf) r1
  set p2 := panelEvents c p1 (paintTrace c (fullPatch c).box.x (fullPatch c).box.y (fullPatch c).box.w (fullPatch c).box.h
    (fullPatch c).pixels)
  have hd := panelEvents_dispon wf r2.good r2.closed
  change let q := panelEvents c p2 (cmdTrace c.cmdDispon); _
  rw [hd]
  refine ⟨⟨r2.good, streamOpen_of_cmd wf .dispon (by decide) rfl, r2.fmt, r2.orient⟩,
    ⟨w2.xs, w2.xe, w2.ys, w2.ye⟩, rfl, fun row col => ?_⟩
  refine (gramCell_congr (q := p2) rfl rfl row col).trans ((g2 row col).trans ?_)
  exact (overlay_congr [fullPatch c] (gramCell_congr rfl rfl row col) : overlay c [fullPatch c] _ _ _ = _)

/-! ## Cells -/

/-- A patch that fits lies in the usable area (20_memory.md R43, R62). -/
theorem Patch.Fits.usable {c : Cfg} {P : Patch} (h : P.Fits c) {row col : Nat} (hc : CellIn c P.box row col) :
    UsableCell c row col := by
  obtain ⟨⟨-, -, h1, h2⟩, -⟩ := h
  unfold CellIn phys at hc
  unfold UsableCell
  omega

/-- A cell of the margin is under no patch. -/
theorem overlay_margin {c : Cfg} {Ps : List Patch} (h : ∀ P ∈ Ps, P.Fits c) {row col : Nat} (hm : ¬ UsableCell c row col)
    (f : Nat → Nat → Option Pixel) : overlay c Ps f row col = f row col :=
  overlay_outside Ps (fun P hP hc => hm ((h P hP).usable hc)) f

/-- Every usable cell is under `configure`'s patch. -/
theorem over_fullPatch {c : Cfg} {row col : Nat} (h : UsableCell c row col) (f : Nat → Nat → Option Pixel) :
    (fullPatch c).over c f row col = some (wirev bg) := by
  obtain ⟨h1, h2, h3, h4⟩ := h
  have hin : CellIn c (fullPatch c).box row col := by simp only [CellIn, fullPatch, phys]; omega
  have : (row - c.margin) * c.usableCols + (col - c.margin) < c.usableCols * c.usableRows := by
    have := Nat.mul_le_mul_right c.usableCols (show row - c.margin + 1 ≤ c.usableRows by omega)
    rw [Nat.add_mul, Nat.mul_comm c.usableRows] at this
    omega
  rw [Patch.over, if_pos hin]
  simp [fullPatch, phys, this]

/-! ## Staying in step -/

/-- A drawing operation that completes leaves an in-step panel in step. -/
theorem Drawn.inStep {es : List Event} {Ps : List Patch} {s t : State} (d : Drawn s.cfg es Ps s t) (h : InStep s)
    (hp : s.pstate = .configured) (hs : s.streaming = false) : InStep t := by
  have r := d.ready (h.ready hp hs)
  refine ⟨r.good, fun _ => ?_, fun hv => d.window (h.ready hp hs) h.window hv, fun _ => ?_, fun hc => ?_⟩
  · rw [d.cfg]; exact ⟨r.fmt, r.orient⟩
  · rw [d.cfg]; exact r.closed
  · rw [d.streaming] at hc; cases hc

/-- A panel that is ready, with no stream open on DHE's side, is in step. -/
theorem InStep.of_ready {t : State} (r : t.panel.Ready t.cfg) (hs : t.streaming = false)
    (hw : t.winValid = true → SameWindow t) : InStep t :=
  ⟨r.good, fun _ => ⟨r.fmt, r.orient⟩, hw, fun _ => r.closed, fun h => by rw [hs] at h; cases h⟩

/-- `reset` leaves the panel cleared and in step (41_panel_protocol.md R110, 20_memory.md R51). -/
theorem reset_inStep {c : Cfg} (wf : c.WellFormed) {s : State} (l : Live s) (hc : s.cfg = c) :
    ∃ u, Runs (resetBody c) s u ∧ Live u ∧ InStep u ∧ u.panel = Panel.cleared ∧ u.cfg = c ∧ u.pstate = .reset ∧
      u.streaming = false ∧ u.pc = s.pc := by
  have r := runs_reset c l
  have e : panelEvents c s.panel (rstTrace c) = Panel.cleared := panelEvents_rst wf _
  generalize rstTrace c = tr at r e
  have hp : (wasReset (emitAll tr s)).panel = Panel.cleared := by rw [← e, ← hc]; rfl
  refine ⟨_, r, ⟨l.1, l.2, l.3, (l.emitAll _).4⟩, ⟨?_, ?_, ?_, ?_, ?_⟩, hp, hc, rfl, rfl, rfl⟩
  · rw [hp]; rfl
  · intro h; cases h
  · intro h; cases h
  · intro _; rw [hp]; rfl
  · intro h; cases h

/-- `configure` on a good panel inside no stream leaves it in step, on, and white (41_panel_protocol.md R111). -/
theorem configure_inStep {c : Cfg} (wf : c.WellFormed) {s : State} (l : Live s) (hc : s.cfg = c) (hb : s.panel.bad = false)
    (hs : s.panel.streamOpen c = false) :
    ∃ u, Runs (configureBody c) s u ∧ Live u ∧ InStep u ∧ u.panel.on = true ∧ u.cfg = c ∧ u.pstate = .configured ∧
      u.streaming = false ∧ u.pc = s.pc ∧
      ∀ row col, u.panel.gramCell c row col = (fullPatch c).over c (s.panel.gramCell c) row col := by
  have r := runs_configure l hc wf
  obtain ⟨k1, k2, k3, k4⟩ := panelEvents_cfg wf hb hs
  generalize cfgTrace c = tr at r k1 k2 k3 k4
  set u : State := { painted 0 0 c.usableCols c.usableRows (emitAll tr s) with pstate := .configured }
  have hp : u.panel = panelEvents c s.panel tr := by rw [← hc]; rfl
  have hcu : u.cfg = c := hc
  rw [← hp] at k1 k2 k3 k4
  exact ⟨u, r, ⟨l.1, l.2, l.3, (l.emitAll _).4⟩,
    InStep.of_ready (hcu.symm ▸ k1) rfl fun _ => sameWindow_of_painted wf (windowOk_full wf) hcu rfl k2,
    k3, hcu, rfl, rfl, rfl, k4⟩

/-- In an open stream the panel waits for the pixels DHE has still to send (20_memory.md R56, R57). -/
theorem InStep.stream {s : State} (v : Inv s) (h : InStep s) (hp : s.pstate = .configured) (hs : s.streaming = true) :
    sentPixels s < s.win.w.toNat * s.win.h.toNat ∧ s.pxRemaining.toNat + sentPixels s = s.win.count.toNat ∧
    s.panel.Streaming s.cfg (phys s.cfg s.win.xs.toNat) (phys s.cfg s.win.ys.toNat) s.win.w.toNat s.win.h.toNat
      (sentPixels s) := by
  obtain ⟨hv, hle, hcmd, hhalf, hcur⟩ := h.opened hs
  obtain ⟨w1, w2, w3, w4, w5, w6, w7⟩ := v.window hv
  obtain ⟨p1, p2, p3, p4⟩ := h.window hv
  have hpos : 0 < s.pxRemaining.toNat := by
    have := v.stream
    rw [hs] at this
    exact of_decide_eq_true this.symm
  have hk : sentPixels s < s.win.w.toNat * s.win.h.toNat := by unfold sentPixels; omega
  refine ⟨hk, by unfold sentPixels; omega, h.good, hcmd, hhalf, (h.mode hp).1, (h.mode hp).2, p1, p2.trans ?_, p3, p4.trans ?_, ?_⟩
  · congr 1; unfold phys; omega
  · congr 1; unfold phys; omega
  · rw [hcur, cursorAt, if_pos hk]
    unfold nextCell phys
    congr 1 <;> omega

end Sys2Proof.Machine
end

