-- ==== Sys2Proof/Laws/Outcome.lean ====
section
/-! SUPPORT. Laws/Outcome.lean: where an operation's actions can leave SEQ: the operation complete, halted, or waiting for
BUS with actions still to come; and what PC, HALT_PC and SEQ's place are then. -/

namespace Sys2Proof.Machine

/-- An action of an operation's body: none of them is PC's advance. -/
abbrev Micro.ofBody (m : Micro) : Prop := m.protocol = true ∨ m.draws ∨ ∃ ch pct, m = .packField ch pct

/-- PC is as it was, and a halt entered on the way recorded it (60_exceptions.md R176). -/
structure PcKept (s t : State) : Prop where
  pc : t.pc = s.pc
  halt : s.halted = false → t.halted = true → t.haltPc = s.pc

theorem seqMicro_pc {m : Micro} (h : m.ofBody) (s : State) : PcKept s (seqMicro m s) := by
  have iss : ∀ bytes, PcKept s (issue bytes s) := fun bytes => ⟨(issue_keeps bytes s).2.2.2.2.1, fun h1 h2 => by
    unfold issue at h2 ⊢
    split at h2 <;> simp_all [raiseHalt]⟩
  cases m
  case require k => rcases require_keeps k s with e | e <;> rw [e] <;> exact ⟨rfl, fun h1 h2 => by simp_all [raiseHalt]⟩
  case transfer bytes => exact iss _
  case transferRaster i => exact iss _
  case advancePc => simp [Micro.ofBody, Micro.protocol, Micro.draws, Micro.paints, Micro.rasters] at h
  case write => simp [Micro.ofBody, Micro.protocol, Micro.draws, Micro.paints, Micro.rasters] at h
  all_goals exact ⟨rfl, fun h1 h2 => by simp_all [seqMicro]⟩

theorem busStep_pc (s : State) : PcKept s (busStep s) := by
  refine ⟨(busStep_keeps s).2.2.2.2.1, fun h1 h2 => ?_⟩
  rcases busStep_cases s with ⟨-, e⟩ | ⟨t, -, e | ⟨k, e⟩ | e⟩ <;> rw [e] at h2 ⊢ <;> simp_all [busPerform, busFault, raiseHalt]

theorem actMicro_pc {m : Micro} (h : m.ofBody) (s : State) : PcKept s (actMicro m s) := by
  have hm := seqMicro_pc h s
  unfold actMicro
  simp only
  split
  · exact hm
  · rename_i hh
    split
    · have hb := busStep_pc (seqMicro m s)
      exact ⟨hb.pc.trans hm.pc, fun _ k => (hb.halt (by simpa using hh) k).trans hm.pc⟩
    · exact hm

/-- Where the actions `ms`, then PC's advance by `n`, leave SEQ, started at `s`. -/
inductive Outcome (ms : List Micro) (n : Nat) (s t : State) : Prop where
  /-- All of them done. -/
  | complete (halted : t.halted = false) (busy : t.xferBusy = false) (todo : t.todo = []) (pc : t.pc = s.pc + n)
  /-- A halt. -/
  | halt (halted : t.halted = true) (haltPc : t.haltPc = s.pc) (todo : t.todo = []) (pc : t.pc = s.pc)
  /-- A transfer in flight, and the actions after it still to come. -/
  | wait (halted : t.halted = false) (busy : t.xferBusy = true) (pc : t.pc = s.pc) (k : List Micro)
      (todo : t.todo = k ++ [.advancePc n]) (suffix : k <:+ ms)

/-- Everything a program can come to. -/
theorem runSeq_outcome (n : Nat) (ms : List Micro) (h : ∀ m ∈ ms, m.ofBody) : ∀ s, s.halted = false → s.xferBusy = false →
    Outcome ms n s (runSeq (ms ++ [.advancePc n]) s) := by
  induction ms with
  | nil =>
    intro s h1 h2
    refine .complete ?_ ?_ ?_ ?_ <;> simp [runSeq, actMicro, seqMicro, h1, h2]
  | cons m ms ih =>
    intro s h1 h2
    have ha := actMicro_pc (h m (by simp)) s
    rw [List.cons_append, runSeq]
    split
    · rename_i hh
      exact .halt hh (ha.halt h1 hh) rfl ha.pc
    · rename_i hh
      split
      · rename_i hb
        exact .wait (by simpa using hh) hb ha.pc ms rfl (List.suffix_cons m ms)
      · rename_i hb
        rcases ih (fun m' hm' => h m' (by simp [hm'])) _ (by simpa using hh) (by simpa using hb) with
          ⟨a, b, c, d⟩ | ⟨a, b, c, d⟩ | ⟨a, b, c, k, d, e⟩
        · exact .complete a b c (by rw [d, ha.pc])
        · exact .halt a (by rw [b, ha.pc]) c (by rw [d, ha.pc])
        · exact .wait a b (by rw [c, ha.pc]) k d (e.trans (List.suffix_cons m ms))

/-- The same for a program waiting for BUS. -/
theorem resume_outcome {n : Nat} {ms : List Micro} {s : State} (h : ∀ m ∈ ms, m.ofBody) (hh : s.halted = false)
    (ht : s.todo = ms ++ [.advancePc n]) : Outcome ms n s (resume s) := by
  have k := busStep_pc s
  have e : (busStep s).todo = ms ++ [.advancePc n] := (busStep_keeps s).2.2.2.2.2.2.2.2.2.2.2.2.2.2.trans ht
  unfold resume
  simp only
  split
  · rename_i h1
    exact .halt h1 (k.halt hh h1) rfl k.pc
  · rename_i h1
    split
    · rename_i h2
      exact .wait (by simpa using h1) h2 k.pc ms e (List.suffix_refl ms)
    · rename_i h2
      rw [e]
      rcases runSeq_outcome n ms h _ (by simpa using h1) (by simpa using h2) with
        ⟨a, b, c, d⟩ | ⟨a, b, c, d⟩ | ⟨a, b, c, k', d, e'⟩
      · exact .complete a b c (by rw [d, k.pc])
      · exact .halt a (by rw [b, k.pc]) c (by rw [d, k.pc])
      · exact .wait a b (by rw [c, k.pc]) k' d e'

/-- The program of a host operation, without PC's advance. -/
theorem seqProgram_ofBody {i : Instr} {op : Op} (ho : opOf i = some op) (c : Cfg) :
    ∃ ms, seqProgram c i = ms ++ [.advancePc (oplen i)] ∧ ∀ m ∈ ms, m.ofBody := by
  obtain ⟨body, e, h⟩ := seqProgram_body ho c
  refine ⟨.require (.legal op) :: .require (.streamRule op) :: body, by simp [e, operation], fun m hm => ?_⟩
  rcases List.mem_cons.mp hm with rfl | hm
  · exact .inr (.inl (.inl rfl))
  · rcases List.mem_cons.mp hm with rfl | hm
    · exact .inr (.inl (.inl rfl))
    · exact h m hm

/-- A non-empty end of a list that ends in `x` ends in `x`. -/
theorem suffix_concat {α : Type} {k ms : List α} {x : α} (h : k <:+ ms ++ [x]) (hk : k ≠ []) :
    ∃ k', k = k' ++ [x] ∧ k' <:+ ms := by
  obtain ⟨p, hp⟩ := h
  rw [← List.dropLast_append_getLast hk, ← List.append_assoc] at hp
  obtain ⟨e1, e2⟩ := List.append_inj' hp rfl
  have e3 : k.getLast hk = x := by simpa using e2
  exact ⟨k.dropLast, by rw [← e3, List.dropLast_append_getLast hk], p, e1⟩

end Sys2Proof.Machine
end

