-- ==== Sys2Proof/Laws/Inv.lean ====
section
/-! SUPPORT. Laws/Inv.lean: the pieces of the machine's invariant: every program keeps to the window discipline and leaves
the select line at the data level; no action of SEQ and no step of BUS breaks the invariant. -/

namespace Sys2Proof.Machine

/-! ## Programs leave the select line at the data level -/

theorem dcxAfter_append (a b : List Micro) : ∀ l, dcxAfter l (a ++ b) = dcxAfter (dcxAfter l a) b := by
  induction a with
  | nil => intro l; rfl
  | cons m a ih => intro l; cases m <;> simp only [List.cons_append, dcxAfter, ih]

/-- Started at the data level, the actions end at the data level. -/
def Steady (ms : List Micro) : Prop := dcxAfter true ms = true

theorem Steady.append {a b : List Micro} (ha : Steady a) (hb : Steady b) : Steady (a ++ b) := by
  unfold Steady at *; rw [dcxAfter_append, ha, hb]

theorem Steady.flatMap {α : Type} (f : α → List Micro) (as : List α) (h : ∀ a, Steady (f a)) : Steady (as.flatMap f) := by
  induction as with
  | nil => rfl
  | cons a as ih => exact (h a).append ih

theorem steady_window (c : Cfg) (x y w h : Nat) : Steady (setDrawWindowBody c x y w h) := rfl

theorem steady_fill (c : Cfg) (n : Nat) (color : Pixel) : Steady (fillBody c n color) := by
  unfold fillBody
  rw [fill_eq_flatMap]
  exact Steady.append (a := beginPixelWriteBody c) rfl (Steady.flatMap _ _ fun _ => rfl)

theorem steady_configure (c : Cfg) : Steady (configureBody c) := by
  unfold configureBody
  repeat' apply Steady.append
  all_goals first | (rw [fill_eq_flatMap]; exact Steady.flatMap _ _ fun _ => rfl) | rfl

theorem steady_line (c : Cfg) (xs ys xe ye : Nat) (color : Pixel) : Steady (drawLineBody c xs ys xe ye color) := by
  unfold drawLineBody
  split
  · exact Steady.append (a := [_, _]) rfl ((steady_window _ _ _ _ _).append (steady_fill _ _ _))
  · exact Steady.append (a := [_, _]) rfl ((steady_window _ _ _ _ _).append (steady_fill _ _ _))

theorem steady_character (c : Cfg) (x y : Nat) (code : Byte) (color : Pixel) (scale : Nat) :
    Steady (drawCharacterBody c x y code color scale) := by
  unfold drawCharacterBody
  repeat' apply Steady.append
  all_goals first | exact Steady.flatMap _ _ (fun _ => rfl) | rfl

theorem steady_string (c : Cfg) (color : Pixel) (scale : Nat) (text : List Byte) :
    ∀ x y, Steady (drawStringBody c color scale text x y) := by
  induction text with
  | nil => intro x y; rfl
  | cons code text ih => intro x y; rw [drawStringBody_cons]; exact (steady_character _ _ _ _ _ _).append (ih _ _)

theorem steady_value (c : Cfg) (q : QuantitySlots) (t10 : Nat) (symbol : Byte) : Steady (valueBody c q t10 symbol) :=
  ((steady_string _ _ _ _ _ _).append (steady_character _ _ _ _ _ _)).append (steady_character _ _ _ _ _ _)

theorem steady_operation {op : Op} {body : List Micro} {len : Nat} (h : Steady body) : Steady (operation op body len) :=
  Steady.append (a := [_, _]) rfl (h.append (b := [_]) rfl)

/-- Every operation's program leaves DCX at the data level (10_state.md R16). -/
theorem steady_program (c : Cfg) (i : Instr) : Steady (seqProgram c i) := by
  cases i <;> first | rfl | skip
  case configure => exact steady_operation (steady_configure c)
  case drawCharacter => exact steady_operation (steady_character _ _ _ _ _ _)
  case drawString => exact steady_operation (steady_string _ _ _ _ _ _)
  case drawLine => exact steady_operation (steady_line _ _ _ _ _ _)
  case init =>
    exact steady_operation ((((Steady.append (a := resetBody c) rfl (steady_configure c)).append
      (Steady.flatMap _ _ fun _ => steady_string _ _ _ _ _ _)).append (Steady.flatMap _ _ fun _ => steady_line _ _ _ _ _ _)))
  case refresh =>
    exact steady_operation (Steady.append (a := [_]) rfl ((((steady_value _ _ _ _).append (steady_value _ _ _ _)).append
      (steady_value _ _ _ _)).append (steady_value _ _ _ _)))

/-! ## Programs keep to the window discipline -/

/-- The actions may stand in any program, whatever WIN_VALID is. -/
def Sound (c : Cfg) (ms : List Micro) : Prop :=
  ∀ v rest, (∀ v', todoSound c v' rest = true) → todoSound c v (ms ++ rest) = true

theorem Sound.nil (c : Cfg) : Sound c [] := fun v _ h => h v

theorem Sound.append {c : Cfg} {a b : List Micro} (ha : Sound c a) (hb : Sound c b) : Sound c (a ++ b) := fun v rest h => by
  rw [List.append_assoc]; exact ha v _ fun v' => hb v' rest h

theorem Sound.flatMap {α : Type} {c : Cfg} (f : α → List Micro) (as : List α) (h : ∀ a, Sound c (f a)) :
    Sound c (as.flatMap f) := by
  induction as with
  | nil => exact Sound.nil c
  | cons a as ih => exact (h a).append ih

theorem sound_command (c : Cfg) (b : Byte) : Sound c (sendCommandBody b) := fun v rest h => by
  simp [sendCommandBody, todoSound, h]

theorem sound_data (c : Cfg) (b : Byte) : Sound c (sendDataBody b) := fun v rest h => by
  simp [sendDataBody, todoSound, h]

theorem sound_window (c : Cfg) (x y w h : Nat) : Sound c (setDrawWindowBody c x y w h) := fun v rest hr => by
  simp only [setDrawWindowBody, axisBody, sendCommandBody, sendDataBody, List.cons_append, List.nil_append, todoSound, hr,
    Bool.and_true]
  cases decide (WindowOk c x y w h) <;> rfl

theorem sound_begin (c : Cfg) : Sound c (beginPixelWriteBody c) := fun v rest h => by
  simp only [beginPixelWriteBody, sendCommandBody, List.cons_append, List.nil_append, todoSound, h, Bool.and_true]
  cases v <;> rfl

/-- Actions that touch no window. -/
theorem sound_pixel (c : Cfg) (m : Micro) (h : ∀ v rest, todoSound c v (m :: rest) = todoSound c v rest) :
    Sound c [.require .streaming, m, .countPixel] := fun v rest hr => by
  simp only [List.cons_append, List.nil_append, todoSound, h, hr]

theorem sound_fill (c : Cfg) (n : Nat) (color : Pixel) : Sound c (fillBody c n color) := by
  unfold fillBody
  rw [fill_eq_flatMap]
  exact (sound_begin c).append (Sound.flatMap _ _ fun _ => sound_pixel _ _ fun _ _ => rfl)

theorem sound_reset (c : Cfg) : Sound c (resetBody c) := fun v rest h => by
  simp [resetBody, sendCommandBody, todoSound, h]

theorem sound_configure (c : Cfg) : Sound c (configureBody c) :=
  (((((((sound_command _ _).append (sound_data _ _)).append (sound_command _ _)).append (sound_data _ _)).append
    (sound_window _ _ _ _ _)).append (sound_fill _ _ _)).append (sound_command _ _)).append
      fun v rest h => by simp [todoSound, h]

theorem sound_line (c : Cfg) (xs ys xe ye : Nat) (color : Pixel) : Sound c (drawLineBody c xs ys xe ye color) := by
  unfold drawLineBody
  split
  · exact Sound.append (a := [_, _]) (fun v rest h => by simp [todoSound, h])
      ((sound_window _ _ _ _ _).append (sound_fill _ _ _))
  · exact Sound.append (a := [_, _]) (fun v rest h => by simp [todoSound, h])
      ((sound_window _ _ _ _ _).append (sound_fill _ _ _))

theorem sound_character (c : Cfg) (x y : Nat) (code : Byte) (color : Pixel) (scale : Nat) :
    Sound c (drawCharacterBody c x y code color scale) :=
  (((((Sound.append (fun v rest h => by simp [todoSound, h]) (sound_window _ _ _ _ _)).append
    (fun v rest h => by simp [todoSound, h])).append (sound_begin _)).append
      (Sound.flatMap _ _ fun _ => sound_pixel _ _ fun _ _ => rfl)).append fun v rest h => by simp [todoSound, h])

theorem sound_string (c : Cfg) (color : Pixel) (scale : Nat) (text : List Byte) :
    ∀ x y, Sound c (drawStringBody c color scale text x y) := by
  induction text with
  | nil => intro x y; exact Sound.nil c
  | cons code text ih => intro x y; rw [drawStringBody_cons]; exact (sound_character _ _ _ _ _ _).append (ih _ _)

theorem sound_value (c : Cfg) (q : QuantitySlots) (t10 : Nat) (symbol : Byte) : Sound c (valueBody c q t10 symbol) :=
  ((sound_string _ _ _ _ _ _).append (sound_character _ _ _ _ _ _)).append (sound_character _ _ _ _ _ _)

theorem sound_operation {c : Cfg} {op : Op} {body : List Micro} {len : Nat} (h : Sound c body) :
    Sound c (operation op body len) :=
  Sound.append (a := [_, _]) (fun v rest hr => by simp [todoSound, hr])
    (h.append (b := [_]) fun v rest hr => by simp [todoSound, hr])

/-- Every operation's program loads only windows that passed the check, and opens a stream only on a valid one
(41_panel_protocol.md R114, R115). -/
theorem sound_program (c : Cfg) (i : Instr) : Sound c (seqProgram c i) := by
  cases i <;> first | exact Sound.nil c | skip
  case reset => exact sound_operation (sound_reset c)
  case configure => exact sound_operation (sound_configure c)
  case setDrawWindow => exact sound_operation (sound_window _ _ _ _ _)
  case beginPixelWrite => exact sound_operation (sound_begin _)
  case drawCharacter => exact sound_operation (sound_character _ _ _ _ _ _)
  case drawString => exact sound_operation (sound_string _ _ _ _ _ _)
  case drawLine => exact sound_operation (sound_line _ _ _ _ _ _)
  case init =>
    exact sound_operation ((((sound_reset c).append (sound_configure c)).append
      (Sound.flatMap _ _ fun _ => sound_string _ _ _ _ _ _)).append (Sound.flatMap _ _ fun _ => sound_line _ _ _ _ _ _))
  case refresh =>
    exact sound_operation (Sound.append (a := [_]) (fun v rest h => by simp [todoSound, h])
      ((((sound_value _ _ _ _).append (sound_value _ _ _ _)).append (sound_value _ _ _ _)).append (sound_value _ _ _ _)))

theorem Sound.todoSound {c : Cfg} {ms : List Micro} (h : Sound c ms) (v : Bool) : todoSound c v ms = true := by
  simpa using h v [] fun _ => rfl

/-! ## The canonical form of GRAM -/

theorem panelCommand_wf (c : Cfg) (b : Byte) (p : Panel) (h : p.gram.wf = true) : (panelCommand c b p).gram.wf = true := by
  unfold panelCommand
  split
  · next k _ =>
    cases k <;> simp only [panelCmd]
    case swreset => rfl
    case ramwr => unfold panelRamwr; split <;> exact h
    all_goals exact h
  · exact h

theorem panelPixel_wf (c : Cfg) (v : Pixel) (p : Panel) (h : p.gram.wf = true) : (panelPixel c v p).gram.wf = true := by
  unfold panelPixel
  split
  · split
    · exact gramWrite_wf _ _ _ _ _ h
    · exact h
    · exact h
  · exact h

theorem panelData_wf (c : Cfg) (b : Byte) (p : Panel) (h : p.gram.wf = true) : (panelData c b p).gram.wf = true := by
  unfold panelData
  dsimp only
  split
  · unfold panelDataCaset; split <;> exact h
  · unfold panelDataRaset; split <;> exact h
  · unfold panelDataRamwr
    split
    · exact h
    · exact panelPixel_wf _ _ _ h
  · unfold panelDataColmod; split <;> exact h
  · unfold panelDataMadctl; split <;> exact h
  · exact h
  · exact h
  · exact h

/-- The PANEL keeps GRAM in canonical form, whatever it receives. -/
theorem panelEvent_wf (c : Cfg) (p : Panel) (e : Event) (h : p.gram.wf = true) : (panelEvent c p e).gram.wf = true := by
  have hx : ∀ (dc : Bool) (bytes : List Byte) (p : Panel), p.gram.wf = true →
      (bytes.foldl (panelByte c dc) p).gram.wf = true := by
    intro dc bytes
    induction bytes with
    | nil => intro p h; exact h
    | cons b bytes ih =>
      intro p h
      refine ih _ ?_
      unfold panelByte
      split
      · exact panelData_wf _ _ _ h
      · exact panelCommand_wf _ _ _ h
  cases e with
  | resx l => cases l; exacts [rfl, h]
  | delay d => exact h
  | xfer dc bytes => exact hx dc bytes p h
  | xferFault dc sent => exact h

/-! ## The invariant inside an operation -/

/-- The invariant with the actions `ms` still to come. -/
structure Inside (ms : List Micro) (s : State) : Prop where
  cfg : s.cfg.WellFormed
  busy : s.xferBusy = s.inflight.isSome
  level : ∀ t, s.inflight = some t → t.dc = s.dcx
  stream : s.streaming = decide (0 < s.pxRemaining.toNat)
  halt : s.halted = decide (s.haltCause ≠ Cause.none)
  window : s.winValid = true → WindowRegs s
  line : s.halted = false → dcxAfter s.dcx ms = true
  sound : s.halted = false → todoSound s.cfg s.winValid ms = true
  gram : s.panel.gram.wf = true

theorem Inv.inside_todo {s : State} (v : Inv s) : Inside s.todo s :=
  ⟨v.cfg, v.busy, v.level, v.stream, v.halt, v.window, v.line, fun _ => v.sound, v.gram⟩

/-- SEQ waits for BUS inside the operation at PC. -/
def AtPc (s : State) : Prop :=
  ∃ i rest, decode (s.prog.drop s.pc) = .ok (i, rest) ∧ s.todo ≠ [] ∧ s.todo <:+ seqProgram s.cfg i

/-- SEQ at rest: at the end of an operation, after a halt, or waiting for BUS. -/
theorem Inside.inv {ms : List Micro} {s : State} (v : Inside ms s) (h : ms ≠ [] → s.halted = false ∧ s.xferBusy = true)
    (ho : s.xferBusy = true → s.halted = false → AtPc { s with todo := ms }) : Inv { s with todo := ms } where
  cfg := v.cfg
  busy := v.busy
  level := v.level
  stream := v.stream
  halt := v.halt
  window := v.window
  line := v.line
  inside := fun hm => (h hm).2
  sound := by
    by_cases hm : ms = []
    · subst hm; rfl
    · exact v.sound (h hm).1
  operation := ho
  gram := v.gram

/-- A halted machine may drop the actions still to come. -/
theorem Inside.drop {ms : List Micro} {s : State} (v : Inside ms s) (h : s.halted = true) : Inside [] s :=
  ⟨v.cfg, v.busy, v.level, v.stream, v.halt, v.window, fun k => (by rw [h] at k; cases k), fun _ => rfl, v.gram⟩

/-- BUS keeps the invariant (40_transfer.md R103, R105). -/
theorem busStep_inside {ms : List Micro} {s : State} (v : Inside ms s) : Inside ms (busStep s) := by
  rcases busStep_cases s with ⟨-, e⟩ | ⟨t, hi, e | ⟨k, e⟩ | e⟩ <;> rw [e]
  · exact v
  · exact ⟨v.cfg, rfl, fun _ h => (nomatch h), v.stream, v.halt, v.window, v.line, v.sound, panelEvent_wf _ _ _ v.gram⟩
  · exact ⟨v.cfg, v.busy, v.level, v.stream, rfl, v.window, fun h => (nomatch h), fun h => (nomatch h), v.gram⟩
  · exact ⟨v.cfg, v.busy, v.level, v.stream, v.halt, v.window, v.line, v.sound, v.gram⟩

/-- A halt keeps the invariant (60_exceptions.md R176). -/
theorem raiseHalt_inside {ms ks : List Micro} {s : State} {k : Cause} (hk : k ≠ .none) (v : Inside ms s) :
    Inside ks (raiseHalt k s) :=
  ⟨v.cfg, v.busy, v.level, v.stream, by simp [raiseHalt, hk], v.window, fun h => (nomatch h), fun h => (nomatch h), v.gram⟩

theorem Check.cause_ne (k : Check) : k.cause ≠ .none := by cases k <;> simp [Check.cause]

/-- The Draw Window invariants hold after a window that fits is loaded (10_state.md R23). -/
theorem windowRegs_windowOf {s : State} (wf : s.cfg.WellFormed) {x y w h : Nat} (ok : WindowOk s.cfg x y w h) :
    WindowRegs { s with win := windowOf x y w h, winValid := true } := by
  have hc := ok.count_lt wf
  have h1 := wf.1.2
  have h2 := wf.2.1.2
  obtain ⟨o1, o2, o3, o4⟩ := ok
  have u1 : s.cfg.usableCols ≤ s.cfg.nativeCols := Nat.sub_le _ _
  have u2 : s.cfg.usableRows ≤ s.cfg.nativeRows := Nat.sub_le _ _
  have e1 : w % 2 ^ 9 = w := Nat.mod_eq_of_lt (by omega)
  have e2 : h % 2 ^ 9 = h := Nat.mod_eq_of_lt (by omega)
  have e3 : w * h % 2 ^ 17 = w * h := Nat.mod_eq_of_lt hc
  have e4 : x % 2 ^ 8 = x := Nat.mod_eq_of_lt (by omega)
  have e5 : y % 2 ^ 8 = y := Nat.mod_eq_of_lt (by omega)
  have e6 : (x + w - 1) % 2 ^ 8 = x + w - 1 := Nat.mod_eq_of_lt (by omega)
  have e7 : (y + h - 1) % 2 ^ 8 = y + h - 1 := Nat.mod_eq_of_lt (by omega)
  refine ⟨?_, ?_, ?_, ?_, ?_, ?_, ?_⟩ <;> simp only [windowOf, BitVec.toNat_ofNat, e1, e2, e3, e4, e5, e6, e7] <;> omega

/-- An action of SEQ keeps the invariant, with the actions after it still to come. -/
theorem seqMicro_inside {m : Micro} {ms : List Micro} {s : State} (v : Inside (m :: ms) s) (h : s.halted = false)
    (hb : s.xferBusy = false) : Inside ms (seqMicro m s) := by
  have hi : s.inflight = none := by
    have := v.busy
    rw [hb] at this
    cases hx : s.inflight <;> simp [hx] at this ⊢
  have hl := v.line h
  have hs := v.sound h
  have lv : ∀ t, s.inflight = some t → t.dc = s.dcx := v.level
  have lvn : ∀ (b : Bool) t, s.inflight = some t → t.dc = b := fun b t ht => by rw [hi] at ht; cases ht
  have iss : ∀ bytes, dcxAfter s.dcx ms = true → todoSound s.cfg s.winValid ms = true → Inside ms (issue bytes s) := by
    intro bytes h1 h2
    unfold issue
    split
    · exact raiseHalt_inside (by decide) v
    · exact ⟨v.cfg, rfl, fun t ht => by simp at ht; rw [← ht], v.stream, v.halt, v.window, fun _ => h1, fun _ => h2, v.gram⟩
  cases m with
  | require k =>
    simp only [seqMicro]
    split
    · rename_i hp
      refine ⟨v.cfg, v.busy, lv, v.stream, v.halt, v.window, fun _ => by simpa only [dcxAfter] using hl, fun _ => ?_, v.gram⟩
      cases k
      case windowFits x y w h => simpa [todoSound, Check.passes] using (by
        simp only [todoSound, Check.passes] at hs hp; rw [hp] at hs; exact hs)
      case windowValid =>
        simp only [todoSound, Check.passes] at hs hp; rw [hp] at hs; simpa [hp] using hs
      all_goals simpa only [todoSound] using hs
    · exact raiseHalt_inside (Check.cause_ne k) v
  | beginReset =>
    exact ⟨v.cfg, v.busy, lv, rfl, v.halt, fun hh => (by cases hh), fun _ => hl, fun _ => hs, v.gram⟩
  | setResx l =>
    exact ⟨v.cfg, v.busy, lv, v.stream, v.halt, v.window, fun _ => hl, fun _ => hs, panelEvent_wf _ _ (.resx l) v.gram⟩
  | delay d => exact ⟨v.cfg, v.busy, lv, v.stream, v.halt, v.window, fun _ => hl, fun _ => hs, v.gram⟩
  | setPstate p => exact ⟨v.cfg, v.busy, lv, v.stream, v.halt, v.window, fun _ => hl, fun _ => hs, v.gram⟩
  | setDcx l => exact ⟨v.cfg, v.busy, lvn l, v.stream, v.halt, v.window, fun _ => hl, fun _ => hs, v.gram⟩
  | transfer bytes => exact iss bytes hl hs
  | invalidateWindow =>
    exact ⟨v.cfg, v.busy, lv, v.stream, v.halt, fun hh => (by cases hh), fun _ => hl, fun _ => hs, v.gram⟩
  | loadWindow x y w h =>
    simp only [todoSound, Bool.and_eq_true, decide_eq_true_eq] at hs
    exact ⟨v.cfg, v.busy, lv, v.stream, v.halt, fun _ => windowRegs_windowOf v.cfg hs.1, fun _ => hl, fun _ => hs.2, v.gram⟩
  | openStream =>
    simp only [todoSound, Bool.and_eq_true] at hs
    obtain ⟨w1, w2, w3, w4, w5, w6, w7⟩ := v.window hs.1
    refine ⟨v.cfg, v.busy, lv, ?_, v.halt, v.window, fun _ => hl, fun _ => hs.2, v.gram⟩
    have : 0 < s.win.w.toNat * s.win.h.toNat := Nat.mul_pos (by omega) (by omega)
    simp only [seqMicro, openStream]
    exact (decide_eq_true (by omega)).symm
  | countPixel =>
    refine ⟨v.cfg, v.busy, lv, ?_, v.halt, v.window, fun _ => hl, fun _ => hs, v.gram⟩
    have h1 := countPixel_px s
    have h2 := countPixel_open s
    change (countPixel s).streaming = decide (0 < (countPixel s).pxRemaining.toNat)
    rw [h2, v.stream, ← Bool.decide_and, decide_eq_decide, h1]
    omega
  | packField ch pct => exact ⟨v.cfg, v.busy, lv, v.stream, v.halt, v.window, fun _ => hl, fun _ => hs, v.gram⟩
  | rasterize code color scale => exact ⟨v.cfg, v.busy, lv, v.stream, v.halt, v.window, fun _ => hl, fun _ => hs, v.gram⟩
  | transferRaster i => exact iss _ hl hs
  | dropRaster => exact ⟨v.cfg, v.busy, lv, v.stream, v.halt, v.window, fun _ => hl, fun _ => hs, v.gram⟩
  | advancePc n => exact ⟨v.cfg, v.busy, lv, v.stream, v.halt, v.window, fun _ => hl, fun _ => hs, v.gram⟩
  | write w => cases hs

/-- The action and BUS's step on it keep the invariant. -/
theorem actMicro_inside {m : Micro} {ms : List Micro} {s : State} (v : Inside (m :: ms) s) (h : s.halted = false)
    (hb : s.xferBusy = false) : Inside ms (actMicro m s) := by
  have k := seqMicro_inside v h hb
  unfold actMicro
  simp only
  split
  · exact k
  · split
    · exact busStep_inside k
    · exact k

/-- A program keeps the invariant, if where it waits for BUS it is inside the operation at PC. -/
theorem runSeq_inside (ms : List Micro) : ∀ {s : State}, Inside ms s → s.halted = false → s.xferBusy = false →
    ((runSeq ms s).xferBusy = true → (runSeq ms s).halted = false → AtPc (runSeq ms s)) → Inv (runSeq ms s) := by
  induction ms with
  | nil => intro s v _ hb ho; exact v.inv (fun h => absurd rfl h) ho
  | cons m ms ih =>
    intro s v h hb ho
    have k := actMicro_inside v h hb
    simp only [runSeq] at ho ⊢
    split
    · rename_i hh
      exact (k.drop hh).inv (fun h => absurd rfl h) fun _ h1 => by rw [hh] at h1; cases h1
    · rename_i hh
      rw [if_neg hh] at ho
      split
      · rename_i hbb
        rw [if_pos hbb] at ho
        exact k.inv (fun _ => ⟨by simpa using hh, hbb⟩) ho
      · rename_i hbb
        rw [if_neg hbb] at ho
        exact ih k (by simpa using hh) (by simpa using hbb) ho

/-- Where an outcome waits for BUS, it is inside the operation at PC. -/
theorem Outcome.atPc {i : Instr} {rest : List Byte} {ms : List Micro} {s t : State}
    (o : Outcome ms (oplen i) s t) (hd : decode (s.prog.drop s.pc) = .ok (i, rest)) (hp : t.prog = s.prog)
    (hc : t.cfg = s.cfg) (hm : ms ++ [.advancePc (oplen i)] <:+ seqProgram s.cfg i) (hb : t.xferBusy = true)
    (hh : t.halted = false) : AtPc t := by
  rcases o with ⟨-, b, -, -⟩ | ⟨a, -, -, -⟩ | ⟨-, -, c, k, d, e⟩
  · rw [b] at hb; cases hb
  · rw [a] at hh; cases hh
  · refine ⟨i, rest, by rw [hp, c]; exact hd, by simp [d], ?_⟩
    rw [d, hc]
    exact (List.IsSuffix.trans (by obtain ⟨p, hp⟩ := e; exact ⟨p, by rw [← List.append_assoc, hp]⟩) hm)

/-- No program and no step of BUS writes CFG or PROG. -/
theorem along_params : Along (fun s t => t.prog = s.prog ∧ t.cfg = s.cfg) fun _ => True where
  trans := fun a b => ⟨b.1.trans a.1, b.2.trans a.2⟩
  todo := fun _ _ => ⟨rfl, rfl⟩
  bus := fun s => ⟨(busStep_keeps s).2.1, (busStep_keeps s).1⟩
  micro := fun m s _ => ⟨(seqMicro_keeps m s).2.1, (seqMicro_keeps m s).1⟩

/-- Performing the operation at PC keeps the invariant. -/
theorem operation_inv {i : Instr} {rest : List Byte} {s : State} (v : Inv s) (hh : s.halted = false) (hb : s.xferBusy = false)
    (hd : decode (s.prog.drop s.pc) = .ok (i, rest)) (ht : s.todo = []) : Inv (runSeq (seqProgram s.cfg i) s) := by
  obtain ⟨op, ho⟩ := decode_op hd
  obtain ⟨ms, e, hm⟩ := seqProgram_ofBody ho s.cfg
  have hl := v.line hh
  rw [ht] at hl
  have hl : s.dcx = true := hl
  refine runSeq_inside _ ⟨v.cfg, v.busy, v.level, v.stream, v.halt, v.window, fun _ => by rw [hl]; exact steady_program _ i,
    fun _ => (sound_program _ i).todoSound _, v.gram⟩ hh hb fun h1 h2 => ?_
  have k := along_params.runSeq (seqProgram s.cfg i) (fun _ _ => trivial) s
  have o := runSeq_outcome (oplen i) ms hm s hh hb
  rw [← e] at o
  exact o.atPc hd k.1 k.2 (by rw [e]) h1 h2

/-- The operation SEQ is inside of, and its actions still to come. -/
theorem Inv.waiting {s : State} (v : Inv s) (hh : s.halted = false) (hb : s.xferBusy = true) :
    ∃ i op rest ms, decode (s.prog.drop s.pc) = .ok (i, rest) ∧ opOf i = some op ∧ (∀ m ∈ ms, m.ofBody) ∧
      s.todo = ms ++ [.advancePc (oplen i)] ∧ s.todo <:+ seqProgram s.cfg i := by
  obtain ⟨i, rest, hd, hn, hs⟩ := v.operation hb hh
  obtain ⟨op, ho⟩ := decode_op hd
  obtain ⟨ms, e, hm⟩ := seqProgram_ofBody ho s.cfg
  have hs' := hs
  rw [e] at hs'
  obtain ⟨k, ek, hk⟩ := suffix_concat hs' hn
  exact ⟨i, op, rest, k, hd, ho, fun m h => hm m (hk.subset h), ek, hs⟩

/-- BUS's step on the transfer in flight, and SEQ's going on, keep the invariant. -/
theorem resume_inv {s : State} (v : Inv s) (hh : s.halted = false) (hb : s.xferBusy = true) : Inv (resume s) := by
  obtain ⟨i, op, rest, ms, hd, -, hm, ht, hs⟩ := v.waiting hh hb
  have k := busStep_inside v.inside_todo
  have e := (busStep_keeps s).2.2.2.2.2.2.2.2.2.2.2.2.2.2
  have kp := along_params.resume (s := s) fun _ _ => trivial
  have o := (resume_outcome hm hh ht).atPc hd kp.1 kp.2 (by rw [← ht]; exact hs)
  unfold resume at o ⊢
  simp only at o ⊢
  split
  · rename_i h1
    exact (k.drop h1).inv (fun h => absurd rfl h) fun _ h2 => by rw [h1] at h2; cases h2
  · rename_i h1
    rw [if_neg h1] at o
    split
    · rename_i h2
      rw [if_pos h2] at o
      have es : ({ busStep s with todo := s.todo } : State) = busStep s := by rw [← e]
      have := k.inv (fun _ => ⟨by simpa using h1, h2⟩) (by rw [es]; exact o)
      rwa [es] at this
    · rename_i h2
      rw [if_neg h2] at o
      rw [e] at o ⊢
      exact runSeq_inside _ k (by simpa using h1) (by simpa using h2) o

/-- A step on the operation at PC, the step that starts it or one that goes on with it, keeps what its program does not
write. -/
theorem step_frame {α : Type} (f : State → α) (htodo : ∀ s x, f { s with todo := x } = f s)
    (hhost : ∀ s x, f { s with host := x } = f s) (hbus : ∀ s, f (busStep s) = f s) {i : Instr} {rest : List Byte}
    {s t : State} (v : Inv s) (hh : HostIdle s) (hd : decode (s.prog.drop s.pc) = .ok (i, rest))
    (h : ∀ m ∈ seqProgram s.cfg i, ∀ s, f (seqMicro m s) = f s) (he : step s = .next t) : f t = f s := by
  rcases step_cases he with ⟨r, e, -⟩ | ⟨r, e, -⟩ | ⟨-, -, hl, d⟩
  · simp [HostIdle, e] at hh
  · simp [HostIdle, e] at hh
  · refine Eq.trans ?_ (hhost s s.host.tail)
    generalize hu : ({ s with host := s.host.tail } : State) = u at d ⊢
    have hdu : decode (u.prog.drop u.pc) = .ok (i, rest) := by rw [← hu]; exact hd
    have hcu : u.cfg = s.cfg := by rw [← hu]
    cases d with
    | busy hb =>
      obtain ⟨j, _, rest', ms, hd', -, -, -, hs⟩ := v.waiting hl (by rw [← hu] at hb; exact hb)
      obtain ⟨rfl, -⟩ := Prod.mk.inj (Except.ok.inj (hd.symm.trans hd'))
      have ht : u.todo = s.todo := by rw [← hu]
      exact resume_frame f htodo hbus (by rw [ht]; exact fun m hm => h m (hs.subset hm))
    | inside m ms hb ht =>
      have := v.inside (by rw [← hu] at ht; exact ht ▸ (by simp))
      rw [← hu] at hb
      rw [show s.xferBusy = false from hb] at this
      cases this
    | operation j op rest' ho hd' hb ht =>
      obtain ⟨rfl, -⟩ := Prod.mk.inj (Except.ok.inj (hdu.symm.trans hd'))
      exact runSeq_frame f htodo hbus _ (by rw [hcu]; exact h) u
    | illegal r hd' => simp [fetch, hdu] at hd'

end Sys2Proof.Machine
end

