-- ==== Sys2Proof/Laws/PerInstr.lean ====
section
/-! SUPPORT. Laws/PerInstr.lean: what holds of every instruction, one lemma per constructor. EncodeLength: the encoding has
the length 30_encoding.md R72 gives the descriptor (R85 the command byte). -/

namespace Sys2Proof

/-- The encoding of a well-formed instruction is as long as the spec says (30_encoding.md R72, R85). -/
def Laws.EncodeLength.Statement (i : Instr) : Prop :=
  i.wellFormed = true → ∀ c : Cfg, (encode c i).length = oplen i

theorem Laws.EncodeLength.reset : Laws.EncodeLength.Statement .reset := fun _ _ => rfl

theorem Laws.EncodeLength.configure : Laws.EncodeLength.Statement .configure := fun _ _ => rfl

theorem Laws.EncodeLength.sendCommand (code : Byte) : Laws.EncodeLength.Statement (.sendCommand code) := fun _ _ => rfl

theorem Laws.EncodeLength.sendData (byte : Byte) : Laws.EncodeLength.Statement (.sendData byte) := fun _ _ => rfl

theorem Laws.EncodeLength.setDrawWindow (x y w h : BitVec 16) : Laws.EncodeLength.Statement (.setDrawWindow x y w h) := fun _ _ => rfl

theorem Laws.EncodeLength.beginPixelWrite : Laws.EncodeLength.Statement .beginPixelWrite := fun _ _ => rfl

theorem Laws.EncodeLength.writePixel (pixel : Pixel) : Laws.EncodeLength.Statement (.writePixel pixel) := fun _ _ => rfl

theorem Laws.EncodeLength.pack (ch : Channel) (pct : Byte) : Laws.EncodeLength.Statement (.pack ch pct) := fun _ _ => rfl

theorem Laws.EncodeLength.drawCharacter (x y : BitVec 16) (code : Byte) (color : Pixel) (scale : Byte) : Laws.EncodeLength.Statement (.drawCharacter x y code color scale) := fun _ _ => rfl

theorem Laws.EncodeLength.drawString (x y : BitVec 16) (color : Pixel) (scale : Byte) (text : List Byte) : Laws.EncodeLength.Statement (.drawString x y color scale text) := fun _ _ => by
  simp [encode, bytes16, oplen]; omega

theorem Laws.EncodeLength.drawLine (xs ys xe ye : BitVec 16) (color : Pixel) : Laws.EncodeLength.Statement (.drawLine xs ys xe ye color) := fun _ _ => rfl

theorem Laws.EncodeLength.init : Laws.EncodeLength.Statement .init := fun _ _ => rfl

theorem Laws.EncodeLength.refresh (it ih ot oh : BitVec 16) : Laws.EncodeLength.Statement (.refresh it ih ot oh) := fun _ _ => rfl

theorem Laws.EncodeLength.cmdSwreset : Laws.EncodeLength.Statement .cmdSwreset := fun _ _ => rfl

theorem Laws.EncodeLength.cmdColmod : Laws.EncodeLength.Statement .cmdColmod := fun _ _ => rfl

theorem Laws.EncodeLength.cmdMadctl : Laws.EncodeLength.Statement .cmdMadctl := fun _ _ => rfl

theorem Laws.EncodeLength.cmdCaset : Laws.EncodeLength.Statement .cmdCaset := fun _ _ => rfl

theorem Laws.EncodeLength.cmdRaset : Laws.EncodeLength.Statement .cmdRaset := fun _ _ => rfl

theorem Laws.EncodeLength.cmdRamwr : Laws.EncodeLength.Statement .cmdRamwr := fun _ _ => rfl

theorem Laws.EncodeLength.cmdDispon : Laws.EncodeLength.Statement .cmdDispon := fun _ _ => rfl

end Sys2Proof
end

