-- ==== Sys2Proof/Laws/Pixel.lean ====
section
/-! SUPPORT. Laws/Pixel.lean: the bits of a Pixel: what PACK's assignment and `pack` write. -/

namespace Sys2Proof.Machine

/-- A bit of three parts joined. -/
theorem bit_append3 {k m n : Nat} (a : BitVec k) (b : BitVec m) (c : BitVec n) (i : Nat) :
    (a ++ b ++ c).getLsbD i =
      if i < n then c.getLsbD i else if i - n < m then b.getLsbD (i - n) else a.getLsbD (i - n - m) := by
  rw [BitVec.getLsbD_append, BitVec.getLsbD_append]

/-- PACK's assignment bit by bit: the channel's bits take the value, the others stay (42_pixel_model.md R134). -/
theorem setField_bit (ch : Channel) (v : Nat) (p : Pixel) (i : Nat) (hi : i < 16) :
    (setField ch v p).getLsbD i = if (channelMask ch).getLsbD i then (setField ch v 0).getLsbD i else p.getLsbD i := by
  cases ch
  · refine (bit_append3 (p.extractLsb' 8 8) (BitVec.ofNat 5 v) (p.extractLsb' 0 3) i).trans ?_
    rw [show (setField .red v 0).getLsbD i = _ from
      bit_append3 ((0 : Pixel).extractLsb' 8 8) (BitVec.ofNat 5 v) ((0 : Pixel).extractLsb' 0 3) i]
    interval_cases i <;> simp [channelMask]
  · refine (bit_append3 (BitVec.ofNat 3 v) (p.extractLsb' 3 10) (BitVec.ofNat 3 (v / 8)) i).trans ?_
    rw [show (setField .green v 0).getLsbD i = _ from
      bit_append3 (BitVec.ofNat 3 v) ((0 : Pixel).extractLsb' 3 10) (BitVec.ofNat 3 (v / 8)) i]
    interval_cases i <;> simp [channelMask]
  · refine (bit_append3 (p.extractLsb' 13 3) (BitVec.ofNat 5 v) (p.extractLsb' 0 8) i).trans ?_
    rw [show (setField .blue v 0).getLsbD i = _ from
      bit_append3 ((0 : Pixel).extractLsb' 13 3) (BitVec.ofNat 5 v) ((0 : Pixel).extractLsb' 0 8) i]
    interval_cases i <;> simp [channelMask]

/-- `pack(channel, pct)` has bits in the channel's field only (42_pixel_model.md R133). -/
theorem pack_bit : ∀ (ch : Channel) (i : Fin 16) (pct : Fin 101),
    (pack ch pct).getLsbD i = ((channelMask ch).getLsbD i && (setField ch (quant ch pct) 0).getLsbD i) := by
  intro ch; cases ch <;> decide +kernel

/-- PACK's assignment as the rule writes it (42_pixel_model.md R134). -/
theorem setField_eq (ch : Channel) (pct : Fin 101) (p : Pixel) :
    setField ch (quant ch pct) p = p &&& ~~~ (channelMask ch) ||| pack ch pct := by
  apply BitVec.eq_of_getLsbD_eq
  intro i hi
  rw [setField_bit _ _ _ _ hi, BitVec.getLsbD_or, BitVec.getLsbD_and, BitVec.getLsbD_not, pack_bit ch ⟨i, hi⟩ pct]
  cases h : (channelMask ch).getLsbD i <;> simp [hi]

end Sys2Proof.Machine
end

