-- ==== Sys2Proof/Laws/Under.lean ====
section
/-! SUPPORT. Laws/Under.lean: a state is a machine's state under its parameters, and a run looks at BUS's choices only as far
as it uses them. -/

namespace Sys2Proof.Machine

@[simp] theorem Regs.under_toRegs (r : Regs) (c : Cfg) (prog : List Byte) (e : Inputs) :
    (r.under c prog e).toRegs = r := rfl
@[simp] theorem Regs.under_toInputs (r : Regs) (c : Cfg) (prog : List Byte) (e : Inputs) :
    (r.under c prog e).toInputs = e := rfl
@[simp] theorem Regs.under_cfg (r : Regs) (c : Cfg) (prog : List Byte) (e : Inputs) : (r.under c prog e).cfg = c := rfl
@[simp] theorem Regs.under_prog (r : Regs) (c : Cfg) (prog : List Byte) (e : Inputs) : (r.under c prog e).prog = prog := rfl
@[simp] theorem State.toRegs_under (s : State) : s.toRegs.under s.cfg s.prog s.toInputs = s := rfl

/-- A state with the parameters `c` and `prog` is its machine's state under them. -/
theorem State.eq_under {s : State} {c : Cfg} {prog : List Byte} (hc : s.cfg = c) (hp : s.prog = prog) :
    s = s.toRegs.under c prog s.toInputs := by subst hc hp; rfl

/-- An outcome leaves the machine's state at `r` exactly when it is a next state that holds `r`. -/
theorem regsOf_next {o : Host.Outcome State Fault Refusal} {r : Regs} :
    regsOf o = .next r ↔ ∃ t, o = .next t ∧ t.toRegs = r := by
  cases o <;> simp [regsOf]

/-- What an outcome says of the machine's state faults exactly when it does. -/
theorem regsOf_fault {o : Host.Outcome State Fault Refusal} {f : Fault} : regsOf o = .fault f ↔ o = .fault f := by
  cases o <;> simp [regsOf]

/-- What an outcome says of the machine's state is refused exactly when it is. -/
theorem regsOf_refused {o : Host.Outcome State Fault Refusal} {f : Refusal} : regsOf o = .refused f ↔ o = .refused f := by
  cases o <;> simp [regsOf]

/-- A step under given parameters is the machine's step from the state under them. -/
theorem stepUnder_next {c : Cfg} {prog : List Byte} {e : Inputs} {r r' : Regs} :
    stepUnder c prog e r = .next r' ↔ ∃ t, step (r.under c prog e) = .next t ∧ t.toRegs = r' := regsOf_next

/-- A step under given parameters faults exactly when the machine's step from the state under them does. -/
theorem stepUnder_fault {c : Cfg} {prog : List Byte} {e : Inputs} {r : Regs} {f : Fault} :
    stepUnder c prog e r = .fault f ↔ step (r.under c prog e) = .fault f := regsOf_fault

/-- A run's first step, if the run goes on to a state. -/
theorem runUnder_cons {c : Cfg} {prog : List Byte} {e : Inputs} {es : List Inputs} {r t : Regs} :
    runUnder c prog (e :: es) r = .next t ↔ ∃ u, stepUnder c prog e r = .next u ∧ runUnder c prog es u = .next t := by
  cases h : stepUnder c prog e r <;> simp [runUnder, h]

/-- A state with other things for BUS and HOST to do. -/
def State.fed (s : State) (e : Inputs) : State := { s with toInputs := e }

@[simp] theorem State.fed_halted (s : State) (e : Inputs) : (s.fed e).halted = s.halted := rfl
@[simp] theorem State.fed_xferBusy (s : State) (e : Inputs) : (s.fed e).xferBusy = s.xferBusy := rfl
@[simp] theorem State.fed_rstN (s : State) (e : Inputs) : (s.fed e).rstN = s.rstN := rfl
@[simp] theorem State.fed_todo (s : State) (e : Inputs) : (s.fed e).todo = s.todo := rfl

/-- `used` before the choices of BUS that `e` has to come. -/
def Inputs.after (used : List BusChoice) (e : Inputs) : Inputs := { e with bus := used ++ e.bus }

@[simp] theorem Inputs.after_nil (e : Inputs) : e.after [] = e := rfl

theorem Inputs.after_append (a b : List BusChoice) (e : Inputs) : e.after (a ++ b) = (e.after b).after a := by
  simp [Inputs.after, List.append_assoc]

/-- From `s`, `f` uses up some of BUS's choices and looks at no other, nor at what HOST does. -/
def Uses (f : State → State) (s : State) : Prop := ∃ used, ∀ e, f (s.fed (e.after used)) = (f s).fed e

/-- BUS's step uses one choice, with a transfer in flight. -/
theorem busStep_uses (s : State) : Uses busStep s := by
  cases hi : s.inflight with
  | none => exact ⟨[], fun e => by simp [busStep, hi, show (s.fed e).inflight = none from hi]⟩
  | some t =>
    refine ⟨[s.busNext], fun e => ?_⟩
    have hi' : (s.fed (e.after [s.busNext])).inflight = some t := hi
    have hn' : (s.fed (e.after [s.busNext])).busNext = s.busNext := rfl
    cases hn : s.busNext <;> rw [hn] at hn' hi'
    · rw [busStep_perform hi hn, busStep_perform hi' hn']; rfl
    · rw [busStep_fault hi hn, busStep_fault hi' hn']; rfl
    · rw [busStep_stall hi hn, busStep_stall hi' hn']; rfl

/-- No action of SEQ looks at what BUS and HOST do. -/
theorem seqMicro_fed (m : Micro) (s : State) (e : Inputs) : seqMicro m (s.fed e) = (seqMicro m s).fed e := by
  cases m
  case require k =>
    have : k.passes (s.fed e) = k.passes s := by cases k <;> rfl
    simp only [seqMicro, this]
    split <;> rfl
  case transfer bytes => simp only [seqMicro, issue]; split <;> rfl
  case write w => cases w <;> rfl
  all_goals rfl

theorem actMicro_uses (m : Micro) (s : State) : Uses (actMicro m) s := by
  by_cases h1 : (seqMicro m s).halted = true
  · exact ⟨[], fun e => by simp [actMicro, seqMicro_fed, h1]⟩
  · by_cases h2 : (seqMicro m s).xferBusy = true
    · obtain ⟨used, h⟩ := busStep_uses (seqMicro m s)
      exact ⟨used, fun e => by simp [actMicro, seqMicro_fed, h1, h2, h]⟩
    · exact ⟨[], fun e => by simp [actMicro, seqMicro_fed, h1, h2]⟩

/-- SEQ's actions use up BUS's choices one after another and look at no other. -/
theorem runSeq_uses (ms : List Micro) : ∀ s, Uses (runSeq ms) s := by
  induction ms with
  | nil => exact fun s => ⟨[], fun _ => rfl⟩
  | cons m ms ih =>
    intro s
    obtain ⟨a, ha⟩ := actMicro_uses m s
    by_cases h1 : (actMicro m s).halted = true
    · exact ⟨a, fun e => by simp [runSeq, ha, h1]; rfl⟩
    · by_cases h2 : (actMicro m s).xferBusy = true
      · exact ⟨a, fun e => by simp [runSeq, ha, h1, h2]; rfl⟩
      · obtain ⟨b, hb⟩ := ih (actMicro m s)
        exact ⟨a ++ b, fun e => by simp [runSeq, Inputs.after_append, ha, h1, h2, hb]⟩

/-- BUS's step on the transfer in flight, and SEQ's going on, use up BUS's choices and look at no other. -/
theorem resume_uses (s : State) : Uses resume s := by
  obtain ⟨a, ha⟩ := busStep_uses s
  by_cases h1 : (busStep s).halted = true
  · exact ⟨a, fun e => by simp [resume, ha, h1]; rfl⟩
  · by_cases h2 : (busStep s).xferBusy = true
    · exact ⟨a, fun e => by simp [resume, ha, h1, h2]⟩
    · obtain ⟨b, hb⟩ := runSeq_uses (busStep s).todo (busStep s)
      exact ⟨a ++ b, fun e => by simp [resume, Inputs.after_append, ha, h1, h2, hb]⟩

/-- A step of SEQ and BUS uses up some of BUS's choices and looks at no other, nor at what HOST does. -/
theorem dheStep_uses {u t : State} (hr : u.rstN = true) (hl : u.halted = false) (d : DheStep u t) :
    ∃ used, ∀ e, dheStep (u.fed (e.after used)) = .next (t.fed e) := by
  cases d with
  | busy hb =>
    obtain ⟨a, ha⟩ := resume_uses u
    exact ⟨a, fun e => by simp [dheStep, hr, hl, hb, ha]⟩
  | inside m ms hb ht =>
    obtain ⟨a, ha⟩ := runSeq_uses (m :: ms) u
    exact ⟨a, fun e => by simp [dheStep, hr, hl, hb, ht, ha]⟩
  | operation i op rest ho hd hb ht =>
    obtain ⟨a, ha⟩ := runSeq_uses (seqProgram u.cfg i) u
    refine ⟨a, fun e => ?_⟩
    have hd' : fetch (u.fed (e.after a)) = .ok (i, rest) := hd
    have hc : (u.fed (e.after a)).cfg = u.cfg := rfl
    simp [dheStep, hr, hl, hb, ht, fetchAndRun, hd', exec_eq_perform ho, perform, hc, ha]
  | illegal r hd hf hb ht =>
    refine ⟨[], fun e => ?_⟩
    have hd' : fetch (u.fed e) = .error r := hd
    have hf' : fetchStop r (u.fed e) = .next ((raiseHalt .illegalOp u).fed e) := by
      cases r with
      | truncated => unfold fetchStop at hf; simp only at hf; split at hf <;> cases hf
      | _ => rfl
    simp [dheStep, hr, hl, hb, ht, fetchAndRun, hd', hf']

/-- A step uses up some of BUS's choices and one action of HOST and looks at no other. -/
theorem step_uses {s t : State} (h : step s = .next t) :
    ∃ used act, ∀ e : Inputs, step (s.fed { e.after used with host := act :: e.host }) = .next (t.fed e) := by
  rcases step_cases h with ⟨r, -, rfl⟩ | ⟨r, -, rfl⟩ | ⟨-, hr, hl, d⟩
  · exact ⟨[], .assertReset, fun e => rfl⟩
  · refine ⟨[], .releaseReset, fun e => ?_⟩
    show Host.Outcome.next (releaseReset { s with toInputs := e }) = .next ((releaseReset { s with host := r }).fed e)
    unfold releaseReset
    cases s.rstN <;> simp <;> rfl
  · obtain ⟨used, hu⟩ := dheStep_uses (u := { s with host := s.host.tail }) hr hl d
    exact ⟨used, .idle, fun e => (step_hostIdle (.inr rfl)).trans (hu e)⟩

end Sys2Proof.Machine
end

