-- ==== Sys2Proof/Machine/Assembler.lean ====
section
/-! DEFINITION. Machine/Assembler.lean: the assembler's syntax and its pseudo-operations (30_encoding.md R78). What the rule
does not say of the text (spaces, a number out of its field's range, a quote inside quotes, a WINDOW_CMDS whose sums are no
u8) is log entry 22. -/

namespace Sys2Proof.Machine

/-- Without the spaces at both ends. -/
def trimSpaces (cs : List Char) : List Char :=
  ((cs.dropWhile (· = ' ')).reverse.dropWhile (· = ' ')).reverse

/-- The quote open after `ch`, where `q` was open before it. -/
def quoteAfter (q : Option Char) (ch : Char) : Option Char :=
  match q with
  | none => if ch = '"' ∨ ch = '\'' then some ch else none
  | some e => if ch = e then none else some e

/-- The text cut at the commas outside quotes; `q` is the quote open at its start. -/
def splitOperands : Option Char → List Char → List (List Char)
  | _, [] => [[]]
  | q, ch :: cs =>
    if q = none ∧ ch = ',' then [] :: splitOperands none cs
    else
      match splitOperands (quoteAfter q ch) cs with
      | [] => [[ch]]
      | o :: os => (ch :: o) :: os

/-- The value of a digit. -/
def digitValue (ch : Char) : Option Nat :=
  if '0' ≤ ch ∧ ch ≤ '9' then some (ch.toNat - '0'.toNat)
  else if 'a' ≤ ch ∧ ch ≤ 'f' then some (ch.toNat - 'a'.toNat + 10)
  else if 'A' ≤ ch ∧ ch ≤ 'F' then some (ch.toNat - 'A'.toNat + 10)
  else none

/-- The number written by digits of a base, in front of which `acc` has been read. -/
def natOfDigits (base : Nat) : List Char → Nat → Option Nat
  | [], acc => some acc
  | ch :: cs, acc =>
    match digitValue ch with
    | some d => if d < base then natOfDigits base cs (base * acc + d) else none
    | none => none

/-- A number: decimal, hexadecimal after 0x, or a character code in single quotes. -/
def parseNat : List Char → Option Nat
  | ['\'', ch, '\''] => some ch.toNat
  | '0' :: 'x' :: d :: ds => natOfDigits 16 (d :: ds) 0
  | d :: ds => natOfDigits 10 (d :: ds) 0
  | [] => none

/-- A number as an operand of `w` bits. -/
def parseField (w : Nat) (cs : List Char) : Option (BitVec w) :=
  (parseNat cs).bind fun n => if n < 2 ^ w then some (BitVec.ofNat w n) else none

/-- PACK's channel. -/
def parseChannel (cs : List Char) : Option Channel :=
  match String.ofList cs with
  | "red" => some .red
  | "green" => some .green
  | "blue" => some .blue
  | _ => none

/-- A decimal with exactly one fractional digit and no sign, in tenths. -/
def parseUnsignedTenths (cs : List Char) : Option Nat :=
  match cs.takeWhile (· ≠ '.'), cs.dropWhile (· ≠ '.') with
  | d :: ds, ['.', f] => natOfDigits 10 (d :: ds ++ [f]) 0
  | _, _ => none

/-- REFRESH's operand: `21.7` is the s16 value 217. -/
def parseTenths : List Char → Option (BitVec 16)
  | '-' :: cs => (parseUnsignedTenths cs).bind fun n => if n ≤ 32768 then some (BitVec.ofInt 16 (-n)) else none
  | cs => (parseUnsignedTenths cs).bind fun n => if n ≤ 32767 then some (BitVec.ofNat 16 n) else none

/-- DRAW_STRING's text: a double-quoted string of at most 255 bytes. -/
def parseText : List Char → Option (List Byte)
  | '"' :: cs =>
    match cs.reverse with
    | '"' :: body =>
      if body.length ≤ 255 ∧ body.all fun ch => ch ≠ '"' && decide (ch.toNat < 256) then
        some (body.reverse.map fun ch => BitVec.ofNat 8 ch.toNat)
      else none
    | _ => none
  | _ => none

/-- `FILL n, pixel`. -/
def pseudoFill (n : Nat) (pixel : Pixel) : List Instr := .beginPixelWrite :: List.replicate n (.writePixel pixel)

/-- `RGB pr, pg, pb`. -/
def pseudoRgb (pr pg pb : Byte) : List Instr := [.pack .red pr, .pack .green pg, .pack .blue pb]

/-- An integer as a u8 operand, if it is one. -/
def byteOf (v : Int) : Option Byte := if 0 ≤ v ∧ v < 256 then some (BitVec.ofInt 8 v) else none

/-- `WINDOW_CMDS x, y, w, h`: the four sums are integers (00_scope.md section 5). DESIGN CHOICE: the line is refused where a
sum is no u8, as any number out of its field's range is (log entry 22). -/
def pseudoWindowCmds (c : Cfg) (x y w h : Int) : Option (List Instr) := do
  let xs ← byteOf (x + c.margin)
  let xe ← byteOf (x + w - 1 + c.margin)
  let ys ← byteOf (y + c.margin)
  let ye ← byteOf (y + h - 1 + c.margin)
  return [.sendCommand c.cmdCaset, .sendData 0, .sendData xs, .sendData 0, .sendData xe,
    .sendCommand c.cmdRaset, .sendData 0, .sendData ys, .sendData 0, .sendData ye]

/-- The operations of a mnemonic and its operands. -/
def assembleOp (c : Cfg) (mnemonic : String) (operands : List (List Char)) : Option (List Instr) :=
  match mnemonic, operands with
  | "RESET", [] => some [.reset]
  | "CONFIGURE", [] => some [.configure]
  | "SEND_COMMAND", [a] => do return [.sendCommand (← parseField 8 a)]
  | "SEND_DATA", [a] => do return [.sendData (← parseField 8 a)]
  | "SET_DRAW_WINDOW", [x, y, w, h] => do
    return [.setDrawWindow (← parseField 16 x) (← parseField 16 y) (← parseField 16 w) (← parseField 16 h)]
  | "BEGIN_PIXEL_WRITE", [] => some [.beginPixelWrite]
  | "WRITE_PIXEL", [p] => do return [.writePixel (← parseField 16 p)]
  | "PACK", [ch, pct] => do return [.pack (← parseChannel ch) (← parseField 8 pct)]
  | "DRAW_CHARACTER", [x, y, code, color, scale] => do
    return [.drawCharacter (← parseField 16 x) (← parseField 16 y) (← parseField 8 code) (← parseField 16 color)
      (← parseField 8 scale)]
  | "DRAW_STRING", [x, y, text, color, scale] => do
    return [.drawString (← parseField 16 x) (← parseField 16 y) (← parseField 16 color) (← parseField 8 scale)
      (← parseText text)]
  | "DRAW_LINE", [xs, ys, xe, ye, color] => do
    return [.drawLine (← parseField 16 xs) (← parseField 16 ys) (← parseField 16 xe) (← parseField 16 ye)
      (← parseField 16 color)]
  | "INIT", [] => some [.init]
  | "REFRESH", [it, ih, ot, oh] => do
    return [.refresh (← parseTenths it) (← parseTenths ih) (← parseTenths ot) (← parseTenths oh)]
  | "FILL", [n, p] => do return pseudoFill (← parseNat n) (← parseField 16 p)
  | "RGB", [pr, pg, pb] => do return pseudoRgb (← parseField 8 pr) (← parseField 8 pg) (← parseField 8 pb)
  | "WINDOW_CMDS", [x, y, w, h] => do
    pseudoWindowCmds c (← parseNat x) (← parseNat y) (← parseNat w) (← parseNat h)
  | _, _ => none

/-- The operations of one line: the mnemonic, then its operands separated by commas. -/
def assembleLine (c : Cfg) (line : String) : Option (List Instr) :=
  let cs := trimSpaces line.toList
  let rest := trimSpaces (cs.dropWhile (· ≠ ' '))
  assembleOp c (String.ofList (cs.takeWhile (· ≠ ' ')))
    (if rest = [] then [] else (splitOperands none rest).map trimSpaces)

/-- The bytes one line puts into PROG. -/
def assemble (c : Cfg) (line : String) : Option (List Byte) :=
  (assembleLine c line).map fun is => is.flatMap (encode c)

end Sys2Proof.Machine
end

