-- ==== Sys2Proof/Tests/Slice0.lean ====
section
/-! SUPPORT. Tests/Slice0.lean: tests of the model. Words, traces and end states come from 30_encoding.md and from the
vectors of 95_test_vectors.md (T<n>), not from the model. The second half shows that the hypotheses of the obligations can
be met together. -/

open Sys2Proof Sys2Proof.Machine

namespace Sys2Proof.Tests

/-! ## WellFormed -/

/-- A text of 256 bytes has no `n8` (30_encoding.md R77). -/
theorem test_text_of_256_is_refused : (Instr.drawString 0 0 0 1 (List.replicate 256 0x41)).wellFormed = false := by decide +kernel
/-- A text of 255 bytes has one. -/
theorem test_text_of_255_is_accepted : (Instr.drawString 0 0 0 1 (List.replicate 255 0x41)).wellFormed = true := by decide +kernel

/-! ## Decoding: words written out from 30_encoding.md R71, R74, R82 -/

/-- Format N: 0000_0001. -/
theorem test_decode_reset : decode [0b00000001] = .ok (.reset, []) := by decide +kernel
theorem test_decode_configure : decode [0b00000010, 0xAA] = .ok (.configure, [0xAA]) := by decide +kernel
/-- Format B: opcode, code8. -/
theorem test_decode_send_command : decode [0x03, 0b00101001] = .ok (.sendCommand 0x29, []) := by decide +kernel
theorem test_decode_send_data : decode [0x04, 0x05] = .ok (.sendData 0x05, []) := by decide +kernel
/-- Format W, most significant byte first (T10). -/
theorem test_decode_set_draw_window :
    decode [0x05, 0x00, 0x0A, 0x00, 0x14, 0x00, 0x03, 0x00, 0x02] = .ok (.setDrawWindow 10 20 3 2, []) := by decide +kernel
theorem test_decode_begin_pixel_write : decode [0x06] = .ok (.beginPixelWrite, []) := by decide +kernel
/-- Format P: the Pixel 0x1F00 is `1F 00` in the descriptor (T03). -/
theorem test_decode_write_pixel : decode [0x07, 0x1F, 0x00] = .ok (.writePixel 0x1F00, []) := by decide +kernel
/-- Format K (T50). -/
theorem test_decode_pack : decode [0x08, 0x01, 0x32] = .ok (.pack .green 50, []) := by decide +kernel
/-- Channel 3 is illegal (T59b). -/
theorem test_decode_pack_illegal : decode [0x08, 0x03, 0x32] = .error (.illegalChannel 3) := by decide +kernel
/-- Format C (T21). -/
theorem test_decode_draw_character :
    decode [0x09, 0x00, 0x03, 0x00, 0x05, 0x41, 0x00, 0xF8, 0x02] = .ok (.drawCharacter 3 5 0x41 0x00F8 2, []) := by decide +kernel
/-- Format S (T80). -/
theorem test_decode_draw_string :
    decode [0x0A, 0x00, 0x04, 0x00, 0x0A, 0x1F, 0x00, 0x02, 0x02, 0x32, 0x31] =
      .ok (.drawString 4 10 0x1F00 2 [0x32, 0x31], []) := by decide +kernel
/-- Format L (T30). -/
theorem test_decode_draw_line :
    decode [0x0B, 0x00, 0x05, 0x00, 0x03, 0x00, 0x05, 0x00, 0x0A, 0x00, 0xF8] = .ok (.drawLine 5 3 5 10 0x00F8, []) := by
  decide +kernel
theorem test_decode_init : decode [0x0C] = .ok (.init, []) := by decide +kernel
/-- Format R: s16 operands, -1.0 degree is 0xFFF6. -/
theorem test_decode_refresh :
    decode [0x0D, 0xFF, 0xF6, 0x01, 0xC5, 0x00, 0xB4, 0x01, 0xF4] = .ok (.refresh (-10) 453 180 500, []) := by decide +kernel
/-- 0x00, 0x0E and 0xFF are illegal (30_encoding.md R75, T74). -/
theorem test_decode_illegal : decode [0x00] = .error (.illegalOpcode 0x00) ∧ decode [0x0E, 1] = .error (.illegalOpcode 0x0E) ∧
    decode [0xFF] = .error (.illegalOpcode 0xFF) := by decide +kernel
/-- T76: one text byte missing. -/
theorem test_decode_truncated :
    decode [0x0A, 0x00, 0x00, 0x00, 0x00, 0x00, 0x00, 0x01, 0x02, 0x41] = .error .truncated := by decide +kernel

/-- The seven default codes (00_scope.md R2). -/
theorem test_decode_wire : decodeWire cfgRef 0x01 = some .cmdSwreset ∧ decodeWire cfgRef 0x3A = some .cmdColmod ∧
    decodeWire cfgRef 0x36 = some .cmdMadctl ∧ decodeWire cfgRef 0x2A = some .cmdCaset ∧
    decodeWire cfgRef 0x2B = some .cmdRaset ∧ decodeWire cfgRef 0x2C = some .cmdRamwr ∧
    decodeWire cfgRef 0x29 = some .cmdDispon ∧ decodeWire cfgRef 0x28 = none := by decide +kernel

/-- The table's numbering: byte k is bits 8k+7..8k. The byte 0x01 is RESET to SEQ (log entry 14). -/
theorem test_table_words : decodeTableWord 8 0x01 = some .reset ∧ decodeTableWord 16 0x2903 = some (.sendCommand 0x29) ∧
    decodeTableWord 24 0x320108 = some (.pack .green 50) ∧
    decodeTableWord 72 0x020003001400_0A0005 = some (.setDrawWindow 10 20 3 2) ∧ decodeTableWord 8 0x3A = some .cmdColmod ∧
    decodeTableWord 8 0x29 = some .cmdDispon ∧ decodeTableWord 8 0x00 = none := by decide +kernel

/-! ## The assembler (30_encoding.md R78) -/

theorem test_assemble_pack : assemble cfgRef "PACK green, 50" = some [0x08, 0x01, 0x32] := by decide +kernel
theorem test_assemble_string :
    assemble cfgRef "DRAW_STRING 4, 10, \"21\", 0x1F00, 2" =
      some [0x0A, 0x00, 0x04, 0x00, 0x0A, 0x1F, 0x00, 0x02, 0x02, 0x32, 0x31] := by decide +kernel

/-- The ten raw operations; a sum that is no u8 (log entry 22). -/
theorem test_assemble_window_cmds : assemble cfgRef "WINDOW_CMDS 10, 20, 3, 2" =
      some [0x03, 0x2A, 0x04, 0, 0x04, 12, 0x04, 0, 0x04, 14, 0x03, 0x2B, 0x04, 0, 0x04, 22, 0x04, 0, 0x04, 23] ∧
    assemble cfgRef "WINDOW_CMDS 254, 0, 1, 1" = none := by decide +kernel

/-! ## Small states -/

/-- A 12 by 12 panel with a margin of 2 and neither labels nor lines. -/
def cfgSmall : Cfg := { cfgRef with nativeCols := 12, nativeRows := 12, layout := { layoutFix with labels := [], lines := [] } }

/-- The panel after bring-up, its window the full usable area of `c`; GRAM is left unlisted. -/
def panelOn (c : Cfg) : Panel := { Panel.cleared with
  cmd := some c.cmdDispon, xs := some c.margin, xe := some (c.nativeCols - c.margin - 1), ys := some c.margin,
  ye := some (c.nativeRows - c.margin - 1), cursor := .finished, fmt := some c.colmod16bit, orient := some c.madctlValue,
  on := true }

/-- Configured, the window the full usable area, `prog` at PC = 0. -/
def configured (c : Cfg) (prog : List Byte) : State := { State.reset with
  cfg := c, prog := prog, pstate := .configured, winValid := true, win := windowOf 0 0 c.usableCols c.usableRows,
  panel := panelOn c }

/-- After RESET, `prog` at PC = 0. -/
def afterReset (prog : List Byte) : State :=
  { State.reset with prog := prog, pstate := .reset, panel := Panel.cleared }

/-- In a stream on the window of `w` by 1 cells at the origin, one pixel to go. -/
def streaming (w : Nat) (prog : List Byte) : State := { configured cfgRef prog with
  win := windowOf 0 0 w 1, streaming := true, pxRemaining := 1,
  panel := { panelOn cfgRef with
    cmd := some 0x2C, xe := some (w + 1), ye := some 2, cursor := .cell (w + 1) 2 } }

/-- After RESET, the PANEL collecting the data of a command, or in a memory write at a cursor. -/
def collecting (cmd : Byte) (args : List Byte) (cursor : Cursor) (half : Option Byte) : State :=
  { afterReset [] with panel := { Panel.cleared with
      cmd := some cmd, args := args, cursor := cursor, half := half, fmt := some 0x05, orient := some 0x00,
      xs := some 2, xe := some 3, ys := some 2, ye := some 2 } }

/-- A part of the next state. -/
def got {α : Type} (o : Host.Outcome State Fault Refusal) (f : State → α) : Option α :=
  match o with
  | .next s => some (f s)
  | .fault _ => none
  | .refused _ => none

/-- What a halt leaves, and how many events WIRE holds. -/
structure HaltView where
  halted : Bool
  cause : BitVec 4
  haltPc : Nat
  pc : Nat
  events : Nat
  deriving DecidableEq, Repr

/-- The halt of a state. -/
def haltView (s : State) : HaltView := ⟨s.halted, s.haltCause.code, s.haltPc, s.pc, s.wire.length⟩

/-- PC, PSTATE, DCX, WIN_VALID, STREAMING, HALTED. -/
structure FlagsView where
  pc : Nat
  pstate : BitVec 2
  dcx : Bool
  winValid : Bool
  streaming : Bool
  halted : Bool
  deriving DecidableEq, Repr

/-- The flags of a state. -/
def flagsView (s : State) : FlagsView := ⟨s.pc, s.pstate.code, s.dcx, s.winValid, s.streaming, s.halted⟩

/-- The fault a step ends in. -/
def stopped (o : Host.Outcome State Fault Refusal) : Option Fault :=
  match o with
  | .next _ => none
  | .fault f => some f
  | .refused _ => none

/-- The Draw Window as the vectors write it. -/
def winView (s : State) : List Nat :=
  [s.win.xs.toNat, s.win.xe.toNat, s.win.ys.toNat, s.win.ye.toNat, s.win.w.toNat, s.win.h.toNat, s.win.count.toNat]

/-! ## One step of each operation -/

/-- T07. -/
theorem test_reset_wire : got (step { State.reset with prog := [0x01] }) (·.wire) =
    some [.resx false, .delay .tResetLow, .resx true, .delay .tPowerup1, .xfer false [0x01], .delay .tPowerup2] := by decide +kernel
/-- T07, and T09: from Configured, in a stream. -/
theorem test_reset_flags : got (step { State.reset with prog := [0x01] }) flagsView = some ⟨1, 1, true, false, false, false⟩ ∧
    got (step (streaming 2 [0x01])) flagsView = some ⟨1, 1, true, false, false, false⟩ := by decide +kernel

/-- T08 on the small panel: 16 one-byte transfers and 64 pixels; the window bytes; every usable cell white. -/
theorem test_configure_wire : got (step { afterReset [0x02] with cfg := cfgSmall }) (fun s =>
      (s.wire.length, s.wire.take 6, s.wire.drop 79)) =
    some (80, [.xfer false [0x3A], .xfer true [0x05], .xfer false [0x36], .xfer true [0x00], .xfer false [0x2A], .xfer true [0x00]],
      [.xfer false [0x29]]) := by decide +kernel
theorem test_configure_panel : got (step { afterReset [0x02] with cfg := cfgSmall }) (fun s =>
      (s.panel.bad, s.panel.on, s.panel.gramCell cfgSmall 2 2, s.panel.gramCell cfgSmall 9 9, s.panel.gramCell cfgSmall 9 10)) =
    some (false, true, some 0xFFFF, some 0xFFFF, none) := by decide +kernel

/-- T01. -/
theorem test_send_command : got (step (configured cfgRef [0x03, 0x29])) (fun s => (s.wire, flagsView s)) =
    some ([.xfer false [0x29]], ⟨2, 2, true, true, false, false⟩) := by decide +kernel
/-- T02: the raw byte follows CMD_DISPON, so the panel is poisoned. -/
theorem test_send_data : got (step (configured cfgRef [0x04, 0x05])) (fun s => (s.wire, s.pc, s.panel.bad)) =
    some ([.xfer true [0x05]], 2, true) := by decide +kernel

/-- T10. -/
theorem test_set_draw_window :
    got (step (afterReset [0x05, 0x00, 0x0A, 0x00, 0x14, 0x00, 0x03, 0x00, 0x02])) (fun s => (flat s.wire, winView s)) =
    some ([.byte false 0x2A, .byte true 0, .byte true 0x0C, .byte true 0, .byte true 0x0E,
      .byte false 0x2B, .byte true 0, .byte true 0x16, .byte true 0, .byte true 0x17], [10, 12, 20, 21, 3, 2, 6]) := by decide +kernel
/-- T17: the sum does not wrap. -/
theorem test_set_draw_window_far :
    got (step (afterReset [0x05, 0xFF, 0xFF, 0x00, 0x00, 0x00, 0x02, 0x00, 0x01])) haltView = some ⟨true, 1, 0, 0, 0⟩ := by
  decide +kernel

/-- T11's window, then the memory-write command: PX_REMAINING is WIN_COUNT. -/
theorem test_begin_pixel_write : got (step (configured cfgRef [0x06])) (fun s =>
    (s.wire, s.streaming, s.pxRemaining.toNat, s.panel.cursor)) =
    some ([.xfer false [0x2C]], true, 16384, .cell 2 2) := by decide +kernel
/-- T66: no valid window. -/
theorem test_begin_pixel_write_halts : got (step (afterReset [0x06])) haltView = some ⟨true, 6, 0, 0, 0⟩ := by decide +kernel

/-- T03: one transfer of two bytes, low byte first; the cell holds the wire value. -/
theorem test_write_pixel : got (step (streaming 1 [0x07, 0x1F, 0x00])) (fun s =>
    (s.wire, s.streaming, s.pxRemaining.toNat, s.panel.cursor, s.panel.gramCell cfgRef 2 2)) =
    some ([.xfer true [0x00, 0x1F]], false, 0, .finished, some 0x001F) := by decide +kernel
/-- T67. -/
theorem test_write_pixel_halts : got (step (afterReset [0x07, 0x1F, 0x00])) haltView = some ⟨true, 7, 0, 0, 0⟩ := by decide +kernel

/-- T50, and T58's blue 33 over it. -/
theorem test_pack : got (step { State.reset with prog := [0x08, 0x01, 0x32] }) (·.pixacc) = some 0xE003 ∧
    got (step { State.reset with prog := [0x08, 0x02, 0x21], pixacc := 0xE003 }) (·.pixacc) = some 0xEA03 := by decide +kernel
/-- T59. -/
theorem test_pack_halts : got (step { State.reset with prog := [0x08, 0x00, 0x65], pixacc := 0x1234 }) (fun s =>
    (haltView s, s.pixacc)) = some (⟨true, 9, 0, 0, 0⟩, 0x1234) := by decide +kernel

/-- T20: the window, the end of the window bytes, glyph row 0 of 'A'; the cells of the panel. -/
theorem test_draw_character : got (step (configured cfgRef [0x09, 0x00, 0x00, 0x00, 0x00, 0x41, 0x1F, 0x00, 0x01])) (fun s =>
    (s.wire.length, (s.wire.drop 8).take 8, winView s, s.panel.gramCell cfgRef 2 5, s.panel.gramCell cfgRef 6 3)) =
    some (75, [.xfer true [0x00], .xfer true [0x09], .xfer false [0x2C], .xfer true [0xFF, 0xFF], .xfer true [0xFF, 0xFF],
      .xfer true [0xFF, 0xFF], .xfer true [0x00, 0x1F], .xfer true [0x00, 0x1F]],
      [0, 7, 0, 7, 8, 8, 64], some 0x001F, some 0x001F) := by decide +kernel
/-- T29 and T29b: the order of the checks; T24: scale 17. -/
theorem test_draw_character_halts :
    got (step (configured cfgRef [0x09, 0, 0, 0, 0, 0x1F, 0x1F, 0x00, 0x00])) haltView = some ⟨true, 2, 0, 0, 0⟩ ∧
    got (step (configured cfgRef [0x09, 0, 0xC8, 0, 0, 0x80, 0x1F, 0x00, 0x01])) haltView = some ⟨true, 3, 0, 0, 0⟩ ∧
    got (step (configured cfgRef [0x09, 0, 0, 0, 0, 0x41, 0x1F, 0x00, 0x11])) haltView = some ⟨true, 1, 0, 0, 0⟩ := by decide +kernel

/-- T85: the first 'A' complete, then CharCodeInvalid. -/
theorem test_draw_string_halts :
    got (step (configured cfgRef [0x0A, 0, 0, 0, 0, 0x1F, 0x00, 0x01, 0x03, 0x41, 0x1F, 0x41])) (fun s =>
      (haltView s, winView s)) = some (⟨true, 3, 0, 0, 75⟩, [0, 7, 0, 7, 8, 8, 64]) := by decide +kernel
/-- T83: an empty text checks nothing; T81's axis: the second character to the right. -/
theorem test_draw_string :
    got (step (configured cfgRef [0x0A, 0, 0, 0, 0, 0x1F, 0x00, 0x00, 0x00])) (fun s => (haltView s, winView s)) =
      some (⟨false, 0, 0, 9, 0⟩, [0, 127, 0, 127, 128, 128, 16384]) ∧
    got (step (configured { cfgRef with stringAxis := .x } [0x0A, 0, 4, 0, 10, 0x1F, 0x00, 0x01, 0x02, 0x32, 0x31])) winView =
      some [12, 19, 10, 17, 8, 8, 64] := by decide +kernel

/-- T30: rows 3 to 9 of column 5, row 10 not drawn. -/
theorem test_draw_line :
    got (step (configured cfgRef [0x0B, 0, 5, 0, 3, 0, 5, 0, 10, 0x00, 0xF8])) (fun s =>
      (s.wire.length, s.wire.drop 16, winView s, s.panel.gramCell cfgRef 11 7, s.panel.gramCell cfgRef 12 7)) =
    some (18, [.xfer true [0xF8, 0x00], .xfer true [0xF8, 0x00]], [5, 5, 3, 9, 1, 7, 7], some 0xF800, none) := by
  decide +kernel
/-- T32 end-first, T34 a point, T35 a diagonal, T37 too long. -/
theorem test_draw_line_halts :
    got (step (configured cfgRef [0x0B, 0, 5, 0, 10, 0, 5, 0, 3, 0x00, 0xF8])) haltView = some ⟨true, 1, 0, 0, 0⟩ ∧
    got (step (configured cfgRef [0x0B, 0, 4, 0, 4, 0, 4, 0, 4, 0x00, 0xF8])) haltView = some ⟨true, 4, 0, 0, 0⟩ ∧
    got (step (configured cfgRef [0x0B, 0, 0, 0, 0, 0, 5, 0, 5, 0x00, 0xF8])) haltView = some ⟨true, 4, 0, 0, 0⟩ ∧
    got (step (configured cfgRef [0x0B, 0, 0, 0, 0, 0, 0, 0, 0x81, 0x00, 0xF8])) haltView = some ⟨true, 1, 0, 0, 0⟩ := by decide +kernel

/-- INIT on the small panel, in a stream: T07's six events, then T08's. -/
theorem test_init : got (step { streaming 2 [0x0C] with cfg := cfgSmall }) (fun s =>
    (s.wire.length, s.wire.drop 85, winView s, s.panel.on)) =
    some (86, [.xfer false [0x29]], [0, 7, 0, 7, 8, 8, 64], true) := by decide +kernel

/-- The glyphs of a program: code, origin, scale, in order (the window an action loads comes before its raster). -/
def glyphs : List Micro → Nat → Nat → List (Nat × Nat × Nat × Nat)
  | [], _, _ => []
  | .loadWindow x y _ _ :: ms, _, _ => glyphs ms x y
  | .rasterize code _ scale :: ms, x, y => (code.toNat, x, y, scale) :: glyphs ms x y
  | _ :: ms, x, y => glyphs ms x y

/-- T40's sixteen glyphs in order. -/
theorem test_refresh : glyphs (refreshBody cfgRef 217 453 180 500) 0 0 =
    [(0x32, 16, 0, 2), (0x31, 16, 16, 2), (0x7F, 16, 48, 1), (0x37, 16, 56, 1),
     (0x34, 36, 0, 2), (0x35, 36, 16, 2), (0x25, 36, 48, 1), (0x33, 36, 56, 1),
     (0x31, 80, 0, 2), (0x38, 80, 16, 2), (0x7F, 80, 48, 1), (0x30, 80, 56, 1),
     (0x35, 100, 0, 2), (0x30, 100, 16, 2), (0x25, 100, 48, 1), (0x30, 100, 56, 1)] := by decide +kernel
/-- A negative reading (45_display_session.md R163). -/
theorem test_refresh_halts : got (step (configured cfgRef [0x0D, 0, 1, 0, 1, 0, 1, 0xFF, 0xFF])) haltView =
    some ⟨true, 10, 0, 0, 0⟩ := by decide +kernel

/-! ## The wire commands, from the state withFetchWord gives -/

theorem test_cmd_swreset : got (exec .cmdSwreset (streaming 2 [])) (·.panel) = some Panel.cleared := by decide +kernel
theorem test_cmd_colmod : got (step (State.withFetchWord (configured cfgRef []) 8 0x3A)) (fun s => (s.panel.cmd, s.panel.bad, s.dcx)) =
    some (some 0x3A, false, true) := by decide +kernel
theorem test_cmd_madctl : got (step (State.withFetchWord (configured cfgRef []) 8 0x36)) (fun s => (s.panel.cmd, s.wire)) =
    some (some 0x36, [.xfer false [0x36]]) := by decide +kernel
/-- A stream is open and short: the next command poisons (20_memory.md R53). -/
theorem test_cmd_caset : got (step (State.withFetchWord (streaming 2 []) 8 0x2A)) (fun s => (s.panel.cmd, s.panel.bad)) =
    some (some 0x2A, true) := by decide +kernel
theorem test_cmd_raset : got (step (State.withFetchWord (configured cfgRef []) 8 0x2B)) (fun s => (s.panel.cmd, s.panel.args)) =
    some (some 0x2B, []) := by decide +kernel
/-- With a window and without one (20_memory.md R53). -/
theorem test_cmd_ramwr :
    got (step (State.withFetchWord (configured cfgRef []) 8 0x2C)) (fun s => (s.panel.cursor, s.panel.bad)) =
      some (.cell 2 2, false) ∧
    got (step (State.withFetchWord (afterReset []) 8 0x2C)) (fun s => s.panel.bad) = some true := by decide +kernel
theorem test_cmd_dispon : got (step (State.withFetchWord (afterReset []) 8 0x29)) (fun s => (s.panel.on, s.panel.bad)) =
    some (true, false) := by decide +kernel

/-! ## The PANEL's data (20_memory.md R54 to R58): P_XS, P_XE, P_YS, P_YE, P_BAD -/

/-- A window and P_BAD. -/
structure WindowView where
  xs : Option Nat
  xe : Option Nat
  ys : Option Nat
  ye : Option Nat
  bad : Bool
  deriving DecidableEq, Repr

/-- What SEND_DATA of a byte does to a PANEL collecting `args` after a command. -/
def dataTo (cmd : Byte) (args : List Byte) (byte : Byte) : Option WindowView :=
  got (exec (.sendData byte) (collecting cmd args .unset none)) fun s =>
    ⟨s.panel.xs, s.panel.xe, s.panel.ys, s.panel.ye, s.panel.bad⟩

/-- The last column; one past it; a start above the end; a fifth byte. -/
theorem test_caset_data : dataTo 0x2A [0, 131, 0] 131 = some ⟨some 131, some 131, some 2, some 2, false⟩ ∧
    dataTo 0x2A [0, 2, 0] 132 = some ⟨some 2, some 132, some 2, some 2, true⟩ ∧
    dataTo 0x2A [0, 3, 0] 2 = some ⟨some 3, some 2, some 2, some 2, true⟩ ∧
    dataTo 0x2A [0, 2, 0, 3] 0 = some ⟨some 2, some 3, some 2, some 2, true⟩ := by decide +kernel
theorem test_raset_data : dataTo 0x2B [0, 131, 0] 131 = some ⟨some 2, some 3, some 131, some 131, false⟩ ∧
    dataTo 0x2B [0, 2] 1 = some ⟨some 2, some 3, some 2, some 2, false⟩ ∧
    dataTo 0x2B [0, 2, 0] 132 = some ⟨some 2, some 3, some 2, some 132, true⟩ ∧
    dataTo 0x2B [0, 2, 0, 3] 0 = some ⟨some 2, some 3, some 2, some 2, true⟩ := by decide +kernel
/-- The first byte sets, the second poisons; data after CMD_DISPON poisons. -/
theorem test_mode_data :
    got (exec (.sendData 0x06) (collecting 0x3A [] .unset none)) (fun s => (s.panel.fmt, s.panel.bad)) = some (some 0x06, false) ∧
    got (exec (.sendData 0x60) (collecting 0x36 [] .unset none)) (fun s => (s.panel.orient, s.panel.bad)) = some (some 0x60, false) ∧
    got (exec (.sendData 0x06) (collecting 0x3A [0x05] .unset none)) (·.panel.bad) = some true ∧
    got (exec (.sendData 0x00) (collecting 0x29 [] .unset none)) (·.panel.bad) = some true := by decide +kernel
/-- A pixel by two data bytes, at the window's last column; one past END; one with the cursor unset. P_ARGS holds both
bytes (R50). -/
theorem test_ramwr_data :
    got (exec (.sendData 0x1F) (collecting 0x2C [0xF8] (.cell 3 2) (some 0xF8))) (fun s =>
      (s.panel.args, s.panel.cursor, s.panel.gramCell cfgRef 2 3, s.panel.bad)) =
      some ([0xF8, 0x1F], .finished, some 0xF81F, false) ∧
    got (exec (.sendData 0x1F) (collecting 0x2C [0xF8] .finished (some 0xF8))) (·.panel.bad) = some true ∧
    got (exec (.sendData 0x1F) (collecting 0x2C [0xF8] .unset (some 0xF8))) (·.panel.bad) = some true := by decide +kernel

/-! ## Halts, BUS and HOST -/

/-- T74 and T75. -/
theorem test_fetch : got (step (afterReset [0x0E])) haltView = some ⟨true, 8, 0, 0, 0⟩ ∧
    stopped (step (afterReset [0x05, 0x00, 0x00])) = some .awaitingBytes ∧
    stopped (step (afterReset [])) = some .endOfProgram := by decide +kernel
/-- T04 with nothing sent: the machine halts with DCX at the command level and INFLIGHT kept. -/
theorem test_transport_fault : got (step { State.reset with prog := [0x01], bus := [.fault 0] }) (fun s =>
    (haltView s, s.dcx, s.inflight, s.wire.drop 4)) =
    some (⟨true, 5, 0, 0, 5⟩, false, some ⟨false, [0x01]⟩, [.xferFault false []]) := by decide +kernel
/-- T04's fault where SEND_COMMAND issues its transfer. -/
theorem test_send_command_fault : got (step { afterReset [0x03, 0x29] with bus := [.fault 1] }) (fun s =>
    (haltView s, s.dcx, s.xferBusy, s.wire)) = some (⟨true, 5, 0, 0, 1⟩, false, true, [.xferFault false [0x29]]) := by
  decide +kernel
/-- One register write a step: of SET_DRAW_WINDOW's eight, WIN_XS first (41_panel_protocol.md R114). -/
theorem test_one_write_a_step : got (tick { afterReset [] with todo := [.loadWindow 10 20 3 2] }) (fun s =>
    (winView s, s.winValid, s.todo.length)) = some ([10, 0, 0, 0, 0, 0, 0], false, 7) := by decide +kernel
/-- T05, one stall, then the transfer. -/
theorem test_stall : got (step { State.reset with prog := [0x01], bus := [.stall] }) (fun s => (s.xferBusy, s.halted, s.pc)) =
    some (true, false, 0) := by decide +kernel
/-- RST_N asserted (70_reset_and_hazards.md R200). -/
theorem test_assert_reset : got (step { streaming 2 [] with host := [.assertReset] }) flagsView =
    some ⟨0, 0, true, false, false, false⟩ ∧ stopped (step { State.reset with rstN := false }) = some .heldInReset := by decide +kernel

/-! ## Witnesses: the hypotheses of each obligation met together -/

/-- Between operations, with what drawing needs. -/
structure Drawable (s : State) : Prop where
  idle : Idle s
  performs : Performs s
  cfg : s.cfg.WellFormed
  layout : s.cfg.LayoutWellFormed
  pstate : s.pstate = .configured
  closed : s.streaming = false

theorem drawable_configured : Drawable (configured cfgRef []) :=
  ⟨by decide +kernel, by decide +kernel, by decide +kernel, by decide +kernel, rfl, rfl⟩

theorem inStep_configured : InStep (configured cfgRef []) :=
  ⟨rfl, fun _ => ⟨rfl, rfl⟩, fun _ => by decide +kernel, fun _ => by decide +kernel, fun h => nomatch h⟩

theorem inStep_streaming : InStep (streaming 2 []) :=
  ⟨rfl, fun _ => ⟨rfl, rfl⟩, fun _ => by decide +kernel, fun h => (nomatch h), fun _ => by decide +kernel⟩

theorem inv_configured : Inv (configured cfgRef []) where
  cfg := by decide +kernel
  busy := rfl
  level := fun _ h => nomatch h
  stream := by decide +kernel
  halt := by decide +kernel
  window := fun _ => by decide +kernel
  line := fun _ => by decide +kernel
  inside := fun h => absurd rfl h
  sound := rfl
  operation := fun h => nomatch h
  gram := rfl

theorem inv_streaming : Inv (streaming 2 []) where
  cfg := by decide +kernel
  busy := rfl
  level := fun _ h => nomatch h
  stream := by decide +kernel
  halt := by decide +kernel
  window := fun _ => by decide +kernel
  line := fun _ => by decide +kernel
  inside := fun h => absurd rfl h
  sound := rfl
  operation := fun h => nomatch h
  gram := rfl

/-- SEND_COMMAND's byte in flight. -/
def inFlight (bus : List BusChoice) : State := { configured cfgRef [0x03, 0x29] with
  dcx := false, xferBusy := true, inflight := some ⟨false, [0x29]⟩, todo := [.setDcx true, .advancePc 2], bus := bus }

theorem inv_inFlight (bus : List BusChoice) : Inv (inFlight bus) where
  cfg := (by decide +kernel : cfgRef.WellFormed)
  busy := rfl
  level := fun t h => by obtain rfl := Option.some.inj h; rfl
  stream := rfl
  halt := rfl
  window := fun _ => inv_configured.window rfl
  line := fun _ => rfl
  inside := fun _ => rfl
  sound := rfl
  operation := fun _ _ => ⟨.sendCommand 0x29, [], rfl, by simp [inFlight],
    [.require (.legal .sendCommand), .require (.streamRule .sendCommand), .setDcx false, .transfer [0x29]], rfl⟩
  gram := rfl

/-- A halted machine. -/
def halted : State := { configured cfgRef [0x01] with halted := true, haltCause := .illegalOp }

theorem witness_DecodeOfEncodeIsTheInstruction :
    (Instr.drawString 0 0 0 1 (List.replicate 255 0x41)).wellFormed = true ∧
    (Instr.drawString 0 0 0 1 (List.replicate 255 0x41)).wire = none := by decide +kernel
theorem witness_EncodeOfDecodeIsTheBytes : decode [0x08, 0x02, 0xFF, 0x00] = .ok (.pack .blue 255, [0x00]) := by decide +kernel
theorem witness_WireCommandCodesAreUnambiguous : cfgRef.WellFormed := by decide +kernel
theorem witness_IllegalOpcodeHalts : Idle (afterReset [0x0E]) ∧ HostIdle (afterReset [0x0E]) ∧
    (afterReset [0x0E]).prog.drop (afterReset [0x0E]).pc = [0x0E] ∧ 0x0E ≤ (0x0E : Byte).toNat ∧
    decode [0x0D, 0, 0, 0, 0, 0, 0, 0, 0] = .ok (.refresh 0 0 0 0, []) := by decide +kernel
theorem witness_IllegalOpcodeHalts_zero : Idle (afterReset [0x00]) ∧ HostIdle (afterReset [0x00]) ∧
    (afterReset [0x00]).prog.drop (afterReset [0x00]).pc = [0x00] := by decide +kernel
theorem witness_IllegalPackChannelHalts : Idle (afterReset [0x08, 0x03, 0x32]) ∧ HostIdle (afterReset [0x08, 0x03, 0x32]) ∧
    (afterReset [0x08, 0x03, 0x32]).prog.drop (afterReset [0x08, 0x03, 0x32]).pc = [0x08, 0x03, 0x32] ∧
    3 ≤ (0x03 : Byte).toNat := by decide +kernel
theorem witness_TruncatedDescriptorHasNoStep :
    (Idle (afterReset [0x05, 0, 0]) ∧ HostIdle (afterReset [0x05, 0, 0]) ∧ 0 < 3 ∧ 3 < oplen (.setDrawWindow 0 0 1 1) ∧
      (afterReset [0x05, 0, 0]).prog.drop 0 = (encode cfgRef (.setDrawWindow 0 0 1 1)).take 3) ∧
    (Idle (afterReset [0x08, 0x03]) ∧ HostIdle (afterReset [0x08, 0x03]) ∧
      (afterReset [0x08, 0x03]).prog.drop 0 = [0x08, 0x03]) ∧
    (Idle (afterReset [0xFF]) ∧ HostIdle (afterReset [0xFF]) ∧ (afterReset [0xFF]).prog.drop 0 = [0xFF] ∧
      0x0E ≤ (0xFF : Byte).toNat) := by decide +kernel
theorem witness_StepRunsTheDecodedInstruction : Idle (afterReset [0x06]) ∧ HostIdle (afterReset [0x06]) ∧
    decode ((afterReset [0x06]).prog.drop (afterReset [0x06]).pc) = .ok (.beginPixelWrite, []) := by decide +kernel
theorem witness_StepDeliversTheWireCommand : (inFlight []).rstN = true ∧ (inFlight []).halted = false ∧
    (inFlight []).xferBusy = true ∧ (inFlight []).inflight = some ⟨false, [0x29]⟩ ∧ HostIdle (inFlight []) ∧
    (inFlight []).busNext = .perform ∧ (inFlight []).cfg.WellFormed ∧ decodeWire (inFlight []).cfg 0x29 = some .cmdDispon := by decide +kernel
theorem witness_PowerOnResetFromAnyState :
    ({ inFlight [] with host := [.assertReset, .releaseReset] } : State).host = .assertReset :: .releaseReset :: [] ∧
    ({ inFlight [] with host := [.assertReset, .releaseReset] } : State).cfg.WellFormed := by decide +kernel
theorem witness_IssueOfATransfer : ([0x29] : List Byte) ≠ [] ∧ cfgRef.WellFormed ∧
    Micro.transfer [0x29] ∈ seqProgram cfgRef (.sendCommand 0x29) ∧
    Micro.transferRaster 0 ∈ seqProgram cfgRef (.drawCharacter 0 0 0x41 0 1) := by decide +kernel
theorem witness_PerformedTransferNetEffect : (streaming 2 []).cfg.WellFormed ∧ ([0x00, 0x1F] : List Byte) ≠ [] ∧
    (streaming 2 []).halted = false ∧
    (streaming 2 []).xferBusy = false ∧ (streaming 2 []).inflight = none ∧ (streaming 2 []).busNext = .perform := by decide +kernel
theorem witness_TransportFaultHaltsTheMachine : (inFlight [.fault 1]).rstN = true ∧ (inFlight [.fault 1]).halted = false ∧
    (inFlight [.fault 1]).xferBusy = true ∧ (inFlight [.fault 1]).inflight = some ⟨false, [0x29]⟩ ∧
    HostIdle (inFlight [.fault 1]) ∧ ([0x29] : List Byte) <+: [0x29] ∧
    (inFlight [.fault 1]).busNext = .fault ([0x29] : List Byte).length := by decide +kernel
/-- At the issue, nothing sent and all sent. -/
theorem witness_TransportFaultHaltsTheMachine_issue :
    (([0x29] : List Byte) ≠ [] ∧ ([] : List Byte) <+: [0x29] ∧ ([0x29] : List Byte) <+: [0x29]) ∧
    (Idle { afterReset [] with bus := [.fault 0] } ∧ ({ afterReset [] with bus := [.fault 0] } : State).cfg.WellFormed ∧
      ({ afterReset [] with bus := [.fault 0] } : State).pstate ≠ .uninitialized ∧
      ({ afterReset [] with bus := [.fault 0] } : State).streaming = false ∧
      ({ afterReset [] with bus := [.fault 0] } : State).busNext = .fault ([] : List Byte).length) ∧
    WindowOk cfgRef (127 : BitVec 16).toNat (0 : BitVec 16).toNat (1 : BitVec 16).toNat (128 : BitVec 16).toNat := by
  decide +kernel
theorem witness_StalledBusKeepsSeqWaiting : (inFlight [.stall, .stall]).rstN = true ∧
    (inFlight [.stall, .stall]).halted = false ∧ (inFlight [.stall, .stall]).xferBusy = true ∧
    (inFlight [.stall, .stall]).inflight = some ⟨false, [0x29]⟩ ∧ (inFlight [.stall, .stall]).host = [] ∧
    (inFlight [.stall, .stall]).bus = List.replicate 2 .stall ++ [] := by decide +kernel
theorem witness_StalledBusKeepsSeqWaiting_forever : (inFlight []).rstN = true ∧ (inFlight []).halted = false ∧
    (inFlight []).xferBusy = true ∧ (inFlight []).inflight = some ⟨false, [0x29]⟩ ∧
    ({ inFlight [] with busRest := .stall } : State).host = [] ∧ ({ inFlight [] with busRest := .stall } : State).bus = [] ∧
    ({ inFlight [] with busRest := .stall } : State).busRest = .stall := by decide +kernel
theorem witness_HaltedMachineHasNoStep : halted.halted = true ∧ HostIdle halted ∧
    got (step { halted with host := [.assertReset] }) (·.halted) = some false ∧ opOf .reset = some .reset := by decide +kernel
theorem witness_IllegalProtocolStateHalts : Idle State.reset ∧ opOf .configure = some .configure ∧
    opLegal .configure State.reset.pstate = false := by decide +kernel
theorem witness_StreamingDisciplineHalts :
    (Idle (streaming 2 []) ∧ opOf .beginPixelWrite = some .beginPixelWrite ∧
      opLegal .beginPixelWrite (streaming 2 []).pstate = true ∧ (streaming 2 []).streaming = true ∧
      Op.beginPixelWrite ∉ [Op.writePixel, .pack, .reset, .init]) ∧
    (Idle (afterReset []) ∧ (afterReset []).pstate ≠ .uninitialized ∧ (afterReset []).streaming = false) := by decide +kernel
theorem witness_ResetCompletes : Idle (streaming 2 []) ∧ Performs (streaming 2 []) ∧ (streaming 2 []).cfg.WellFormed := by decide +kernel
theorem witness_ConfigureCompletes : Idle (afterReset []) ∧ Performs (afterReset []) ∧ (afterReset []).cfg.WellFormed ∧
    (afterReset []).pstate = .reset ∧ (afterReset []).streaming = false := by decide +kernel
theorem witness_SendCommandCompletes : Idle (afterReset []) ∧ Performs (afterReset []) ∧ (afterReset []).cfg.WellFormed ∧
    decodeWire (afterReset []).cfg 0x29 = some .cmdDispon ∧
    (afterReset []).pstate ≠ .uninitialized ∧ (afterReset []).streaming = false := by decide +kernel
/-- Each clause: two, three and four bytes collected; a first and a second setting; half a pixel; no command. -/
theorem witness_SendDataCompletes : (∀ cmd args cursor half, Idle (collecting cmd args cursor half) ∧
      Performs (collecting cmd args cursor half) ∧ (collecting cmd args cursor half).pstate ≠ .uninitialized ∧
      (collecting cmd args cursor half).streaming = false) ∧
    (collecting 0x2A [0, 2] .unset none).cfg.WellFormed ∧
    (collecting 0x2A [0, 2] .unset none).panel.cmd = some cfgRef.cmdCaset ∧ ([0, 2] : List Byte).length < 3 ∧
    (collecting 0x2B [0, 2, 0] .unset none).panel.args = [0, 2, 0] ∧ 4 ≤ ([0, 2, 0, 3] : List Byte).length ∧
    (collecting 0x2B [] .unset none).panel.cmd = some cfgRef.cmdRaset ∧
    (collecting 0x3A [] .unset none).panel.cmd = some cfgRef.cmdColmod ∧
    (collecting 0x36 [0] .unset none).panel.cmd = some cfgRef.cmdMadctl ∧ (collecting 0x36 [0] .unset none).panel.args ≠ [] ∧
    (collecting 0x2C [] (.cell 3 2) none).panel.half = none ∧
    (collecting 0x2C [1] (.cell 3 2) (some 1)).panel.cmd = some cfgRef.cmdRamwr ∧
    (afterReset []).panel.cmd ∉ [some cfgRef.cmdCaset, some cfgRef.cmdRaset, some cfgRef.cmdColmod, some cfgRef.cmdMadctl,
      some cfgRef.cmdRamwr] :=
  ⟨fun _ _ _ _ => ⟨⟨rfl, rfl, rfl, rfl, rfl⟩, ⟨(by simp [collecting, afterReset, State.reset]), rfl⟩, by simp [collecting, afterReset], rfl⟩,
    by decide +kernel⟩
/-- `PixelTaken`: a cell with CONFIGURE's mode and a window, its last cell, and each way to poison. -/
theorem witness_PixelTaken : (collecting 0x2C [1] (.cell 3 2) (some 1)).panel.fmt = some cfgRef.colmod16bit ∧
    (collecting 0x2C [1] (.cell 3 2) (some 1)).panel.orient = some cfgRef.madctlValue ∧
    (collecting 0x2C [1] (.cell 3 2) (some 1)).panel.cursor = .cell 3 2 ∧
    (collecting 0x2C [1] (.cell 3 2) (some 1)).panel.xs = some 2 ∧ (collecting 0x2C [1] (.cell 3 2) (some 1)).panel.xe = some 3 ∧
    (collecting 0x2C [1] (.cell 3 2) (some 1)).panel.ye = some 2 ∧ 3 < cfgRef.nativeCols ∧ 2 < cfgRef.nativeRows ∧
    (collecting 0x2C [1] (.cell 3 2) (some 1)).panel.bad = false ∧
    (collecting 0x2C [1] .finished (some 1)).panel.cursor = .finished ∧
    (afterReset []).panel.fmt ≠ some cfgRef.colmod16bit := by decide +kernel
/-- The last cell, and the four ways not to fit. -/
theorem witness_SetDrawWindowCompletes : Idle (afterReset []) ∧ Performs (afterReset []) ∧ (afterReset []).cfg.WellFormed ∧
    (afterReset []).pstate ≠ .uninitialized ∧ (afterReset []).streaming = false ∧
    ((1 : BitVec 16) ≠ 0 ∧ (127 : BitVec 16).toNat + (1 : BitVec 16).toNat ≤ (afterReset []).cfg.usableCols ∧
      (127 : BitVec 16).toNat + (1 : BitVec 16).toNat ≤ (afterReset []).cfg.usableRows) ∧
    (afterReset []).cfg.usableCols < (127 : BitVec 16).toNat + (2 : BitVec 16).toNat ∧
    (afterReset []).cfg.usableRows < (120 : BitVec 16).toNat + (9 : BitVec 16).toNat := by decide +kernel
theorem witness_ProgrammedWindowIsShiftedByTheMargin : Idle (afterReset []) ∧ Performs (afterReset []) ∧
    (afterReset []).cfg.WellFormed ∧ (afterReset []).pstate ≠ .uninitialized ∧ (afterReset []).streaming = false ∧
    (afterReset []).panel.bad = false ∧ (afterReset []).panel.streamOpen (afterReset []).cfg = false ∧
    WindowOk (afterReset []).cfg (0 : BitVec 16).toNat (0 : BitVec 16).toNat (128 : BitVec 16).toNat (128 : BitVec 16).toNat := by
  decide +kernel
theorem witness_BeginPixelWriteCompletes :
    (Idle (configured cfgRef []) ∧ Performs (configured cfgRef []) ∧ (configured cfgRef []).cfg.WellFormed ∧
      (configured cfgRef []).pstate ≠ .uninitialized ∧
      (configured cfgRef []).streaming = false ∧ (configured cfgRef []).winValid = true) ∧
    (Idle (afterReset []) ∧ (afterReset []).pstate ≠ .uninitialized ∧ (afterReset []).streaming = false ∧
      (afterReset []).winValid = false) := by decide +kernel
theorem witness_WritePixelCompletes : Inv (streaming 2 []) ∧ Idle (streaming 2 []) ∧ Performs (streaming 2 []) ∧
    (streaming 2 []).pstate ≠ .uninitialized ∧ (streaming 2 []).streaming = true ∧
    (streaming 2 []).panel.cmd = some cfgRef.cmdRamwr ∧ (streaming 2 []).panel.half = none :=
  ⟨inv_streaming, by decide +kernel⟩
theorem witness_WritePixelGoesToTheNextCell : Inv (streaming 2 []) ∧ Idle (streaming 2 []) ∧ Performs (streaming 2 []) ∧
    InStep (streaming 2 []) ∧ (streaming 2 []).pstate = .configured ∧ (streaming 2 []).streaming = true :=
  ⟨inv_streaming, by decide +kernel, by decide +kernel, inStep_streaming, rfl, rfl⟩
theorem witness_PackCompletes : Idle (streaming 2 []) ∧ (100 : Byte).toNat ≤ 100 ∧ ¬ (101 : Byte).toNat ≤ 100 := by
  decide +kernel
theorem witness_UnpackRecoversThePercentage : (100 : Nat) ≤ 100 ∧ Channel.red ≠ .green := by decide +kernel
theorem witness_ThreePacksMakeAColour : Idle State.reset ∧
    ([(.blue, 0), (.red, 100), (.green, 50)] : List (Channel × Byte)).Perm [(.red, 100), (.green, 50), (.blue, 0)] ∧
    (100 : Byte).toNat ≤ 100 ∧ (50 : Byte).toNat ≤ 100 ∧ (0 : Byte).toNat ≤ 100 := by decide +kernel
/-- The last box of the usable area (T22), and the largest scale (T23). -/
theorem witness_DrawCharacterCompletes : Drawable (configured cfgRef []) ∧ cfgRef.InFont 0x20 ∧ cfgRef.InFont 0x7F ∧
    (120 : BitVec 16).toNat + 8 * (1 : Byte).toNat ≤ (configured cfgRef []).cfg.usableCols ∧
    (0 : BitVec 16).toNat + 8 * (16 : Byte).toNat ≤ (configured cfgRef []).cfg.usableRows :=
  ⟨drawable_configured, by decide +kernel⟩
/-- Scale 0, a code on each side of the font, and one column over. -/
theorem witness_DrawCharacterHaltsInOrder : Drawable (configured cfgRef []) ∧ ¬ 1 ≤ (0 : Byte).toNat ∧
    ¬ cfgRef.InFont 0x1F ∧ ¬ cfgRef.InFont 0x80 ∧
    ¬ (121 : BitVec 16).toNat + 8 * (1 : Byte).toNat ≤ (configured cfgRef []).cfg.usableCols :=
  ⟨drawable_configured, by decide +kernel⟩
theorem witness_DrawCharacterPaintsItsBox : Drawable (configured cfgRef []) ∧ InStep (configured cfgRef []) ∧
    charHalt (configured cfgRef []).cfg (3 : BitVec 16).toNat (5 : BitVec 16).toNat 0x41 (2 : Byte).toNat = none :=
  ⟨drawable_configured, inStep_configured, by decide +kernel⟩
/-- The largest scale that fits, and the next. -/
theorem witness_ScaleIsBoundedByTheWindow : Drawable (configured cfgRef []) ∧ (configured cfgRef []).cfg.InFont 0x41 ∧
    1 ≤ (16 : Byte).toNat ∧ 8 * (16 : Byte).toNat ≤ min cfgRef.usableCols cfgRef.usableRows ∧
    min cfgRef.usableCols cfgRef.usableRows / 8 < (17 : Byte).toNat := ⟨drawable_configured, by decide +kernel⟩
theorem witness_DrawStringCompletes : Drawable (configured cfgRef []) ∧
    StringOk (configured cfgRef []).cfg (1 : Byte).toNat [0x41, 0x41] (0 : BitVec 16).toNat (112 : BitVec 16).toNat :=
  ⟨drawable_configured, by decide +kernel⟩
theorem witness_DrawStringPaintsItsBoxes : Drawable (configured cfgRef []) ∧ InStep (configured cfgRef []) ∧
    StringOk (configured cfgRef []).cfg (1 : Byte).toNat [0x41, 0x41] (0 : BitVec 16).toNat (112 : BitVec 16).toNat :=
  ⟨drawable_configured, inStep_configured, by decide +kernel⟩
/-- T82. -/
theorem witness_DrawStringHaltsAtTheFirstBadCharacter : Drawable (configured cfgRef []) ∧
    StringOk (configured cfgRef []).cfg (1 : Byte).toNat [0x41, 0x41] (0 : BitVec 16).toNat (112 : BitVec 16).toNat ∧
    charHalt cfgRef (charX cfgRef 0 2 1) (charY cfgRef 112 2 1) 0x41 1 = some .windowInvalid :=
  ⟨drawable_configured, by decide +kernel⟩
/-- T36 and T39: the longest lines. -/
theorem witness_DrawLineCompletes : Drawable (configured cfgRef []) ∧
    ((0 : BitVec 16).toNat < (128 : BitVec 16).toNat ∧ (0 : BitVec 16).toNat < (configured cfgRef []).cfg.usableCols ∧
      (128 : BitVec 16).toNat ≤ (configured cfgRef []).cfg.usableRows) ∧
    ((127 : BitVec 16).toNat < (configured cfgRef []).cfg.usableRows ∧
      (128 : BitVec 16).toNat ≤ (configured cfgRef []).cfg.usableCols) :=
  ⟨drawable_configured, by decide +kernel⟩
/-- T34, T35, T32, T33, T37, T39b. -/
theorem witness_DrawLineHalts : Drawable (configured cfgRef []) ∧ ((0 : BitVec 16) ≠ 5) ∧
    (3 : BitVec 16).toNat < (10 : BitVec 16).toNat ∧ (configured cfgRef []).cfg.usableRows < (129 : BitVec 16).toNat ∧
    (configured cfgRef []).cfg.usableCols ≤ (128 : BitVec 16).toNat :=
  ⟨drawable_configured, by decide +kernel⟩
/-- T38, the shortest line. -/
theorem witness_DrawLinePaintsItsSegment : Drawable (configured cfgRef []) ∧ InStep (configured cfgRef []) ∧
    ∃ t, exec (.drawLine 127 127 127 128 0x00F8) (configured cfgRef []) = .next t ∧ t.halted = false :=
  ⟨drawable_configured, inStep_configured, _, rfl, by decide +kernel⟩
theorem witness_InitCompletes : Idle (streaming 2 []) ∧ Performs (streaming 2 []) ∧ (streaming 2 []).cfg.WellFormed ∧
    (streaming 2 []).cfg.LayoutWellFormed :=
  ⟨by decide +kernel, by decide +kernel, by decide +kernel, drawable_configured.layout⟩
theorem witness_InitCompletes_empty : Idle ({ afterReset [] with cfg := cfgSmall } : State) ∧ cfgSmall.WellFormed ∧
    cfgSmall.layout.labels = [] ∧ cfgSmall.layout.lines = [] := by decide +kernel
theorem witness_RefreshCompletes : Drawable (configured cfgRef []) ∧
    ∀ v ∈ [(0 : BitVec 16), 9999, 217, 453], v.toNat < 10000 := ⟨drawable_configured, by simp⟩
theorem witness_NegativeReadingHalts : Drawable (configured cfgRef []) ∧ (0x8000 : BitVec 16).toInt < 0 ∧
    (0xFFFF : BitVec 16).toInt < 0 :=
  ⟨drawable_configured, by decide +kernel⟩

/-- Two refreshes one after the other. -/
theorem refresh_twice {s : State} (h : Drawable s) (it ih ot oh : BitVec 16) (hr : ∀ v ∈ [it, ih, ot, oh], v.toNat < 10000) :
    ∃ t u, exec (.refresh it ih ot oh) s = .next t ∧ t.halted = false ∧ exec (.refresh it ih ot oh) t = .next u := by
  have e : ∀ v : BitVec 16, v.toNat < 10000 → v.toInt = v.toNat := fun v hv => by
    rw [BitVec.toInt_eq_toNat_of_lt]; omega
  have r1 := hr it (by simp)
  have r2 := hr ih (by simp)
  have r3 := hr ot (by simp)
  have r4 := hr oh (by simp)
  have d := draws_refresh h.cfg h.layout r1 r2 r3 r4
  rw [← e _ r1, ← e _ r2, ← e _ r3, ← e _ r4] at d
  obtain ⟨t, e, dt, it', pt⟩ :=
    exec_draws (i := .refresh it ih ot oh) rfl rfl d h.idle h.performs (by simp [opLegal, h.pstate]) h.closed
  obtain ⟨u, e', -⟩ := exec_draws (s := t) (i := .refresh it ih ot oh) rfl rfl (dt.cfg ▸ d) it' pt
    (by simp [opLegal, dt.pstate, h.pstate]) dt.streaming
  exact ⟨t, u, e, it'.2.1, e'⟩

theorem witness_RefreshIsIdempotent : Drawable (configured cfgRef []) ∧ InStep (configured cfgRef []) ∧
    ∃ t u, exec (.refresh 217 453 180 9999) (configured cfgRef []) = .next t ∧ t.halted = false ∧
      exec (.refresh 217 453 180 9999) t = .next u :=
  ⟨drawable_configured, inStep_configured, refresh_twice drawable_configured _ _ _ _ (by simp)⟩
theorem witness_RefreshLeavesLabelsAndLines : Drawable (configured cfgRef []) ∧ InStep (configured cfgRef []) ∧
    (∀ v ∈ [(0 : BitVec 16), 9999, 217, 453], v.toNat < 10000) ∧
    (⟨64, 0, [0x4F, 0x55, 0x54], 0x0000, 1⟩ : Label) ∈ (configured cfgRef []).cfg.layout.labels ∧
    CellIn (configured cfgRef []).cfg ((configured cfgRef []).cfg.labelBox ⟨64, 0, [0x4F, 0x55, 0x54], 0x0000, 1⟩) 25 73 ∧
    (⟨60, 0, 60, 128, 0x0000⟩ : Line) ∈ (configured cfgRef []).cfg.layout.lines :=
  ⟨drawable_configured, inStep_configured, by simp, by decide +kernel⟩
theorem witness_PanelCommandsTakeEffect : (Instr.cmdDispon, cfgRef.cmdDispon, true) ∈
    [(Instr.cmdColmod, cfgRef.cmdColmod, false), (.cmdDispon, cfgRef.cmdDispon, true)] ∧ cfgRef.WellFormed := by decide +kernel
theorem witness_MemoryWriteCommandPutsTheCursor : (configured cfgRef []).cfg.WellFormed ∧ (configured cfgRef []).panel.xs = some 2 ∧
    (configured cfgRef []).panel.xe = some 129 ∧ (configured cfgRef []).panel.ys = some 2 ∧
    (configured cfgRef []).panel.ye = some 129 ∧ (afterReset []).panel.xs = none := by decide +kernel
theorem witness_UnknownCommandPoisonsThePanel : Idle (afterReset []) ∧ Performs (afterReset []) ∧
    (afterReset []).cfg.WellFormed ∧
    (afterReset []).pstate ≠ .uninitialized ∧ (afterReset []).streaming = false ∧ (0x28 : Byte) ∉ (afterReset []).cfg.commands := by
  decide +kernel
theorem witness_PanelStaysInStep : Inv (configured cfgRef []) ∧ Idle (configured cfgRef []) ∧ Performs (configured cfgRef []) ∧
    notRaw (.drawLine 127 127 127 128 0x00F8) = true ∧ InStep (configured cfgRef []) ∧
    ∃ t, exec (.drawLine 127 127 127 128 0x00F8) (configured cfgRef []) = .next t ∧ t.halted = false :=
  ⟨inv_configured, by decide +kernel, by decide +kernel, rfl, inStep_configured, _, rfl, by decide +kernel⟩
/-- From a panel that is not in step, RESET. -/
theorem witness_PanelStaysInStep_reset : Idle State.reset ∧ Performs State.reset ∧ notRaw .reset = true ∧
    ∃ t, exec .reset State.reset = .next t ∧ t.halted = false :=
  ⟨by decide +kernel, by decide +kernel, rfl, _, rfl, by decide +kernel⟩
theorem witness_SoftwareResetCommandClearsThePanel : (inFlight []).cfg.WellFormed := by decide +kernel
theorem witness_MarginIsNeverDrawn : Inv (streaming 2 []) ∧ Idle (streaming 2 []) ∧ Performs (streaming 2 []) ∧
    notRaw (.writePixel 0x00F8) = true ∧ InStep (streaming 2 []) ∧ (streaming 2 []).pstate = .configured ∧
    (∃ t, exec (.writePixel 0x00F8) (streaming 2 []) = .next t ∧ t.halted = false) ∧ ¬ UsableCell cfgRef 1 2 ∧
    ¬ UsableCell cfgRef 130 130 ∧ opOf (.pack .red 100) = some .pack :=
  ⟨inv_streaming, by decide +kernel, by decide +kernel, rfl, inStep_streaming, rfl, ⟨_, rfl, by decide +kernel⟩, by decide +kernel⟩
theorem witness_BringUpWhitensTheUsableArea : Idle State.reset ∧ Performs State.reset ∧ State.reset.cfg.WellFormed ∧
    UsableCell State.reset.cfg 2 2 ∧ UsableCell State.reset.cfg 129 129 := by decide +kernel
theorem witness_InvariantIsKeptByEveryStep : Inv (configured cfgRef []) ∧
    ∃ t, step { configured cfgRef [] with host := [.assertReset] } = .next t := ⟨inv_configured, _, rfl⟩
theorem witness_WireGrowsAndDrivesThePanel : (inFlight [.fault 0]).cfg.WellFormed ∧ HostIdle (inFlight [.fault 0]) ∧
    ∃ t, step (inFlight [.fault 0]) = .next t := ⟨by decide +kernel, by decide +kernel, _, rfl⟩
/-- A step, and under a CFG that is not State.reset's a step, a fault and a run of two steps, in which BUS stalls and then
performs. -/
theorem witness_ProgAndCfgAreNeverWritten : (∃ t, step (inFlight []) = .next t) ∧
    (∃ r, stepUnder cfgSmall [0x01] ⟨[.fault 0], .stall, []⟩ State.reset.toRegs = .next r ∧ r.halted = true) ∧
    stepUnder cfgSmall [] ⟨[], .perform, []⟩ State.reset.toRegs = .fault .endOfProgram ∧
    ∃ r, runUnder cfgSmall [0x01] [⟨[], .stall, []⟩, ⟨[], .perform, [.idle]⟩] State.reset.toRegs = .next r ∧ r.pc = 1 :=
  ⟨⟨_, rfl⟩, ⟨_, rfl, by decide +kernel⟩, rfl, _, rfl, by decide +kernel⟩
/-- An operation that completes, one that halts, one that waits. -/
theorem witness_PcAdvancesByTheLength : Idle State.reset ∧ opOf (.pack .red 100) = some .pack ∧
    (∃ t, exec (.pack .red 100) State.reset = .next t) ∧ (∃ t, exec .configure State.reset = .next t) ∧
    ∃ t, exec .reset { State.reset with bus := [.stall] } = .next t :=
  ⟨by decide +kernel, rfl, ⟨_, rfl⟩, ⟨_, rfl⟩, ⟨_, rfl⟩⟩
/-- The steps that go on after a stall: one that completes, one that halts, one that waits on. -/
theorem witness_PcAdvancesByTheLength_step : Inv (inFlight [.stall]) ∧ HostIdle (inFlight [.stall]) ∧
    got (step (inFlight [])) flagsView = some ⟨2, 2, true, true, false, false⟩ ∧
    got (step (inFlight [.fault 0])) haltView = some ⟨true, 5, 0, 0, 1⟩ ∧
    got (step (inFlight [.stall])) (fun s => (s.xferBusy, s.pc)) = some (true, 0) :=
  ⟨inv_inFlight _, .inl rfl, by decide +kernel⟩
theorem witness_AccessMatrixWrites_step : Inv (inFlight [.stall]) ∧ HostIdle (inFlight [.stall]) ∧
    decode ((inFlight [.stall]).prog.drop (inFlight [.stall]).pc) = .ok (.sendCommand 0x29, []) ∧
    opOf (.sendCommand 0x29) = some .sendCommand ∧ ∃ t, step (inFlight [.stall]) = .next t :=
  ⟨inv_inFlight _, .inl rfl, by decide +kernel, rfl, _, rfl⟩
theorem witness_AccessMatrixWrites : opOf (.writePixel 0) = some .writePixel ∧
    ∃ t, exec (.writePixel 0) (streaming 2 []) = .next t := ⟨rfl, _, rfl⟩
theorem witness_StepIsARunOfAgentSteps : (inFlight []).host = [] ∧ ∃ t, step (inFlight []) = .next t := ⟨rfl, _, rfl⟩

end Sys2Proof.Tests
end

section
/-! Proofs of the family 30_encoding.md: SEQ's fetch of bytes that are no operation. -/

namespace Sys2Proof.Machine

/-- Between operations, bytes at PC that are no operation end the step as `fetchStop` says, after HOST's idle action
(30_encoding.md R75, R76, R79). -/
theorem step_of_decode_error {s : State} {r : Reject} (hi : Idle s) (hh : HostIdle s)
    (hd : decode (s.prog.drop s.pc) = .error r) : step s = fetchStop r { s with host := s.host.tail } := by
  have hf : fetch { s with host := s.host.tail } = .error r := hd
  simp only [step_idle hi hh, fetchAndRun, hf]

@[simp] theorem fetchStop_illegalOpcode (b0 : Byte) (s : State) :
    fetchStop (.illegalOpcode b0) s = .next (raiseHalt .illegalOp s) := rfl

/-- Settles O5: SEQ's decoder refuses such a byte 0 whatever follows it, the fetch raises `Halt(IllegalOp)`, and no bytes
decode to anything but a host operation. -/
theorem illegalOpcodeHalts : Obligations.IllegalOpcodeHalts := by
  refine ⟨fun s b0 rest hi hh hp hb => ?_, fun _ _ _ => decode_op⟩
  have hd : decode (s.prog.drop s.pc) = .error (.illegalOpcode b0) := by rw [hp, decode_illegal hb]
  rw [step_of_decode_error hi hh hd, fetchStop_illegalOpcode, raiseHalt]

end Sys2Proof.Machine
end

section
/-! Proofs of the family 40_transfer.md: the issue of a transfer. -/

namespace Sys2Proof.Machine

/-- The issue of the empty list is `Halt(TransferArg)` (40_transfer.md R104). -/
@[simp] theorem issue_nil (s : State) : issue [] s = raiseHalt .transferArg s := by simp [issue]

/-- Every list of bytes an operation passes to `transfer` has 1 or 2 bytes (40_transfer.md R104). -/
theorem seqProgram_transfer_length {c : Cfg} {i : Instr} {bytes : List Byte} (hm : .transfer bytes ∈ seqProgram c i) :
    bytes.length = 1 ∨ bytes.length = 2 := by
  rcases seqProgram_actions hm with h | h | ⟨_, _, h⟩ | ⟨_, h⟩
  · simp [Micro.protocol] at h
  · simpa [Micro.draws, Micro.paints, Micro.rasters] using h
  · cases h
  · cases h

/-- The transfer of a RASTER_BUF cell issues that Pixel's two bytes, the low one first (43_glyph_rasterizer.md R141,
40_transfer.md R101). -/
theorem seqMicro_transferRaster (k : Nat) (s : State) : seqMicro (.transferRaster k) s =
    { s with xferBusy := true, inflight := some ⟨s.dcx, pixelBytes (s.rasterBuf.getD k bg)⟩ } :=
  issue_of_ne (List.cons_ne_nil _ _) s

/-- Settles O12: the issue is `issue`'s two cases, and a program's transfers are those of `seqProgram_actions`, single
bytes and Pixels. -/
theorem issueOfATransfer : Obligations.IssueOfATransfer := by
  refine ⟨fun s _ hne => issue_of_ne hne s, issue_nil, fun c i m _ hm => ⟨?_, ?_⟩⟩
  · rintro bytes rfl
    exact seqProgram_transfer_length hm
  · rintro k s rfl
    exact ⟨_, seqMicro_transferRaster k s⟩

end Sys2Proof.Machine
end

section
/-! Proofs of the family 41_panel_protocol.md: the legality table and the halt of an illegal operation. -/

namespace Sys2Proof.Machine

/-- The table's column Uninitialized (41_panel_protocol.md R119). -/
theorem opLegal_uninitialized_iff (op : Op) : opLegal op .uninitialized = true ↔ op ∈ [Op.reset, .pack, .init] := by
  cases op <;> simp [opLegal]

/-- The table's column Reset (41_panel_protocol.md R119). -/
theorem opLegal_reset_iff (op : Op) :
    opLegal op .reset = true ↔ op ∉ [Op.drawCharacter, .drawString, .drawLine, .refresh] := by
  cases op <;> simp [opLegal]

/-- The table's column Configured (41_panel_protocol.md R119). -/
theorem opLegal_configured_iff (op : Op) : opLegal op .configured = true ↔ op ≠ .configure := by
  cases op <;> simp [opLegal]

/-- A halt raised between operations leaves nothing to do, as before it (60_exceptions.md R177). -/
theorem raiseHalt_todo_of_idle {s : State} (hi : Idle s) (cause : Cause) :
    ({ raiseHalt cause s with todo := [] } : State) = raiseHalt cause s :=
  congrArg (raiseHalt cause) (todo_of_idle hi)

/-- A host operation illegal in PSTATE is `Halt(ProtocolOrder)` and nothing else (41_panel_protocol.md R117, R119). -/
theorem exec_illegal {s : State} {i : Instr} {op : Op} (hi : Idle s) (ho : opOf i = some op)
    (hl : opLegal op s.pstate = false) : exec i s = .next (raiseHalt .protocolOrder s) := by
  obtain ⟨body, hbody⟩ := seqProgram_eq ho s.cfg
  rw [exec_eq_perform ho, hbody, perform_illegal hi hl, raiseHalt_todo_of_idle hi]

/-- Settles O17: the table column by column, and the first common check of every operation's program, which raises the
halt before the body. -/
theorem illegalProtocolStateHalts : Obligations.IllegalProtocolStateHalts :=
  ⟨fun op => ⟨opLegal_uninitialized_iff op, opLegal_reset_iff op, opLegal_configured_iff op⟩,
    fun _ _ _ hi ho hl => exec_illegal hi ho hl⟩

end Sys2Proof.Machine
end

section
/-! Proofs about the whole machine: a step as a run of agent steps, the invariant along every step, the wire history and
the PANEL. -/

namespace Sys2Proof.Machine

/-! ## A step as a run of agent steps (10_state.md R10) -/

/-- SEQ and BUS may act, and HOST does not. -/
structure Running (s : State) : Prop where
  rstN : s.rstN = true
  halted : s.halted = false
  host : s.host = []

/-- With HOST idle a step is one of SEQ and BUS. -/
theorem dheStep_of_hostIdle {s t : State} (hh : HostIdle s) (h : step s = .next t) :
    s.rstN = true ∧ s.halted = false ∧ DheStep { s with host := s.host.tail } t := by
  rcases step_cases h with ⟨_, e, -⟩ | ⟨_, e, -⟩ | ⟨-, hr, hl, d⟩
  · simp [HostIdle, e] at hh
  · simp [HostIdle, e] at hh
  · exact ⟨hr, hl, d⟩

/-- Agent steps lead from one state to the other. -/
def Ticks (s t : State) : Prop := ∃ n, fineCore.run n s = .next t

theorem Ticks.refl (s : State) : Ticks s s := ⟨0, rfl⟩

theorem Ticks.cons {s t u : State} (h : tick s = .next t) (k : Ticks t u) : Ticks s u := by
  obtain ⟨n, hn⟩ := k
  exact ⟨n + 1, by rw [fineCore_run_succ n h, hn]⟩

theorem Ticks.single {s t : State} (h : tick s = .next t) : Ticks s t := .cons h (.refl t)

theorem Ticks.trans {s t u : State} (h : Ticks s t) (k : Ticks t u) : Ticks s u := by
  obtain ⟨n, hn⟩ := h
  induction n generalizing s with
  | zero => cases hn; exact k
  | succ n ih =>
    cases hs : tick s with
    | next v => exact .cons hs (ih (by rwa [fineCore_run_succ n hs] at hn))
    | fault f => exact absurd hn (run_stop fineCore n s t fun v hv => nomatch hs.symm.trans hv)
    | refused f => exact absurd hn (run_stop fineCore n s t fun v hv => nomatch hs.symm.trans hv)

/-- An action that groups no writes, at SEQ's place: it is one agent step. -/
theorem ticks_single {m : Micro} {ms : List Micro} {s : State} (hm : m.single) (r : Running s) (hb : s.xferBusy = false)
    (ht : s.todo = m :: ms) : Ticks s (endIfHalted { seqMicro m s with todo := ms }) := by
  have e : seqTick m ms s = endIfHalted { seqMicro m s with todo := ms } := by
    simp only [seqTick, hm s.cfg, List.nil_append, seqMicro_todo]
  exact .single (e ▸ tick_seq r.rstN r.halted hb r.host ht)

theorem seqMicro_running {m : Micro} {s : State} (r : Running s) (h : (seqMicro m s).halted = false) :
    Running (seqMicro m s) := by
  obtain ⟨-, -, hh, hr, -⟩ := seqMicro_keeps m s
  exact ⟨hr.trans r.rstN, h, hh.trans r.host⟩

theorem busStep_running {s : State} (r : Running s) (h : (busStep s).halted = false) : Running (busStep s) := by
  obtain ⟨-, -, hh, hr, -⟩ := busStep_keeps s
  exact ⟨hr.trans r.rstN, h, hh.trans r.host⟩

/-- BUS's agent step. -/
theorem ticks_bus {s : State} (r : Running s) (hb : s.xferBusy = true) : Ticks s (endIfHalted (busStep s)) :=
  .single (tick_bus r.rstN r.halted hb r.host)

/-- An action and BUS's step on the transfer it may issue, by agent steps. -/
theorem ticks_actMicro {m : Micro} {ms : List Micro} {s : State} (r : Running s) (hb : s.xferBusy = false)
    (ht : s.todo = m :: ms) : Ticks s (endIfHalted { actMicro m s with todo := ms }) := by
  rcases m.single_or_group with hm | hg
  · have first := ticks_single hm r hb ht
    unfold actMicro
    simp only
    split
    · exact first
    · rename_i hh
      have hh : (seqMicro m s).halted = false := by simpa using hh
      rw [endIfHalted, if_neg (by simp [hh])] at first
      split
      · rename_i hbusy
        have r' : Running { seqMicro m s with todo := ms } :=
          have k := seqMicro_running r hh
          ⟨k.rstN, k.halted, k.host⟩
        have second := ticks_bus r' hbusy
        rw [busStep_todo] at second
        exact first.trans second
      · rwa [endIfHalted, if_neg (by simp [hh])]
  · obtain ⟨ws, hw⟩ := hg s.cfg
    obtain ⟨hh, hbusy⟩ := group_quiet hw
    have e : actMicro m s = seqMicro m s := by simp [actMicro, hh, hbusy, r.halted, hb]
    rw [e, endIfHalted, if_neg (by simp [hh, r.halted])]
    exact ticks_group hw r.rstN r.halted hb r.host ht

theorem actMicro_running {m : Micro} {s : State} (r : Running s) (h : (actMicro m s).halted = false) :
    Running (actMicro m s) := by
  unfold actMicro at h ⊢
  simp only at h ⊢
  split at h
  · next hh => rw [hh] at h; cases h
  · next hh =>
    rw [if_neg hh]
    have k := seqMicro_running r (by simpa using hh)
    split at h
    · next hb => rw [if_pos hb]; exact busStep_running k h
    · next hb => rw [if_neg hb]; exact k

/-- What `step` does with a program, agent steps do. -/
theorem ticks_runSeq (ms : List Micro) : ∀ s : State, Running s → s.xferBusy = false → s.todo = ms →
    Ticks s (runSeq ms s) := by
  induction ms with
  | nil => intro s _ _ ht; rw [runSeq, ← ht]; exact .refl s
  | cons m ms ih =>
    intro s r hb ht
    have first := ticks_actMicro r hb ht
    rw [runSeq]
    split
    · next hh => simpa [endIfHalted, hh] using first
    · next hh =>
      have hh : (actMicro m s).halted = false := by simpa using hh
      rw [endIfHalted, if_neg (by simp [hh])] at first
      split
      · exact first
      · next hbusy =>
        have k := actMicro_running r hh
        have rest := ih { actMicro m s with todo := ms } ⟨k.rstN, k.halted, k.host⟩ (by simpa using hbusy) rfl
        rw [runSeq_todo] at rest
        exact first.trans rest

/-- BUS's step and SEQ's going on, by agent steps. -/
theorem ticks_resume {s : State} (r : Running s) (hb : s.xferBusy = true) : Ticks s (resume s) := by
  have first := ticks_bus r hb
  unfold resume
  simp only
  split
  · next hh => simpa [endIfHalted, hh] using first
  · next hh =>
    have hh : (busStep s).halted = false := by simpa using hh
    rw [endIfHalted, if_neg (by simp [hh])] at first
    split
    · exact first
    · next hbusy => exact first.trans (ticks_runSeq _ _ (busStep_running r hh) (by simpa using hbusy) rfl)

/-- Every step of SEQ and BUS, by agent steps. -/
theorem ticks_dheStep {s t : State} (r : Running s) (d : DheStep s t) : Ticks s t := by
  cases d with
  | busy hb => exact ticks_resume r hb
  | inside m ms hb ht => exact ticks_runSeq _ _ r hb ht
  | operation i op rest ho hd hb ht =>
    have first : tick s = .next { s with todo := seqProgram s.cfg i } := by
      rw [tick_fetch r.rstN r.halted hb r.host ht, hd]
    have rest := ticks_runSeq (seqProgram s.cfg i) { s with todo := seqProgram s.cfg i } ⟨r.rstN, r.halted, r.host⟩ hb rfl
    rw [runSeq_todo] at rest
    exact .cons first rest
  | illegal rej hd hf hb ht => exact .single (by rw [tick_fetch r.rstN r.halted hb r.host ht, hd]; exact hf)

/-- Settles O60: each thing a step of SEQ and BUS can be is a run of agent steps. -/
theorem stepIsARunOfAgentSteps : Obligations.StepIsARunOfAgentSteps := by
  intro s t hh h
  obtain ⟨hr, hl, d⟩ := dheStep_of_hostIdle (.inl hh) h
  have e : ({ s with host := s.host.tail } : State) = s := by rw [hh, List.tail_nil, ← hh]
  exact ticks_dheStep ⟨hr, hl, hh⟩ (e ▸ d)

/-! ## The invariant (10_state.md) -/

/-- The machine with the registers of power-on reset keeps the invariant, whatever CFG, PROG, BUS, HOST, RST_N and the
PANEL are (10_state.md R28). -/
theorem inv_of_reset {c : Cfg} {p : Panel} (wf : c.WellFormed) (hg : p.gram.wf = true) (prog : List Byte) (e : Inputs)
    (r : Bool) : Inv { State.reset with cfg := c, prog := prog, toInputs := e, rstN := r, panel := p } where
  cfg := wf
  busy := rfl
  level := fun _ h => nomatch h
  stream := rfl
  halt := rfl
  window := fun h => nomatch h
  line := fun _ => rfl
  inside := fun h => absurd rfl h
  sound := rfl
  operation := fun h => nomatch h
  gram := hg

/-- Settles O54. -/
theorem invariantHoldsAtReset : Obligations.InvariantHoldsAtReset :=
  inv_of_reset (c := cfgRef) (p := Panel.atPowerOn) (by decide +kernel) rfl [] ⟨[], .perform, []⟩ true

/-- The invariant says nothing of HOST's list. -/
theorem Inv.with_host {s : State} (v : Inv s) (host : List HostAct) : Inv { s with host := host } :=
  ⟨v.cfg, v.busy, v.level, v.stream, v.halt, v.window, v.line, v.inside, v.sound, v.operation, v.gram⟩

theorem assertReset_inv {s : State} (v : Inv s) : Inv (assertReset s) := inv_of_reset (p := s.panel.poison) v.cfg v.gram _ _ _

theorem releaseReset_inv {s : State} (v : Inv s) : Inv (releaseReset s) := by
  unfold releaseReset
  split
  · exact v
  · exact inv_of_reset (p := s.panel.poison) v.cfg v.gram _ _ _

/-- A halt between operations keeps the invariant. -/
theorem raiseHalt_inv {s : State} {k : Cause} (hk : k ≠ .none) (v : Inv s) (ht : s.todo = []) : Inv (raiseHalt k s) := by
  have h := (raiseHalt_inside (ks := []) hk v.inside_todo).inv (fun h => absurd rfl h) fun _ h => nomatch h
  rwa [← ht] at h

/-- A step of SEQ and BUS keeps the invariant. -/
theorem dheStep_inv {u t : State} (v : Inv u) (hl : u.halted = false) (d : DheStep u t) : Inv t := by
  cases d with
  | busy hb => exact resume_inv v hl hb
  | inside m ms hb ht =>
    have hbusy := v.inside (by simp [ht])
    rw [hb] at hbusy
    cases hbusy
  | operation i op rest ho hd hb ht => exact operation_inv v hl hb hd ht
  | illegal r hd hf hb ht => exact raiseHalt_inv (by decide) v ht

/-- Settles O55: HOST's two actions on RST_N, and each thing a step of SEQ and BUS can be. -/
theorem invariantIsKeptByEveryStep : Obligations.InvariantIsKeptByEveryStep := by
  intro s t v h
  rcases step_cases h with ⟨host, -, rfl⟩ | ⟨host, -, rfl⟩ | ⟨-, -, hl, d⟩
  · exact assertReset_inv (v.with_host host)
  · exact releaseReset_inv (v.with_host host)
  · exact dheStep_inv (v.with_host s.host.tail) hl d

/-! ## WIRE and the PANEL (20_memory.md R63) -/

/-- WIRE gains some events, and the PANEL takes exactly these. -/
def WireDrives (s t : State) : Prop :=
  t.cfg = s.cfg ∧ ∃ es, t.wire = s.wire ++ es ∧ t.panel = panelEvents s.cfg s.panel es

theorem WireDrives.trans {s t u : State} (a : WireDrives s t) (b : WireDrives t u) : WireDrives s u := by
  obtain ⟨ca, ea, wa, pa⟩ := a
  obtain ⟨cb, eb, wb, pb⟩ := b
  exact ⟨cb.trans ca, ea ++ eb, by rw [wb, wa, List.append_assoc], by rw [pb, pa, ca, panelEvents_append]⟩

/-- A change of other registers only. -/
theorem WireDrives.of_kept {s t : State} (hc : t.cfg = s.cfg) (hw : t.wire = s.wire) (hp : t.panel = s.panel) :
    WireDrives s t := ⟨hc, [], by rw [hw, List.append_nil], hp⟩

theorem WireDrives.emit (e : Event) (s : State) : WireDrives s (emit e s) := ⟨rfl, [e], rfl, rfl⟩

theorem busStep_wireDrives (s : State) : WireDrives s (busStep s) := by
  rcases busStep_cases s with ⟨-, e⟩ | ⟨t, -, e | ⟨k, e⟩ | e⟩ <;> rw [e]
  · exact .of_kept rfl rfl rfl
  · exact ⟨rfl, [.xfer t.dc t.bytes], rfl, rfl⟩
  · exact ⟨rfl, [.xferFault t.dc (t.bytes.take k)], rfl, rfl⟩
  · exact .of_kept rfl rfl rfl

theorem issue_wireDrives (bytes : List Byte) (s : State) : WireDrives s (issue bytes s) := by
  unfold issue
  split <;> exact .of_kept rfl rfl rfl

theorem seqMicro_wireDrives (m : Micro) (s : State) : WireDrives s (seqMicro m s) := by
  cases m with
  | require k => rcases require_keeps k s with e | e <;> rw [e] <;> exact .of_kept rfl rfl rfl
  | setResx l => exact WireDrives.emit (.resx l) { s with resx := l }
  | delay d => exact WireDrives.emit (.delay d) s
  | transfer bytes => exact issue_wireDrives bytes s
  | transferRaster i => exact issue_wireDrives _ s
  | write w => cases w <;> exact .of_kept rfl rfl rfl
  | _ => exact .of_kept rfl rfl rfl

/-- Every piece of a run puts its events on WIRE and hands them to the PANEL. -/
theorem along_wireDrives : Along WireDrives fun _ => True where
  trans := WireDrives.trans
  todo := fun _ _ => .of_kept rfl rfl rfl
  bus := busStep_wireDrives
  micro := fun m s _ => seqMicro_wireDrives m s

/-- Settles O56: the relation holds along every piece of a run, so along a step. -/
theorem wireGrowsAndDrivesThePanel : Obligations.WireGrowsAndDrivesThePanel := by
  intro s t _ hh h
  obtain ⟨-, -, d⟩ := dheStep_of_hostIdle hh h
  exact (along_wireDrives.dheStep (fun _ _ => .of_kept rfl rfl rfl) d).2

end Sys2Proof.Machine
end

section
/-! Proofs about the whole machine: PROG and CFG, PC, and the write column of the access matrix. -/

namespace Sys2Proof.Machine

/-! ## PROG and CFG (20_memory.md R47, R65) -/

theorem step_params {s t : State} (h : step s = .next t) : t.prog = s.prog ∧ t.cfg = s.cfg := by
  rcases step_cases h with ⟨host, -, rfl⟩ | ⟨host, -, rfl⟩ | ⟨-, -, -, d⟩
  · exact ⟨rfl, rfl⟩
  · unfold releaseReset; split <;> exact ⟨rfl, rfl⟩
  · exact along_params.dheStep (s := { s with host := s.host.tail }) (fun _ _ => ⟨rfl, rfl⟩) d

/-- A step from a state under `c` and `prog` leads to a state under them. -/
theorem step_under {c : Cfg} {prog : List Byte} {e : Inputs} {r : Regs} {t : State}
    (h : step (r.under c prog e) = .next t) : t = t.toRegs.under c prog t.toInputs :=
  State.eq_under (step_params h).2 (step_params h).1

theorem stepUnder_next_under {c : Cfg} {prog : List Byte} {e : Inputs} {r r' : Regs} :
    stepUnder c prog e r = .next r' ↔ ∃ e', step (r.under c prog e) = .next (r'.under c prog e') := by
  rw [stepUnder_next]
  constructor
  · rintro ⟨t, h, rfl⟩
    exact ⟨t.toInputs, by rw [h, ← step_under h]⟩
  · rintro ⟨e', h⟩
    exact ⟨_, h, rfl⟩

/-- A step can be fed so that it leaves `e` to BUS and HOST for the steps after it. -/
theorem stepUnder_feeds {c : Cfg} {prog : List Byte} {e : Inputs} {r u : Regs} (h : stepUnder c prog e r = .next u)
    (e' : Inputs) : ∃ e'', step (r.under c prog e'') = .next (u.under c prog e') := by
  obtain ⟨f, hf⟩ := stepUnder_next_under.mp h
  obtain ⟨used, act, hu⟩ := step_uses hf
  exact ⟨_, hu e'⟩

/-- The machine's runs are the runs of `stepUnder` (log entry 1), by induction on their length: BUS's choices and HOST's
actions for a run are those its steps use, one after another. -/
theorem runUnder_iff {c : Cfg} {prog : List Byte} (n : Nat) : ∀ r r' : Regs,
    (∃ es, es.length = n ∧ runUnder c prog es r = .next r') ↔
      ∃ e e', core.run n (r.under c prog e) = .next (r'.under c prog e') := by
  induction n with
  | zero =>
    intro r r'
    constructor
    · rintro ⟨es, hl, h⟩
      obtain rfl := List.length_eq_zero_iff.mp hl
      cases h
      exact ⟨⟨[], .perform, []⟩, _, rfl⟩
    · rintro ⟨e, e', h⟩
      have hr : r = r' := congrArg State.toRegs (Host.Outcome.next.inj h)
      exact ⟨[], rfl, by rw [hr]; rfl⟩
  | succ n ih =>
    intro r r'
    constructor
    · rintro ⟨es, hl, h⟩
      obtain ⟨e, es, rfl⟩ := List.exists_cons_of_length_eq_add_one hl
      obtain ⟨u, hu, hrest⟩ := runUnder_cons.mp h
      obtain ⟨e₁, e₂, h₁⟩ := (ih u r').mp ⟨es, by simpa using hl, hrest⟩
      obtain ⟨e₀, h₀⟩ := stepUnder_feeds hu e₁
      exact ⟨e₀, e₂, (core_run_succ n h₀).trans h₁⟩
    · rintro ⟨e, e', h⟩
      cases hs : step (r.under c prog e) with
      | next t =>
        rw [core_run_succ n hs, step_under hs] at h
        obtain ⟨es, hl, hrest⟩ := (ih t.toRegs r').mpr ⟨_, _, h⟩
        exact ⟨e :: es, by simp [hl], runUnder_cons.mpr ⟨_, stepUnder_next.mpr ⟨t, hs, rfl⟩, hrest⟩⟩
      | fault f => exact absurd h (run_stop core n _ _ fun v hv => nomatch hs.symm.trans hv)
      | refused f => exact absurd h (run_stop core n _ _ fun v hv => nomatch hs.symm.trans hv)

/-- Settles O57. -/
theorem progAndCfgAreNeverWritten : Obligations.ProgAndCfgAreNeverWritten :=
  ⟨fun _ _ => step_params, fun _ _ _ _ => ⟨fun _ => stepUnder_next_under, fun _ => stepUnder_fault⟩,
    fun _ _ n r r' => runUnder_iff n r r'⟩

/-! ## PC (10_state.md R13) -/

/-- What an operation's end, halt or wait means for PC. -/
theorem Outcome.pc_cases {ms : List Micro} {n : Nat} {s t : State} (o : Outcome ms n s t) :
    (t.halted = false ∧ t.xferBusy = false ∧ t.todo = [] ∧ t.pc = s.pc + n) ∨
    (t.halted = true ∧ t.haltPc = s.pc ∧ t.pc = s.pc) ∨ (t.halted = false ∧ t.xferBusy = true ∧ t.pc = s.pc) := by
  rcases o with ⟨h, b, td, pc⟩ | ⟨h, hp, -, pc⟩ | ⟨h, b, pc, -, -, -⟩
  · exact .inl ⟨h, b, td, pc⟩
  · exact .inr (.inl ⟨h, hp, pc⟩)
  · exact .inr (.inr ⟨h, b, pc⟩)

/-- An operation's program, started between operations. -/
theorem runSeq_program_outcome {i : Instr} {op : Op} (ho : opOf i = some op) {s : State} (hh : s.halted = false)
    (hb : s.xferBusy = false) : ∃ ms, Outcome ms (oplen i) s (runSeq (seqProgram s.cfg i) s) := by
  obtain ⟨ms, e, hm⟩ := seqProgram_ofBody ho s.cfg
  exact ⟨ms, e ▸ runSeq_outcome (oplen i) ms hm s hh hb⟩

/-- From a state with the invariant, a step of SEQ and BUS works on the operation at PC, or halts where there is none. -/
theorem dheStep_outcome {u t : State} (v : Inv u) (hl : u.halted = false) (d : DheStep u t) :
    (∃ i rest ms, decode (u.prog.drop u.pc) = .ok (i, rest) ∧ Outcome ms (oplen i) u t) ∨
    t = raiseHalt .illegalOp u := by
  cases d with
  | busy hb =>
    obtain ⟨i, op, rest, ms, hd, -, hm, ht, -⟩ := v.waiting hl hb
    exact .inl ⟨i, rest, ms, hd, resume_outcome hm hl ht⟩
  | inside m ms hb ht =>
    have hbusy := v.inside (by simp [ht])
    rw [hb] at hbusy
    cases hbusy
  | operation i op rest ho hd hb ht =>
    obtain ⟨ms, o⟩ := runSeq_program_outcome ho hl hb
    exact .inl ⟨i, rest, ms, hd, o⟩
  | illegal r hd hf hb ht => exact .inr rfl

/-- Settles O58: where the actions of an operation can leave SEQ (`Outcome`), for the program exec performs and for the
steps on the operation at PC. -/
theorem pcAdvancesByTheLength : Obligations.PcAdvancesByTheLength := by
  refine ⟨fun s t i op _ ho h => ?_, fun s t v hh h => ?_⟩
  · obtain ⟨hl, hb, -, rfl⟩ := exec_next ho h
    obtain ⟨ms, o⟩ := runSeq_program_outcome ho hl hb
    exact o.pc_cases
  · obtain ⟨-, hl, d⟩ := dheStep_of_hostIdle hh h
    rcases dheStep_outcome (v.with_host s.host.tail) hl d with ⟨i, rest, ms, hd, o⟩ | rfl
    · rcases o.pc_cases with ⟨h, b, td, pc⟩ | o | o
      · exact .inl ⟨h, b, td, i, rest, hd, pc⟩
      · exact .inr (.inl o)
      · exact .inr (.inr o)
    · exact .inr (.inl ⟨rfl, rfl, rfl⟩)

/-! ## The access matrix (10_state.md R29) -/

/-- The registers, and groups of them, with a column in the matrix. -/
inductive MatrixReg where
  | pstate
  | dcx
  | resx
  | winValid
  | win
  | stream
  | pixacc
  | raster
  deriving DecidableEq

/-- The register has the same value in both states. -/
def MatrixReg.Same (s t : State) : MatrixReg → Prop
  | .pstate => t.pstate = s.pstate
  | .dcx => t.dcx = s.dcx
  | .resx => t.resx = s.resx
  | .winValid => t.winValid = s.winValid
  | .win => t.win = s.win
  | .stream => t.streaming = s.streaming ∧ t.pxRemaining = s.pxRemaining
  | .pixacc => t.pixacc = s.pixacc
  | .raster => t.rasterBuf = s.rasterBuf

/-- The registers of the matrix an action may write; any of them, for a single register write. -/
def Micro.targets : Micro → List MatrixReg
  | .require _ => []
  | .beginReset => [.pstate, .winValid, .stream]
  | .setResx _ => [.resx]
  | .delay _ => []
  | .setPstate _ => [.pstate]
  | .setDcx _ => [.dcx]
  | .transfer _ => []
  | .invalidateWindow => [.winValid]
  | .loadWindow _ _ _ _ => [.win, .winValid]
  | .openStream => [.stream]
  | .countPixel => [.stream]
  | .packField _ _ => [.pixacc]
  | .rasterize _ _ _ => [.raster]
  | .transferRaster _ => []
  | .dropRaster => [.raster]
  | .advancePc _ => []
  | .write _ => [.pstate, .dcx, .resx, .winValid, .win, .stream, .pixacc, .raster]

/-- The write column of the matrix. -/
def matrixRow : Op → List MatrixReg
  | .reset => [.pstate, .dcx, .resx, .winValid, .stream]
  | .configure => [.pstate, .dcx, .winValid, .win, .stream]
  | .sendCommand => [.dcx]
  | .sendData => [.dcx]
  | .setDrawWindow => [.dcx, .winValid, .win]
  | .beginPixelWrite => [.dcx, .stream]
  | .writePixel => [.stream]
  | .pack => [.pixacc]
  | .drawCharacter => [.dcx, .winValid, .win, .stream, .raster]
  | .drawString => [.dcx, .winValid, .win, .stream, .raster]
  | .drawLine => [.dcx, .winValid, .win, .stream]
  | .init => [.pstate, .dcx, .resx, .winValid, .win, .stream, .raster]
  | .refresh => [.dcx, .winValid, .win, .stream, .raster]

theorem MatrixReg.Same.refl (g : MatrixReg) (s : State) : g.Same s s := by cases g <;> simp [MatrixReg.Same]

theorem MatrixReg.Same.trans {g : MatrixReg} {s t u : State} (a : g.Same s t) (b : g.Same t u) : g.Same s u := by
  cases g <;> simp_all [MatrixReg.Same]

/-- Neither BUS nor the issue of a transfer writes a register of the matrix. -/
theorem busStep_same (g : MatrixReg) (s : State) : g.Same s (busStep s) := by
  cases g <;> simp [MatrixReg.Same, busStep_keeps]

theorem issue_same (g : MatrixReg) (bytes : List Byte) (s : State) : g.Same s (issue bytes s) := by
  cases g <;> simp [MatrixReg.Same, issue_keeps]

theorem raiseHalt_same (g : MatrixReg) (k : Cause) (s : State) : g.Same s (raiseHalt k s) := by
  cases g <;> simp [MatrixReg.Same]

/-- An action leaves alone what is not among its targets. -/
theorem seqMicro_same {g : MatrixReg} {m : Micro} (h : g ∉ m.targets) (s : State) : g.Same s (seqMicro m s) := by
  cases m with
  | require k => rcases require_keeps k s with e | e <;> rw [e]; exacts [.refl g s, raiseHalt_same g _ s]
  | transfer bytes => exact issue_same g bytes s
  | transferRaster i => exact issue_same g _ s
  | _ => cases g <;> simp_all [MatrixReg.Same, Micro.targets, seqMicro]

/-- What no action has for a target is kept along a run, whatever BUS does. -/
theorem along_same (g : MatrixReg) : Along (fun s t => g.Same s t) fun m => g ∉ m.targets where
  trans := MatrixReg.Same.trans
  todo := fun s _ => by cases g <;> simp [MatrixReg.Same]
  bus := busStep_same g
  micro := fun _ s h => seqMicro_same h s

/-! What the bodies of the operations have for targets. -/

theorem paints_targets {m : Micro} (h : m.paints = true) : m.targets ⊆ [.dcx, .winValid, .win, .stream] := by
  cases m <;> simp [Micro.paints, Micro.targets] at h ⊢

theorem rasters_targets {m : Micro} (h : m.rasters = true) : m.targets ⊆ [.raster] := by
  cases m <;> simp [Micro.rasters, Micro.targets] at h ⊢

theorem draws_targets {m : Micro} (h : m.draws) : m.targets ⊆ [.dcx, .winValid, .win, .stream, .raster] := by
  rcases h with h | h
  · exact List.Subset.trans (paints_targets h) (by simp)
  · exact List.Subset.trans (rasters_targets h) (by simp)

theorem protocol_targets {m : Micro} (h : m.protocol = true) : m.targets ⊆ [.pstate, .resx, .winValid, .stream] := by
  cases m <;> simp [Micro.protocol, Micro.targets] at h ⊢

theorem resetBody_targets (c : Cfg) : ∀ m ∈ resetBody c, m.targets ⊆ matrixRow .reset := by
  simp [resetBody, sendCommandBody, Micro.targets, matrixRow]

theorem configureBody_targets (c : Cfg) : ∀ m ∈ configureBody c, m.targets ⊆ matrixRow .configure := by
  intro m hm
  rcases configureBody_actions c m hm with h | rfl
  · exact List.Subset.trans (paints_targets h) (by simp [matrixRow])
  · simp [Micro.targets, matrixRow]

theorem sendCommandBody_targets (code : Byte) : ∀ m ∈ sendCommandBody code, m.targets ⊆ matrixRow .sendCommand := by
  simp [sendCommandBody, Micro.targets, matrixRow]

theorem sendDataBody_targets (byte : Byte) : ∀ m ∈ sendDataBody byte, m.targets ⊆ matrixRow .sendData := by
  simp [sendDataBody, Micro.targets, matrixRow]

theorem setDrawWindowBody_targets (c : Cfg) (x y w h : Nat) :
    ∀ m ∈ setDrawWindowBody c x y w h, m.targets ⊆ matrixRow .setDrawWindow := by
  simp [setDrawWindowBody, axisBody, sendCommandBody, sendDataBody, Micro.targets, matrixRow]

theorem beginPixelWriteBody_targets (c : Cfg) : ∀ m ∈ beginPixelWriteBody c, m.targets ⊆ matrixRow .beginPixelWrite := by
  simp [beginPixelWriteBody, sendCommandBody, Micro.targets, matrixRow]

theorem writePixelBody_targets (p : Pixel) : ∀ m ∈ writePixelBody p, m.targets ⊆ matrixRow .writePixel := by
  simp [writePixelBody, Micro.targets, matrixRow]

theorem packBody_targets (ch : Channel) (pct : Nat) : ∀ m ∈ packBody ch pct, m.targets ⊆ matrixRow .pack := by
  simp [packBody, Micro.targets, matrixRow]

theorem initBody_targets (c : Cfg) : ∀ m ∈ initBody c, m.targets ⊆ matrixRow .init := by
  intro m hm
  rcases initBody_actions c m hm with h | h
  · exact List.Subset.trans (protocol_targets h) (by simp [matrixRow])
  · exact List.Subset.trans (draws_targets h) (by simp [matrixRow])

/-- The common checks and the PC's advance write no register of the matrix. -/
theorem operation_targets {op : Op} {body : List Micro} {len : Nat} {row : List MatrixReg}
    (h : ∀ m ∈ body, m.targets ⊆ row) : ∀ m ∈ operation op body len, m.targets ⊆ row := by
  intro m hm
  rcases mem_operation.mp hm with rfl | rfl | hm | rfl
  · exact List.nil_subset _
  · exact List.nil_subset _
  · exact h m hm
  · exact List.nil_subset _

/-- An operation's actions write only registers of its row. -/
theorem seqProgram_targets {c : Cfg} {i : Instr} {op : Op} (ho : opOf i = some op) :
    ∀ m ∈ seqProgram c i, m.targets ⊆ matrixRow op := by
  cases i <;> cases ho
  case reset => exact operation_targets (resetBody_targets c)
  case configure => exact operation_targets (configureBody_targets c)
  case sendCommand => exact operation_targets (sendCommandBody_targets _)
  case sendData => exact operation_targets (sendDataBody_targets _)
  case setDrawWindow => exact operation_targets (setDrawWindowBody_targets _ _ _ _ _)
  case beginPixelWrite => exact operation_targets (beginPixelWriteBody_targets c)
  case writePixel => exact operation_targets (writePixelBody_targets _)
  case pack => exact operation_targets (packBody_targets _ _)
  case drawCharacter => exact operation_targets fun m hm => draws_targets (drawCharacterBody_draws _ _ _ _ _ _ m hm)
  case drawString => exact operation_targets fun m hm => draws_targets (drawStringBody_draws _ _ _ _ _ _ m hm)
  case drawLine => exact operation_targets fun m hm => paints_targets (drawLineBody_paints _ _ _ _ _ _ m hm)
  case init => exact operation_targets (initBody_targets c)
  case refresh => exact operation_targets fun m hm => draws_targets (refreshBody_draws _ _ _ _ _ m hm)

/-- PACK issues no transfer, so BUS has no step on it. -/
theorem runSeq_pack {ch : Channel} {pct : Byte} {s : State} (hb : s.xferBusy = false) :
    (runSeq (packOp ch pct) s).wire = s.wire ∧ (runSeq (packOp ch pct) s).panel = s.panel ∧
      (runSeq (packOp ch pct) s).xferBusy = false := by
  have h := runSeq_silent (fun s => (s.wire, s.panel)) (fun _ _ => rfl) (packOp ch pct) (fun m hm s => by
    rcases mem_packOp hm with ⟨k, rfl⟩ | rfl | rfl
    · rcases require_keeps k s with e | e <;> simp [e]
    · simp [seqMicro]
    · simp [seqMicro]) s hb
  exact ⟨congrArg Prod.fst h.1, congrArg Prod.snd h.1, h.2⟩

/-- What the matrix says, from the registers outside the row and PACK's keeping off the pins. -/
theorem matrixKept_of_same {op : Op} {s t : State} (h : ∀ g, g ∉ matrixRow op → g.Same s t)
    (hpack : op = .pack → s.xferBusy = false → t.wire = s.wire ∧ t.panel = s.panel ∧ t.xferBusy = false) :
    MatrixKept op s t := by
  refine ⟨fun ho => h .pstate ?_, fun ho => h .dcx ?_, fun ho => h .resx ?_, fun ho => h .winValid ?_,
    fun ho => h .win ?_, fun ho => h .stream ?_, fun ho => h .pixacc ?_, fun ho => h .raster ?_, hpack⟩ <;>
    cases op <;> simp [matrixRow] at ho ⊢

/-- The operation's program keeps what the matrix says. -/
theorem runSeq_matrixKept {i : Instr} {op : Op} (ho : opOf i = some op) (s : State) :
    MatrixKept op s (runSeq (seqProgram s.cfg i) s) := by
  refine matrixKept_of_same (fun g hg => (along_same g).runSeq _ (fun m hm h => hg (seqProgram_targets ho m hm h)) s) ?_
  rintro rfl hb
  cases i <;> cases ho
  exact runSeq_pack hb

/-- HOST's list is no register of the matrix. -/
theorem MatrixKept.of_host {op : Op} {s t : State} {host : List HostAct} (h : MatrixKept op { s with host := host } t) :
    MatrixKept op s t := h

/-- A step of SEQ and BUS on the operation at PC. -/
theorem dheStep_matrixKept {u t : State} {i : Instr} {op : Op} {rest : List Byte} (v : Inv u) (hl : u.halted = false)
    (hd : decode (u.prog.drop u.pc) = .ok (i, rest)) (ho : opOf i = some op) (d : DheStep u t) : MatrixKept op u t := by
  cases d with
  | busy hb =>
    obtain ⟨j, _, rest', ms, hd', -, -, -, hs⟩ := v.waiting hl hb
    obtain ⟨rfl, -⟩ := Prod.mk.inj (Except.ok.inj (hd.symm.trans hd'))
    refine matrixKept_of_same (fun g hg => (along_same g).resume fun m hm h =>
      hg (seqProgram_targets ho m (hs.subset hm) h)) fun _ hb' => ?_
    rw [hb] at hb'
    cases hb'
  | inside m ms hb ht =>
    have hbusy := v.inside (by simp [ht])
    rw [hb] at hbusy
    cases hbusy
  | operation j _ rest' _ hd' hb ht =>
    obtain ⟨rfl, -⟩ := Prod.mk.inj (Except.ok.inj (hd.symm.trans hd'))
    exact runSeq_matrixKept ho u
  | illegal r hd' => exact nomatch hd.symm.trans hd'

/-- Settles O59: no action of an operation's program has a target outside its row, so neither exec nor any step on the
operation writes one. -/
theorem accessMatrixWrites : Obligations.AccessMatrixWrites := by
  refine ⟨fun s t i op ho h => ?_, fun s t i op rest v hh hd ho h => ?_⟩
  · obtain ⟨-, -, -, rfl⟩ := exec_next ho h
    exact runSeq_matrixKept ho s
  · obtain ⟨-, hl, d⟩ := dheStep_of_hostIdle hh h
    exact (dheStep_matrixKept (v.with_host s.host.tail) hl hd ho d).of_host

end Sys2Proof.Machine
end

section
/-! Proofs of the family 30_encoding.md: the descriptor decoder and its encoder are inverse, the PANEL's decoder, and
what SEQ does with the bytes at PC. -/

namespace Sys2Proof.Machine

/-! ## Each format's operand decoder on the bytes its encoding has after byte 0, and on any bytes -/

@[simp] theorem bytes16_be16 (hi lo : Byte) : bytes16 (be16 hi lo) = [hi, lo] := by simp [bytes16]

theorem decodeByte_cons (f : Byte → Instr) (b : Byte) (rest : List Byte) : decodeByte f (b :: rest) = .ok (f b, rest) := rfl

theorem decodeByte_ok {f : Byte → Instr} {bs rest : List Byte} {i : Instr} (h : decodeByte f bs = .ok (i, rest)) :
    ∃ b, i = f b ∧ bs = b :: rest := by
  unfold decodeByte at h
  split at h
  · obtain ⟨rfl, rfl⟩ := Prod.mk.inj (Except.ok.inj h)
    exact ⟨_, rfl, rfl⟩
  · cases h

theorem decodePixel_bytes16 (f : Pixel → Instr) (p : Pixel) (rest : List Byte) :
    decodePixel f (bytes16 p ++ rest) = .ok (f p, rest) := by
  simp [bytes16, decodePixel]

theorem decodePixel_ok {f : Pixel → Instr} {bs rest : List Byte} {i : Instr} (h : decodePixel f bs = .ok (i, rest)) :
    ∃ p, i = f p ∧ bs = bytes16 p ++ rest := by
  unfold decodePixel at h
  split at h
  · obtain ⟨rfl, rfl⟩ := Prod.mk.inj (Except.ok.inj h)
    exact ⟨_, rfl, by simp⟩
  · cases h

theorem decodePack_chan8Of (ch : Channel) (pct : Byte) (rest : List Byte) :
    decodePack (chan8Of ch :: pct :: rest) = .ok (.pack ch pct, rest) := by
  simp [decodePack, channelOf_chan8Of]

theorem decodePack_ok {bs rest : List Byte} {i : Instr} (h : decodePack bs = .ok (i, rest)) :
    ∃ ch pct, i = .pack ch pct ∧ bs = chan8Of ch :: pct :: rest := by
  unfold decodePack at h
  split at h
  · split at h
    · rename_i ch hch
      obtain ⟨rfl, rfl⟩ := Prod.mk.inj (Except.ok.inj h)
      exact ⟨_, _, rfl, by rw [chan8Of_of_channelOf hch]⟩
    · cases h
  · cases h

theorem decodeFour_bytes16 (f : BitVec 16 → BitVec 16 → BitVec 16 → BitVec 16 → Instr) (x y w h : BitVec 16)
    (rest : List Byte) :
    decodeFour f (bytes16 x ++ bytes16 y ++ bytes16 w ++ bytes16 h ++ rest) = .ok (f x y w h, rest) := by
  simp [bytes16, decodeFour]

theorem decodeFour_ok {f : BitVec 16 → BitVec 16 → BitVec 16 → BitVec 16 → Instr} {bs rest : List Byte} {i : Instr}
    (h : decodeFour f bs = .ok (i, rest)) :
    ∃ x y w h, i = f x y w h ∧ bs = bytes16 x ++ bytes16 y ++ bytes16 w ++ bytes16 h ++ rest := by
  unfold decodeFour at h
  split at h
  · obtain ⟨rfl, rfl⟩ := Prod.mk.inj (Except.ok.inj h)
    exact ⟨_, _, _, _, rfl, by simp⟩
  · cases h

theorem decodeCharacter_bytes16 (x y : BitVec 16) (code : Byte) (color : Pixel) (scale : Byte) (rest : List Byte) :
    decodeCharacter (bytes16 x ++ bytes16 y ++ code :: (bytes16 color ++ scale :: rest)) =
      .ok (.drawCharacter x y code color scale, rest) := by
  simp [bytes16, decodeCharacter]

theorem decodeCharacter_ok {bs rest : List Byte} {i : Instr} (h : decodeCharacter bs = .ok (i, rest)) :
    ∃ x y code color scale, i = .drawCharacter x y code color scale ∧
      bs = bytes16 x ++ bytes16 y ++ code :: (bytes16 color ++ scale :: rest) := by
  unfold decodeCharacter at h
  split at h
  · obtain ⟨rfl, rfl⟩ := Prod.mk.inj (Except.ok.inj h)
    exact ⟨_, _, _, _, _, rfl, by simp⟩
  · cases h

theorem decodeString_bytes16 (x y : BitVec 16) (color : Pixel) (scale : Byte) {text : List Byte}
    (ht : text.length ≤ 255) (rest : List Byte) :
    decodeString (bytes16 x ++ bytes16 y ++ bytes16 color ++ scale :: BitVec.ofNat 8 text.length :: (text ++ rest)) =
      .ok (.drawString x y color scale text, rest) := by
  simp [bytes16, decodeString, textLength_toNat ht]

theorem decodeString_ok {bs rest : List Byte} {i : Instr} (h : decodeString bs = .ok (i, rest)) :
    ∃ x y color scale text, i = .drawString x y color scale text ∧ text.length ≤ 255 ∧
      bs = bytes16 x ++ bytes16 y ++ bytes16 color ++ scale :: BitVec.ofNat 8 text.length :: (text ++ rest) := by
  unfold decodeString at h
  split at h
  · split at h
    · rename_i n8 tail hn
      have hlen : (tail.take n8.toNat).length = n8.toNat := List.length_take_of_le hn
      have hn8 := n8.isLt
      obtain ⟨rfl, rfl⟩ := Prod.mk.inj (Except.ok.inj h)
      exact ⟨_, _, _, _, _, rfl, by omega, by simp [hlen]⟩
    · cases h
  · cases h

theorem decodeLine_bytes16 (xs ys xe ye : BitVec 16) (color : Pixel) (rest : List Byte) :
    decodeLine (bytes16 xs ++ bytes16 ys ++ bytes16 xe ++ bytes16 ye ++ bytes16 color ++ rest) =
      .ok (.drawLine xs ys xe ye color, rest) := by
  simp [bytes16, decodeLine]

theorem decodeLine_ok {bs rest : List Byte} {i : Instr} (h : decodeLine bs = .ok (i, rest)) :
    ∃ xs ys xe ye color, i = .drawLine xs ys xe ye color ∧
      bs = bytes16 xs ++ bytes16 ys ++ bytes16 xe ++ bytes16 ye ++ bytes16 color ++ rest := by
  unfold decodeLine at h
  split at h
  · obtain ⟨rfl, rfl⟩ := Prod.mk.inj (Except.ok.inj h)
    exact ⟨_, _, _, _, _, rfl, by simp⟩
  · cases h

/-! ## The round trips -/

/-- Settles O1: byte 0 selects the format's operand decoder, which gives the operands back. -/
theorem decodeOfEncodeIsTheInstruction : Obligations.DecodeOfEncodeIsTheInstruction := by
  intro c i rest hw hn
  cases i with
  | reset | configure | beginPixelWrite | init => rfl
  | sendCommand code => exact decodeByte_cons _ _ _
  | sendData byte => exact decodeByte_cons _ _ _
  | setDrawWindow x y w h => exact decodeFour_bytes16 _ _ _ _ _ _
  | writePixel p => exact decodePixel_bytes16 _ _ _
  | pack ch pct => exact decodePack_chan8Of _ _ _
  | drawCharacter x y code color scale => exact decodeCharacter_bytes16 _ _ _ _ _ _
  | drawString x y color scale text => exact decodeString_bytes16 _ _ _ _ (by simpa [Instr.wellFormed] using hw) _
  | drawLine xs ys xe ye color => exact decodeLine_bytes16 _ _ _ _ _ _
  | refresh it ih ot oh => exact decodeFour_bytes16 _ _ _ _ _ _
  | cmdSwreset | cmdColmod | cmdMadctl | cmdCaset | cmdRaset | cmdRamwr | cmdDispon => cases hn

/-- Settles O2: byte 0 selects the operand decoder, and each of these accepts only the bytes its encoder writes. -/
theorem encodeOfDecodeIsTheBytes : Obligations.EncodeOfDecodeIsTheBytes := by
  intro c bs i rest h
  cases bs with
  | nil => cases h
  | cons b0 bs =>
    have byte0 : ∀ {n}, b0.toNat = n → b0 = BitVec.ofNat 8 n := fun hn => by rw [← hn]; simp
    simp only [decode] at h
    split at h
    · next hb => cases h; exact ⟨rfl, rfl, by rw [byte0 hb]; rfl⟩
    · next hb => cases h; exact ⟨rfl, rfl, by rw [byte0 hb]; rfl⟩
    · next hb => obtain ⟨_, rfl, rfl⟩ := decodeByte_ok h; exact ⟨rfl, rfl, by rw [byte0 hb]; rfl⟩
    · next hb => obtain ⟨_, rfl, rfl⟩ := decodeByte_ok h; exact ⟨rfl, rfl, by rw [byte0 hb]; rfl⟩
    · next hb => obtain ⟨_, _, _, _, rfl, rfl⟩ := decodeFour_ok h; exact ⟨rfl, rfl, by rw [byte0 hb]; rfl⟩
    · next hb => cases h; exact ⟨rfl, rfl, by rw [byte0 hb]; rfl⟩
    · next hb => obtain ⟨_, rfl, rfl⟩ := decodePixel_ok h; exact ⟨rfl, rfl, by rw [byte0 hb]; rfl⟩
    · next hb => obtain ⟨_, _, rfl, rfl⟩ := decodePack_ok h; exact ⟨rfl, rfl, by rw [byte0 hb]; rfl⟩
    · next hb => obtain ⟨_, _, _, _, _, rfl, rfl⟩ := decodeCharacter_ok h; exact ⟨rfl, rfl, by rw [byte0 hb]; rfl⟩
    · next hb =>
      obtain ⟨_, _, _, _, _, rfl, ht, rfl⟩ := decodeString_ok h
      exact ⟨by simpa [Instr.wellFormed] using ht, rfl, by rw [byte0 hb]; rfl⟩
    · next hb => obtain ⟨_, _, _, _, _, rfl, rfl⟩ := decodeLine_ok h; exact ⟨rfl, rfl, by rw [byte0 hb]; rfl⟩
    · next hb => cases h; exact ⟨rfl, rfl, by rw [byte0 hb]; rfl⟩
    · next hb => obtain ⟨_, _, _, _, rfl, rfl⟩ := decodeFour_ok h; exact ⟨rfl, rfl, by rw [byte0 hb]; rfl⟩
    · cases h

/-! ## The PANEL's decoder (30_encoding.md R82) -/

/-- The wire commands are the terms `WireCmd.instr` gives. -/
theorem Instr.wire_eq_some {i : Instr} {k : WireCmd} : i.wire = some k ↔ i = k.instr := by
  cases i <;> cases k <;> simp [Instr.wire, WireCmd.instr]

theorem encode_instr (c : Cfg) (k : WireCmd) : encode c k.instr = [c.code k] := by cases k <;> rfl

/-- Under distinct codes the PANEL's decoder gives a wire command for its code and for no other byte. -/
theorem wireCmd_eq_some_iff {c : Cfg} (wf : c.WellFormed) {b : Byte} {k : WireCmd} :
    c.wireCmd b = some k ↔ b = c.code k :=
  ⟨wireCmd_eq_some, fun h => h ▸ wireCmd_code wf k⟩

/-- Settles O3: the decoder looks the byte up among the seven codes, which are distinct. -/
theorem wireCommandCodesAreUnambiguous : Obligations.WireCommandCodesAreUnambiguous := by
  intro c wf b i
  constructor
  · intro h
    obtain ⟨k, hk, rfl⟩ := Option.map_eq_some_iff.mp h
    exact ⟨by simp [Instr.wire_eq_some.mpr rfl], by rw [encode_instr, wireCmd_eq_some hk]⟩
  · rintro ⟨hn, he⟩
    obtain ⟨k, hk⟩ := Option.ne_none_iff_exists'.mp hn
    obtain rfl := Instr.wire_eq_some.mp hk
    have hb : b = c.code k := by simpa [encode_instr] using he.symm
    rw [decodeWire, (wireCmd_eq_some_iff wf).mpr hb, Option.map_some]

/-- Settles O4: the decoder, run on each word. -/
theorem writtenOutWordsDecode : Obligations.WrittenOutWordsDecode := by
  unfold Obligations.WrittenOutWordsDecode
  decide

/-! ## SEQ's fetch -/

/-- Between operations, bytes at PC that decode to `i` make the step `exec i`, after HOST's idle action
(41_panel_protocol.md R117). -/
theorem step_of_decode_ok {s : State} {i : Instr} {rest : List Byte} (hi : Idle s) (hh : HostIdle s)
    (hd : decode (s.prog.drop s.pc) = .ok (i, rest)) : step s = exec i { s with host := s.host.tail } := by
  have hf : fetch { s with host := s.host.tail } = .ok (i, rest) := hd
  simp only [step_idle hi hh, fetchAndRun, hf]

/-- Settles O8. -/
theorem stepRunsTheDecodedInstruction : Obligations.StepRunsTheDecodedInstruction :=
  fun _ _ _ hi hh hd => step_of_decode_ok hi hh hd

@[simp] theorem fetchStop_illegalChannel (chan8 : Byte) (s : State) :
    fetchStop (.illegalChannel chan8) s = .next (raiseHalt .illegalOp s) := rfl

theorem decode_illegalChannel {chan8 : Byte} (h : 3 ≤ chan8.toNat) (pct8 : Byte) (rest : List Byte) :
    decode (0x08 :: chan8 :: pct8 :: rest) = .error (.illegalChannel chan8) := by
  refine (decode_pack _).trans ?_
  rw [decodePack, channelOf_none h]

/-- Settles O6: the operand decoder refuses the channel, and the fetch raises `Halt(IllegalOp)`. -/
theorem illegalPackChannelHalts : Obligations.IllegalPackChannelHalts := by
  intro s chan8 pct8 rest hi hh hp hc
  have hd : decode (s.prog.drop s.pc) = .error (.illegalChannel chan8) := by rw [hp, decode_illegalChannel hc]
  rw [step_of_decode_error hi hh hd, fetchStop_illegalChannel, raiseHalt]

/-- Bytes that stop inside a descriptor leave SEQ without a step, and PC is not at PROG's end (30_encoding.md R79). -/
theorem step_truncated {s : State} (hi : Idle s) (hh : HostIdle s) (hd : decode (s.prog.drop s.pc) = .error .truncated)
    (hne : s.prog.drop s.pc ≠ []) : step s = .fault .awaitingBytes ∧ ¬ IsFinal s := by
  have hpc : s.pc ≠ s.prog.length := fun e => hne (by rw [e, List.drop_length])
  refine ⟨?_, fun hf => hpc hf.2.1⟩
  rw [step_of_decode_error hi hh hd]
  exact if_neg hpc

theorem encode_ne_nil (c : Cfg) (i : Instr) : encode c i ≠ [] := by cases i <;> exact List.cons_ne_nil _ _

/-- Settles O7: a proper beginning of a descriptor decodes to `truncated`, and so do PACK's first two bytes whatever the
channel; an illegal byte 0 is refused before anything else is looked for. -/
theorem truncatedDescriptorHasNoStep : Obligations.TruncatedDescriptorHasNoStep := by
  refine ⟨fun s i k hi hh hw hn h0 hk hp => ?_, fun s chan8 hi hh hp => ?_, fun s b0 hi hh hp hb => ?_⟩
  · refine step_truncated hi hh (by rw [hp, decode_take hw hn h0 hk]) ?_
    rw [hp, ne_eq, List.take_eq_nil_iff, not_or]
    exact ⟨by omega, encode_ne_nil _ _⟩
  · exact step_truncated hi hh (by rw [hp]; rfl) (by simp [hp])
  · have hd : decode (s.prog.drop s.pc) = .error (.illegalOpcode b0) := by rw [hp, decode_illegal hb]
    exact ⟨_, by rw [step_of_decode_error hi hh hd, fetchStop_illegalOpcode], rfl, rfl⟩

end Sys2Proof.Machine
end

section
/-! Proofs of the families 40_transfer.md, 60_exceptions.md and 70_reset_and_hazards.md: the Transfer Primitive, power-on
reset, a halted machine, and the halts of the common checks. -/

namespace Sys2Proof.Machine

/-! ## Power-on reset (10_state.md R28, 70_reset_and_hazards.md R200) -/

/-- Settles O10. -/
theorem resetHoldsTheSpecValues : Obligations.ResetHoldsTheSpecValues :=
  ⟨rfl, rfl, rfl, rfl, rfl, rfl, rfl, rfl, rfl, rfl, rfl, rfl, rfl, rfl⟩

/-- Nothing may be said of a poisoned panel's cells, nor of what it shows (20_memory.md R60). -/
theorem gramCell_of_bad {p : Panel} (h : p.bad = true) (c : Cfg) (row col : Nat) : p.gramCell c row col = none := by
  simp [gramCell_eq, h]

theorem shown_of_bad {p : Panel} (h : p.bad = true) (c : Cfg) (row col : Nat) : p.shown c row col = none := by
  simp [Panel.shown, gramCell_of_bad h]

/-- Settles O11: HOST's two actions, one step each. -/
theorem powerOnResetFromAnyState : Obligations.PowerOnResetFromAnyState := by
  intro s rest hh
  have h₁ : step s = .next (assertReset { s with host := .releaseReset :: rest }) := by simp only [step, hostAct, hh]
  exact ⟨_, { powerOnReset { assertReset { s with host := .releaseReset :: rest } with host := rest } with rstN := true },
    h₁, rfl, rfl, rfl, rfl, rfl, rfl, rfl, rfl, rfl, rfl, rfl, rfl, rfl, rfl, rfl, rfl, rfl, rfl, rfl, rfl, rfl, rfl,
    fun _ row col => ⟨gramCell_of_bad rfl _ _ _, shown_of_bad rfl _ _ _⟩⟩

/-! ## A performed transfer (40_transfer.md R103, R109) -/

/-- Settles O13: the issue, then BUS's step. -/
theorem performedTransferNetEffect : Obligations.PerformedTransferNetEffect := by
  intro s bytes _ hne hh hb hi hn
  rw [actMicro_issue rfl hne hh,
    busStep_perform (s := { s with xferBusy := true, inflight := some ⟨s.dcx, bytes⟩ }) (t := ⟨s.dcx, bytes⟩) rfl hn]
  apply State.ext <;> simp [panelEvent, hb, hi]

/-- A wire command's meaning is what the PANEL does on its byte (20_memory.md R53). -/
theorem exec_instr (k : WireCmd) (s : State) : exec k.instr s = .next { s with panel := panelCmd s.cfg k s.panel } := by
  cases k <;> rfl

/-- The instruction the PANEL decodes a command byte to does what the byte does. -/
theorem exec_of_decodeWire {s : State} {b : Byte} {i : Instr} (h : decodeWire s.cfg b = some i) :
    exec i s = .next { s with panel := panelCommand s.cfg b s.panel } := by
  obtain ⟨k, hk, rfl⟩ := Option.map_eq_some_iff.mp h
  rw [exec_instr, panelCommand, hk]

/-- BUS performs the transfer in flight, and SEQ goes on (40_transfer.md R102, R103). -/
theorem resume_perform {s : State} {t : InFlight} (hh : s.halted = false) (hi : s.inflight = some t)
    (hn : s.busNext = .perform) : resume s = runSeq s.todo (busPerform t (busChosen s)) := by
  simp [resume, busStep_perform hi hn, hh]

/-- Settles O9: BUS's step hands the PANEL the byte, which is exec of the command. -/
theorem stepDeliversTheWireCommand : Obligations.StepDeliversTheWireCommand := by
  intro s b i hr hh hb hi hhost hn _ hd
  refine ⟨_, exec_of_decodeWire hd, ?_⟩
  rw [step_busy hr hh hb hhost, resume_perform (s := { s with host := s.host.tail }) hh hi hn]
  rfl

/-! ## A transport fault (40_transfer.md R105) -/

/-- BUS faults the transfer in flight after the bytes `sent`. -/
theorem busStep_fault_prefix {s : State} {t : InFlight} {sent : List Byte} (hi : s.inflight = some t)
    (hp : sent <+: t.bytes) (hn : s.busNext = .fault sent.length) :
    busStep s = raiseHalt .transportFault (emit (.xferFault t.dc sent) (busChosen s)) := by
  rw [busStep_fault hi hn, busFault, ← List.prefix_iff_eq_take.mp hp]

/-- A transfer that BUS faults where SEQ issues it. -/
theorem actMicro_fault {s : State} {bytes sent : List Byte} (hne : bytes ≠ []) (hh : s.halted = false)
    (hp : sent <+: bytes) (hn : s.busNext = .fault sent.length) :
    actMicro (.transfer bytes) s = raiseHalt .transportFault (emit (.xferFault s.dcx sent)
      (busChosen { s with xferBusy := true, inflight := some ⟨s.dcx, bytes⟩ })) := by
  rw [actMicro_issue rfl hne hh]
  exact busStep_fault_prefix (t := ⟨s.dcx, bytes⟩) rfl hp hn

/-- An action that halts ends the program. -/
theorem Stops.act {m : Micro} {s t : State} (h : actMicro m s = t) (hh : t.halted = true) : Stops [m] s t := fun ks => by
  simp [runSeq, h, hh]

/-- `send_command` faulted at its byte: the select line is low, and stays low (41_panel_protocol.md R112). -/
theorem stops_command_fault {code : Byte} {sent : List Byte} {s : State} (q : Quiet s) (hp : sent <+: [code])
    (hn : s.busNext = .fault sent.length) :
    Stops (sendCommandBody code) s (raiseHalt .transportFault (emit (.xferFault false sent)
      (busChosen { s with dcx := false, xferBusy := true, inflight := some ⟨false, [code]⟩ }))) := by
  have lower : Runs [.setDcx false] s { s with dcx := false } := Runs.silent rfl q.halted q.busy
  have fault := actMicro_fault (s := { s with dcx := false }) (bytes := [code]) (by simp) q.halted hp hn
  exact lower.stops ((Stops.act fault rfl).append [.setDcx true])

/-- `set_draw_window` of a window that fits, faulted at its first byte (41_panel_protocol.md R114). -/
theorem stops_window_fault {x y w h : Nat} {sent : List Byte} {s : State} (q : Quiet s) (ok : WindowOk s.cfg x y w h)
    (hp : sent <+: [s.cfg.cmdCaset]) (hn : s.busNext = .fault sent.length) :
    Stops (setDrawWindowBody s.cfg x y w h) s (raiseHalt .transportFault (emit (.xferFault false sent)
      (busChosen { s with
        winValid := false, dcx := false, xferBusy := true, inflight := some ⟨false, [s.cfg.cmdCaset]⟩ }))) := by
  have invalid : Runs [.require (.windowFits x y w h), .invalidateWindow] s { s with winValid := false } :=
    Runs.cons (Runs.test q (by simpa [Check.passes] using ok)) (Runs.silent rfl q.halted q.busy)
  have fault := stops_command_fault (s := { s with winValid := false }) ⟨q.halted, q.busy⟩ hp hn
  have whole := invalid.stops (fault.append (
    sendDataBody 0x00 ++ sendDataBody (coordByte (phys s.cfg x)) ++ sendDataBody 0x00 ++
      sendDataBody (coordByte (phys s.cfg (x + w - 1))) ++ axisBody s.cfg s.cfg.cmdRaset y h ++ [.loadWindow x y w h]))
  exact whole.of_eq (by simp [setDrawWindowBody, axisBody]) rfl

/-- Settles O14: BUS's fault on a transfer it stalled before, on one just issued, and so inside two operations. -/
theorem transportFaultHaltsTheMachine : Obligations.TransportFaultHaltsTheMachine := by
  refine ⟨fun s t sent hr hh hb hi hhost hp hn => ?_, fun s bytes sent hne hh hp hn => ?_,
    fun s code sent idle hps hs hp hn => ?_, fun s x y w h sent idle _ hps hs ok hp hn => ?_⟩
  · rw [step_busy hr hh hb hhost, resume, busStep_fault_prefix (s := { s with host := s.host.tail }) hi hp hn]
    rfl
  · rw [actMicro_fault hne hh hp hn]
    rfl
  · have stops := stops_command_fault (Quiet.of_idle idle) hp hn
    have done := perform_halts (op := .sendCommand) (len := 2) idle
      (allowed_closed (by simpa [opLegal] using hps) hs) stops
    refine Eq.trans done (congrArg _ ?_)
    rw [← todo_of_idle idle]
    rfl
  · have stops := stops_window_fault (Quiet.of_idle idle) ok hp hn
    have done := perform_halts (op := .setDrawWindow) (len := 9) idle
      (allowed_closed (by simpa [opLegal] using hps) hs) stops
    refine Eq.trans done (congrArg _ ?_)
    rw [← todo_of_idle idle]
    rfl

/-! ## A stalled BUS (40_transfer.md R102, R106) -/

/-- With a transfer in flight and HOST idle, a stall changes nothing but BUS's list. -/
theorem step_stall {s : State} {t : InFlight} (hr : s.rstN = true) (hh : s.halted = false) (hb : s.xferBusy = true)
    (hi : s.inflight = some t) (hhost : s.host = []) (hn : s.busNext = .stall) :
    step s = .next { s with bus := s.bus.tail } := by
  have e : ({ s with host := s.host.tail } : State) = s := by rw [hhost, List.tail_nil, ← hhost]
  rw [step_busy hr hh hb (.inl hhost), e, resume, busStep_stall hi hn]
  simp [hh, hb, busChosen]

/-- Settles O15, by induction on the number of stalls. -/
theorem stalledBusKeepsSeqWaiting : Obligations.StalledBusKeepsSeqWaiting := by
  refine ⟨fun s t n rest hr hh hb hi hhost hbus => ?_, fun s t n hr hh hb hi hhost hbus hrest => ?_⟩
  · induction n generalizing s with
    | zero =>
      have : s.bus = rest := by simpa using hbus
      rw [← this]
      rfl
    | succ n ih =>
      have hs := step_stall hr hh hb hi hhost (by simp [State.busNext, hbus, List.replicate_succ])
      exact (core_run_succ n hs).trans (ih _ hr hh hb hi hhost (by simp [hbus, List.replicate_succ]))
  · have hs := step_stall hr hh hb hi hhost (by simp [State.busNext, hbus, hrest])
    have e : ({ s with bus := s.bus.tail } : State) = s := by rw [hbus, List.tail_nil, ← hbus]
    rw [e] at hs
    induction n with
    | zero => rfl
    | succ n ih => exact (core_run_succ n hs).trans ih

/-! ## Halts (60_exceptions.md R178, 41_panel_protocol.md R120) -/

/-- Settles O16: SEQ and BUS have no step once halted, so a next state is HOST's. -/
theorem haltedMachineHasNoStep : Obligations.HaltedMachineHasNoStep := by
  intro s hh
  refine ⟨fun t h => ?_, fun i op ho t h => ?_, fun hf => by rw [hf.1] at hh; cases hh⟩
  · rcases step_cases h with ⟨host, e, rfl⟩ | ⟨host, e, rfl⟩ | ⟨-, -, hl, -⟩
    · exact ⟨.inl (by simp [e]), .inr ⟨rfl, rfl, rfl, rfl, rfl⟩⟩
    · refine ⟨.inr (by simp [e]), ?_⟩
      unfold releaseReset
      split
      · exact .inl (by simp [e])
      · exact .inr ⟨rfl, rfl, rfl, rfl, rfl⟩
    · rw [hl] at hh; cases hh
  · rw [(exec_next ho h).1] at hh; cases hh

/-- The operations the streaming discipline lets through (41_panel_protocol.md R120). -/
theorem streamExempt_eq_false_iff {op : Op} : streamExempt op = false ↔ op ∉ [Op.writePixel, .pack, .reset, .init] := by
  cases op <;> simp [streamExempt]

/-- A legal operation the streaming discipline stops is `Halt(StreamCount)` and nothing else. -/
theorem exec_streaming {s : State} {i : Instr} {op : Op} (hi : Idle s) (ho : opOf i = some op)
    (hl : opLegal op s.pstate = true) (hs : s.streaming = true) (he : streamExempt op = false) :
    exec i s = .next (raiseHalt .streamCount s) := by
  obtain ⟨body, hbody⟩ := seqProgram_eq ho s.cfg
  rw [exec_eq_perform ho, hbody, perform_streaming hi hl hs he, raiseHalt_todo_of_idle hi]

/-- An allowed operation whose body stops where it began is a halt and nothing else. -/
theorem exec_halts {s : State} {i : Instr} {op : Op} {body : List Micro} {k : Cause} (hi : Idle s) (ho : opOf i = some op)
    (hbody : seqProgram s.cfg i = operation op body (oplen i)) (ha : Allowed op s) (h : Stops body s (raiseHalt k s)) :
    exec i s = .next (raiseHalt k s) := by
  rw [exec_eq_perform ho, hbody, perform_halts hi ha h, raiseHalt_todo_of_idle hi]

/-- Settles O18: the second common check, and WRITE_PIXEL's own. -/
theorem streamingDisciplineHalts : Obligations.StreamingDisciplineHalts := by
  refine ⟨fun s i op hi ho hl hs hop => exec_streaming hi ho hl hs (streamExempt_eq_false_iff.mpr hop),
    fun s p hi hp hs => ?_⟩
  have check : Stops [.require .streaming] s (raiseHalt .streamCount s) := Stops.check (by simpa [Check.passes] using hs)
  exact exec_halts (op := .writePixel) (body := writePixelBody p) hi rfl rfl
    (allowed_closed (by simpa [opLegal] using hp) hs) (check.append [.transfer (pixelBytes p), .countPixel])

end Sys2Proof.Machine
end

section
/-! Proofs of the families 20_memory.md section 6 and 41_panel_protocol.md: what the PANEL does with single bytes, and the
operations of the protocol. -/

namespace Sys2Proof.Machine

/-! ## The PANEL's commands (20_memory.md R51, R53) -/

/-- Settles O47: the panel is the cleared one. -/
theorem softwareResetCommandClearsThePanel : Obligations.SoftwareResetCommandClearsThePanel := by
  intro s
  refine ⟨_, rfl, rfl, rfl, rfl, rfl, rfl, rfl, rfl, rfl, rfl, rfl, rfl, rfl, rfl, fun _ row col => ?_⟩
  rw [gramCell_eq]
  split <;> rfl

/-- The short-stream test as 20_memory.md R53 words it. -/
theorem streamOpen_eq (c : Cfg) (p : Panel) : p.streamOpen c =
    decide (p.cmd = some c.cmdRamwr ∧ (p.half ≠ none ∨ (p.cursor ≠ .finished ∧ p.cursor ≠ .unset))) := by
  unfold Panel.streamOpen
  cases p.cursor <;> cases p.half <;> simp

/-- Settles O48: four of the commands do what every command byte does, and CMD_DISPON turns the display on besides. -/
theorem panelCommandsTakeEffect : Obligations.PanelCommandsTakeEffect := by
  intro s i code lit _ h
  rw [← streamOpen_eq]
  simp only [List.mem_cons, Prod.mk.injEq, List.not_mem_nil, or_false] at h
  rcases h with ⟨rfl, rfl, rfl⟩ | ⟨rfl, rfl, rfl⟩ | ⟨rfl, rfl, rfl⟩ | ⟨rfl, rfl, rfl⟩ | ⟨rfl, rfl, rfl⟩ <;> rfl

/-- CMD_RAMWR with the window set. -/
theorem panelRamwr_set {c : Cfg} {p : Panel} {xs xe ys ye : Nat} (h1 : p.xs = some xs) (h2 : p.xe = some xe)
    (h3 : p.ys = some ys) (h4 : p.ye = some ye) :
    panelRamwr c p = { p.enter c c.cmdRamwr with cursor := .cell xs ys } := by
  simp only [panelRamwr, h1, h2, h3, h4]

/-- CMD_RAMWR with a window register unset. -/
theorem panelRamwr_unset {c : Cfg} {p : Panel} (h : p.xs = none ∨ p.xe = none ∨ p.ys = none ∨ p.ye = none) :
    panelRamwr c p = (p.enter c c.cmdRamwr).poison := by
  unfold panelRamwr
  simp only
  split
  · next h1 h2 h3 h4 => simp [h1, h2, h3, h4] at h
  · rfl

/-- Settles O49. -/
theorem memoryWriteCommandPutsTheCursor : Obligations.MemoryWriteCommandPutsTheCursor := by
  intro s _
  refine ⟨_, rfl, fun xs xe ys ye h1 h2 h3 h4 => ?_, fun h => ?_⟩
  · rw [panelRamwr_set h1 h2 h3 h4]; rfl
  · rw [panelRamwr_unset h]; rfl

/-! ## Data bytes (20_memory.md R54 to R58) -/

/-- A data byte after one of the seven commands. -/
theorem panelData_of_cmd {c : Cfg} (wf : c.WellFormed) {p : Panel} {k : WireCmd} (h : p.cmd = some (c.code k)) (b : Byte) :
    panelData c b p = match k with
      | .caset => panelDataCaset c (p.takeArg b)
      | .raset => panelDataRaset c (p.takeArg b)
      | .ramwr => panelDataRamwr c b (p.takeArg b)
      | .colmod => panelDataColmod (p.takeArg b)
      | .madctl => panelDataMadctl (p.takeArg b)
      | .swreset => (p.takeArg b).poison
      | .dispon => (p.takeArg b).poison := by
  have hk : p.cmd.bind c.wireCmd = some k := by rw [h, Option.bind_some, wireCmd_code wf]
  unfold panelData
  cases k <;> simp only [hk]

/-- A data byte that no command takes poisons. -/
theorem panelData_bad {c : Cfg} {p : Panel} (h : p.cmd ∉ [some c.cmdCaset, some c.cmdRaset, some c.cmdColmod,
    some c.cmdMadctl, some c.cmdRamwr]) (b : Byte) : (panelData c b p).bad = true := by
  simp only [List.mem_cons, List.not_mem_nil, or_false, not_or] at h
  obtain ⟨h1, h2, h3, h4, h5⟩ := h
  have code : ∀ k, p.cmd.bind c.wireCmd = some k → p.cmd = some (c.code k) := fun k hk => by
    obtain ⟨a, ha, hw⟩ := Option.bind_eq_some_iff.mp hk
    rw [ha, wireCmd_eq_some hw]
  unfold panelData
  simp only
  split
  · next hk => exact absurd (code _ hk) h1
  · next hk => exact absurd (code _ hk) h2
  · next hk => exact absurd (code _ hk) h5
  · next hk => exact absurd (code _ hk) h3
  · next hk => exact absurd (code _ hk) h4
  · rfl
  · rfl
  · rfl

/-- The data of CMD_CASET: fewer than four bytes are kept, the fourth sets the columns, a fifth poisons. -/
theorem panelDataCaset_few {c : Cfg} {p : Panel} (h : p.args.length < 4) : panelDataCaset c p = p := by
  unfold panelDataCaset
  split
  · next e => simp [e] at h
  · simp [show ¬ 4 < p.args.length by omega]

theorem panelDataCaset_many {c : Cfg} {p : Panel} (h : 4 < p.args.length) : (panelDataCaset c p).bad = true := by
  unfold panelDataCaset
  split
  · next e => simp [e] at h
  · simp [h]

theorem panelDataRaset_few {c : Cfg} {p : Panel} (h : p.args.length < 4) : panelDataRaset c p = p := by
  unfold panelDataRaset
  split
  · next e => simp [e] at h
  · simp [show ¬ 4 < p.args.length by omega]

theorem panelDataRaset_many {c : Cfg} {p : Panel} (h : 4 < p.args.length) : (panelDataRaset c p).bad = true := by
  unfold panelDataRaset
  split
  · next e => simp [e] at h
  · simp [h]

theorem panelDataColmod_again {p : Panel} (h : 1 < p.args.length) : (panelDataColmod p).bad = true := by
  unfold panelDataColmod
  split
  · next e => simp [e] at h
  · rfl

theorem panelDataMadctl_again {p : Panel} (h : 1 < p.args.length) : (panelDataMadctl p).bad = true := by
  unfold panelDataMadctl
  split
  · next e => simp [e] at h
  · rfl

/-- A pixel written to a native cell of a good panel: that cell takes it and no other changes (20_memory.md R56). -/
theorem gramCell_gramWrite {c : Cfg} {p q : Panel} {cy cx : Nat} {v : Pixel} (hp : p.bad = false) (hq : q.bad = false)
    (hg : q.gram = gramWrite c p.gram cy cx v) (hx : cx < c.nativeCols) (hy : cy < c.nativeRows) (row col : Nat) :
    q.gramCell c row col = if row = cy ∧ col = cx then some v else p.gramCell c row col := by
  rw [gramCell_eq, gramCell_eq, hp, hq, hg]
  by_cases here : row = cy ∧ col = cx
  · obtain ⟨rfl, rfl⟩ := here
    simp [hx, hy, cellAt_write_self]
  · rw [if_neg here]
    by_cases native : row < c.nativeRows ∧ col < c.nativeCols
    · rw [cellAt_write_other _ _ hx native.2 (by simpa using here)]
    · have out : (!(decide (row < c.nativeRows) && decide (col < c.nativeCols))) = true := by
        simpa [Decidable.imp_iff_not_or] using native
      simp only [out, Bool.or_true, if_true]

/-- A pixel's second byte: what `panelPixel` does is what the rules say of a complete pixel (20_memory.md R56 to R58). -/
theorem pixelTaken_panelPixel (c : Cfg) (v : Pixel) (p : Panel) (args : List Byte) :
    PixelTaken c v p (panelPixel c v { p with args := args, half := none }) := by
  refine ⟨fun h => ?_, fun cx cy xs xe ye hf ho hc hxs hxe hye hx hy => ?_⟩
  · unfold panelPixel
    split
    · next mode =>
      have hcur : p.cursor = .unset ∨ p.cursor = .finished := by
        rcases h with h | h | h
        · exact absurd mode.1 h
        · exact absurd mode.2 h
        · exact h
      rcases hcur with hcur | hcur <;> simp [hcur, Panel.poison]
    · rfl
  · have e : panelPixel c v { p with args := args, half := none } = { p with
        args := args, half := none, gram := gramWrite c p.gram cy cx v,
        cursor := if cx < xe then .cell (cx + 1) cy else if cy < ye then .cell xs (cy + 1) else .finished } := by
      simp only [panelPixel, hf, ho, hc, and_self, if_true, Panel.advance, hxs, hxe, hye]
    rw [e]
    refine ⟨rfl, fun hb row col => ?_⟩
    refine gramCell_gramWrite hb ?_ rfl hx hy row col
    exact hb

/-! ## Operations that complete -/

/-- An allowed operation whose body runs to `t` advances PC from there and does nothing else (41_panel_protocol.md R117). -/
theorem exec_completes {s t : State} {i : Instr} {op : Op} {body : List Micro} (hi : Idle s) (ho : opOf i = some op)
    (hbody : seqProgram s.cfg i = operation op body (oplen i)) (ha : Allowed op s) (r : Runs body s t) (q : Quiet t)
    (ht : t.todo = s.todo) : exec i s = .next { t with pc := t.pc + oplen i } := by
  have todo : t.todo = [] := ht.trans hi.2.2.2.2
  rw [exec_eq_perform ho, hbody, perform_completes hi ha r q, ← todo]

/-- The net effect of one command, data or pixel transfer (40_transfer.md R109). -/
theorem emitAll_cmd (b : Byte) (s : State) : emitAll (cmdTrace b) s = { s with
    wire := s.wire ++ [.xfer false [b]], panel := panelCommand s.cfg b s.panel, bus := s.bus.tail } := by
  rw [← List.drop_one]; rfl

theorem emitAll_dat (b : Byte) (s : State) : emitAll (datTrace b) s = { s with
    wire := s.wire ++ [.xfer true [b]], panel := panelData s.cfg b s.panel, bus := s.bus.tail } := by
  rw [← List.drop_one]; rfl

theorem emitAll_pix (p : Pixel) (s : State) : emitAll (pixTrace p) s = { s with
    wire := s.wire ++ [.xfer true [lo8 p, hi8 p]], panel := panelData s.cfg (hi8 p) (panelData s.cfg (lo8 p) s.panel),
    bus := s.bus.tail } := by
  rw [← List.drop_one]; rfl

/-- Settles O19. -/
theorem resetCompletes : Obligations.ResetCompletes := by
  intro s hi hp _
  have l := Live.of_idle hi hp
  rw [exec_completes (op := .reset) (body := resetBody s.cfg) hi rfl rfl ⟨rfl, fun _ => rfl⟩ (runs_reset s.cfg l)
    ⟨l.halted, l.busy⟩ rfl]
  rfl

/-- Settles O20. -/
theorem configureCompletes : Obligations.ConfigureCompletes := by
  intro s hi hp wf hps hs
  have l := Live.of_idle hi hp
  have r := runs_configure l rfl wf
  generalize cfgTrace s.cfg = tr at r ⊢
  rw [exec_completes (op := .configure) (body := configureBody s.cfg) hi rfl rfl
    (allowed_closed (by simp [opLegal, hps]) hs) r ⟨l.halted, l.busy⟩ rfl]
  rfl

/-- SEND_COMMAND (41_panel_protocol.md R112). -/
theorem exec_sendCommand {s : State} {code : Byte} (hi : Idle s) (hp : Performs s) (hps : s.pstate ≠ .uninitialized)
    (hs : s.streaming = false) : exec (.sendCommand code) s = .next { s with
      wire := s.wire ++ [.xfer false [code]], panel := panelCommand s.cfg code s.panel, bus := s.bus.tail,
      dcx := true, pc := s.pc + 2 } := by
  have l := Live.of_idle hi hp
  have h := exec_completes (i := .sendCommand code) hi rfl rfl (allowed_closed (by simpa [opLegal] using hps) hs)
    (sends_command code s l) ⟨l.halted, l.busy⟩ rfl
  rwa [emitAll_cmd] at h

/-- Settles O21: the transfer's net effect; and exec of a wire command is what the PANEL does on its byte. -/
theorem sendCommandCompletes : Obligations.SendCommandCompletes :=
  fun _ _ hi hp _ hps hs => ⟨exec_sendCommand hi hp hps hs, fun _ => exec_of_decodeWire⟩

theorem panelCommand_unknown {c : Cfg} {code : Byte} (h : code ∉ c.commands) (p : Panel) :
    panelCommand c code p = (p.enter c code).poison := by
  have none : c.wireCmd code = none := by
    cases hk : c.wireCmd code with
    | none => rfl
    | some k =>
      refine absurd ?_ h
      rw [wireCmd_eq_some hk]
      cases k <;> simp [Cfg.code, Cfg.commands]
  simp only [panelCommand, none]

/-- Settles O50: no command has the code, so the PANEL is poisoned. -/
theorem unknownCommandPoisonsThePanel : Obligations.UnknownCommandPoisonsThePanel := by
  intro s code hi hp _ hps hs hc
  have bad : (panelCommand s.cfg code s.panel).bad = true := by rw [panelCommand_unknown hc]; rfl
  exact ⟨_, exec_sendCommand hi hp hps hs, bad, rfl, rfl, rfl, fun row col => gramCell_of_bad bad _ _ _⟩

/-- SEND_DATA (41_panel_protocol.md R113). -/
theorem exec_sendData {s : State} {byte : Byte} (hi : Idle s) (hp : Performs s) (hps : s.pstate ≠ .uninitialized)
    (hs : s.streaming = false) : exec (.sendData byte) s = .next { s with
      wire := s.wire ++ [.xfer true [byte]], panel := panelData s.cfg byte s.panel, bus := s.bus.tail,
      dcx := true, pc := s.pc + 2 } := by
  have l := Live.of_idle hi hp
  have h := exec_completes (i := .sendData byte) hi rfl rfl (allowed_closed (by simpa [opLegal] using hps) hs)
    (sends_data byte s l) ⟨l.halted, l.busy⟩ rfl
  rwa [emitAll_dat] at h

/-- Settles O22: the transfer's net effect, and the PANEL's data byte by P_CMD. -/
theorem sendDataCompletes : Obligations.SendDataCompletes := by
  intro s byte hi hp wf hps hs
  obtain ⟨kcmd, kargs, kbad⟩ := panelData_keeps s.cfg byte s.panel
  refine ⟨_, exec_sendData hi hp hps hs, rfl, kargs, kcmd, kbad, fun hc => ?_, fun hc => ?_, fun hc => ?_, fun hc => ?_,
    fun hc => ?_, fun hc => panelData_bad hc byte⟩
  · have e := panelData_of_cmd wf (k := .caset) hc byte
    refine ⟨fun h => e.trans (panelDataCaset_few (by simp [Panel.takeArg]; omega)), fun a0 a1 a2 h => e.trans ?_,
      fun h => (congrArg Panel.bad e).trans (panelDataCaset_many (by simp [Panel.takeArg]; omega))⟩
    simp [panelDataCaset, Panel.takeArg, h]
  · have e := panelData_of_cmd wf (k := .raset) hc byte
    refine ⟨fun h => e.trans (panelDataRaset_few (by simp [Panel.takeArg]; omega)), fun a0 a1 a2 h => e.trans ?_,
      fun h => (congrArg Panel.bad e).trans (panelDataRaset_many (by simp [Panel.takeArg]; omega))⟩
    simp [panelDataRaset, Panel.takeArg, h]
  · have e := panelData_of_cmd wf (k := .colmod) hc byte
    refine ⟨fun h => e.trans (by simp [panelDataColmod, Panel.takeArg, h]),
      fun h => (congrArg Panel.bad e).trans (panelDataColmod_again ?_)⟩
    simpa [Panel.takeArg] using List.length_pos_iff.mpr h
  · have e := panelData_of_cmd wf (k := .madctl) hc byte
    refine ⟨fun h => e.trans (by simp [panelDataMadctl, Panel.takeArg, h]),
      fun h => (congrArg Panel.bad e).trans (panelDataMadctl_again ?_)⟩
    simpa [Panel.takeArg] using List.length_pos_iff.mpr h
  · have e := panelData_of_cmd wf (k := .ramwr) hc byte
    refine ⟨fun h => e.trans (by simp [panelDataRamwr, Panel.takeArg, h]), fun first h => ?_⟩
    have taken := pixelTaken_panelPixel s.cfg (be16 first byte) s.panel (s.panel.args ++ [byte])
    have e' : panelData s.cfg byte s.panel =
        panelPixel s.cfg (be16 first byte) { s.panel with args := s.panel.args ++ [byte], half := none } :=
      e.trans (by simp only [panelDataRamwr, Panel.takeArg, h])
    exact e' ▸ taken

/-! ## Windows and streams -/

/-- The registers of a window that fits, as numbers (41_panel_protocol.md R114): nothing is lost in them. -/
theorem windowOf_toNat {c : Cfg} (wf : c.WellFormed) {x y w h : Nat} (ok : WindowOk c x y w h) :
    (windowOf x y w h).xs.toNat = x ∧ (windowOf x y w h).xe.toNat = x + w - 1 ∧ (windowOf x y w h).ys.toNat = y ∧
    (windowOf x y w h).ye.toNat = y + h - 1 ∧ (windowOf x y w h).w.toNat = w ∧ (windowOf x y w h).h.toNat = h ∧
    (windowOf x y w h).count.toNat = w * h := by
  have hcount := ok.count_lt wf
  have hcols := wf.1.2
  have hrows := wf.2.1.2
  obtain ⟨o1, o2, o3, o4⟩ := ok
  simp only [Cfg.usableCols, Cfg.usableRows] at o3 o4
  simp only [windowOf, BitVec.toNat_ofNat]
  refine ⟨?_, ?_, ?_, ?_, ?_, ?_, ?_⟩ <;> exact Nat.mod_eq_of_lt (by omega)

/-- SET_DRAW_WINDOW of a window that fits (41_panel_protocol.md R114). -/
theorem exec_setDrawWindow {s : State} {x y w h : BitVec 16} (hi : Idle s) (hp : Performs s)
    (hps : s.pstate ≠ .uninitialized) (hs : s.streaming = false)
    (ok : WindowOk s.cfg x.toNat y.toNat w.toNat h.toNat) :
    exec (.setDrawWindow x y w h) s = .next { emitAll (winTrace s.cfg x.toNat y.toNat w.toNat h.toNat) s with
      win := windowOf x.toNat y.toNat w.toNat h.toNat, winValid := true, dcx := true, pc := s.pc + 9 } :=
  have l := Live.of_idle hi hp
  exec_completes (i := .setDrawWindow x y w h) hi rfl rfl (allowed_closed (by simpa [opLegal] using hps) hs)
    (runs_window l rfl ok) ⟨l.halted, l.busy⟩ rfl

/-- SET_DRAW_WINDOW of any other (20_memory.md R43). -/
theorem exec_setDrawWindow_halts {s : State} {x y w h : BitVec 16} (hi : Idle s) (hps : s.pstate ≠ .uninitialized)
    (hs : s.streaming = false) (bad : ¬ WindowOk s.cfg x.toNat y.toNat w.toNat h.toNat) :
    exec (.setDrawWindow x y w h) s = .next (raiseHalt .windowInvalid s) :=
  exec_halts (i := .setDrawWindow x y w h) hi rfl rfl (allowed_closed (by simpa [opLegal] using hps) hs)
    (stops_window rfl bad)

theorem toNat_pos_of_ne_zero {n : Nat} {v : BitVec n} (h : v ≠ 0) : 0 < v.toNat :=
  Nat.pos_of_ne_zero fun e => h (BitVec.eq_of_toNat_eq (by simpa using e))

/-- Settles O23: `WindowOk` and its negation, in the words of the statement. -/
theorem setDrawWindowCompletes : Obligations.SetDrawWindowCompletes := by
  refine ⟨fun s x y w h hi hp _ hps hs hw hh hx hy => ?_, fun s x y w h hi _ hps hs bad => ?_⟩
  · exact exec_setDrawWindow hi hp hps hs ⟨toNat_pos_of_ne_zero hw, toNat_pos_of_ne_zero hh, hx, hy⟩
  · refine exec_setDrawWindow_halts hi hps hs fun ok => ?_
    obtain ⟨o1, o2, o3, o4⟩ := ok
    rcases bad with rfl | rfl | bad | bad
    · simp at o1
    · simp at o2
    · omega
    · omega

/-- Settles O24: the registers of the window as numbers, and the panel's window after the ten bytes. -/
theorem programmedWindowIsShiftedByTheMargin : Obligations.ProgrammedWindowIsShiftedByTheMargin := by
  intro s x y w h hi hp wf hps hs hb ho ok
  obtain ⟨h1, h2, h3, h4, h5, h6, h7⟩ := windowOf_toNat wf ok
  have panel := panelEvents_win wf hb ho ok
  refine ⟨_, exec_setDrawWindow hi hp hps hs ok, h1, h2, h3, h4, h5, h6, h7, ?_⟩
  simp only [emitAll_panel, panel]
  exact ⟨hb, rfl, rfl, rfl, rfl⟩

/-- BEGIN_PIXEL_WRITE with a valid window (41_panel_protocol.md R115). -/
theorem exec_beginPixelWrite {s : State} (hi : Idle s) (hp : Performs s) (hps : s.pstate ≠ .uninitialized)
    (hs : s.streaming = false) (hv : s.winValid = true) : exec .beginPixelWrite s = .next { s with
      wire := s.wire ++ [.xfer false [s.cfg.cmdRamwr]], panel := panelCommand s.cfg s.cfg.cmdRamwr s.panel,
      bus := s.bus.tail, dcx := true, pxRemaining := s.win.count, streaming := true, pc := s.pc + 1 } := by
  have l := Live.of_idle hi hp
  have h := exec_completes (i := .beginPixelWrite) hi rfl rfl (allowed_closed (by simpa [opLegal] using hps) hs)
    (runs_begin l hv) ⟨l.halted, l.busy⟩ rfl
  rwa [emitAll_cmd] at h

/-- BEGIN_PIXEL_WRITE without one. -/
theorem exec_beginPixelWrite_halts {s : State} (hi : Idle s) (hps : s.pstate ≠ .uninitialized) (hs : s.streaming = false)
    (hv : s.winValid = false) : exec .beginPixelWrite s = .next (raiseHalt .protocolOrder s) :=
  have check : Stops [.require .windowValid] s (raiseHalt .protocolOrder s) := Stops.check (by simpa [Check.passes] using hv)
  exec_halts (i := .beginPixelWrite) hi rfl rfl (allowed_closed (by simpa [opLegal] using hps) hs)
    (check.append (sendCommandBody s.cfg.cmdRamwr ++ [.openStream]))

/-- Settles O25. -/
theorem beginPixelWriteCompletes : Obligations.BeginPixelWriteCompletes :=
  ⟨fun _ hi hp _ hps hs hv => exec_beginPixelWrite hi hp hps hs hv,
    fun _ hi hps hs hv => exec_beginPixelWrite_halts hi hps hs hv⟩

/-- Between operations the select line is at the data level (10_state.md R16). -/
theorem Inv.dcx_of_idle {s : State} (v : Inv s) (hi : Idle s) : s.dcx = true := by
  have h := v.line hi.2.1
  rwa [hi.2.2.2.2] at h

/-- WRITE_PIXEL in an open stream (41_panel_protocol.md R116). -/
theorem exec_writePixel {s : State} {p : Pixel} (v : Inv s) (hi : Idle s) (hp : Performs s)
    (hps : s.pstate ≠ .uninitialized) (hs : s.streaming = true) :
    exec (.writePixel p) s = .next { countPixel (emitAll (pixTrace p) s) with pc := s.pc + 3 } :=
  have l := Live.of_idle hi hp
  exec_completes (i := .writePixel p) hi rfl rfl ⟨by simpa [opLegal] using hps, fun _ => rfl⟩
    (runs_pixel l (v.dcx_of_idle hi) hs rfl) ⟨l.halted, l.busy⟩ rfl

/-- The two bytes of a pixel at its start, in the memory write: one complete pixel (20_memory.md R56). -/
theorem panelData_pixel {c : Cfg} (wf : c.WellFormed) {p : Panel} (hc : p.cmd = some c.cmdRamwr) (hh : p.half = none)
    (a b : Byte) : panelData c b (panelData c a p) =
      panelPixel c (be16 a b) { p with args := p.args ++ [a, b], half := none } := by
  have first : panelData c a p = { p with args := p.args ++ [a], half := some a } := by
    rw [panelData_of_cmd wf (k := .ramwr) hc a]
    simp only [panelDataRamwr, Panel.takeArg, hh]
  rw [first, panelData_of_cmd wf (p := { p with args := p.args ++ [a], half := some a }) (k := .ramwr) hc b]
  simp [panelDataRamwr, Panel.takeArg]

/-- Settles O26: one transfer, one pixel counted off; the PANEL's two data bytes make a pixel. -/
theorem writePixelCompletes : Obligations.WritePixelCompletes := by
  intro s p v hi hp hps hs
  have pos : 0 < s.pxRemaining.toNat := of_decide_eq_true (v.stream.symm.trans hs)
  have count : (countPixel (emitAll (pixTrace p) s)).pxRemaining.toNat + 1 = s.pxRemaining.toNat := by
    rw [countPixel_px, emitAll_pxRemaining]; omega
  refine ⟨_, exec_writePixel v hi hp hps hs, count, ?_, ?_, ?_, fun hc hh => ?_⟩
  · change (countPixel (emitAll (pixTrace p) s)).streaming = true ↔ 0 < (countPixel (emitAll (pixTrace p) s)).pxRemaining.toNat
    rw [countPixel_open, emitAll_streaming, emitAll_pxRemaining, hs, Bool.true_and, decide_eq_true_eq]
    omega
  · rw [emitAll_pix]; rfl
  · change (panelData s.cfg (hi8 p) (panelData s.cfg (lo8 p) s.panel)).args = _
    rw [(panelData_keeps _ _ _).2.1, (panelData_keeps _ _ _).2.1, List.append_assoc]
    rfl
  · change PixelTaken s.cfg (wirev p) s.panel (panelData s.cfg (hi8 p) (panelData s.cfg (lo8 p) s.panel))
    rw [panelData_pixel v.cfg hc hh]
    exact pixelTaken_panelPixel _ _ _ _

end Sys2Proof.Machine
end

section
/-! Proofs of the family 42_pixel_model.md: the fields of a Pixel, PACK, and the wire value. -/

namespace Sys2Proof.Machine

/-! ## PACK (42_pixel_model.md R134) -/

/-- PACK's assignment to the channel's field. -/
def putField (p : Pixel) (q : Channel × Byte) : Pixel := p &&& ~~~ (channelMask q.1) ||| pack q.1 q.2.toNat

/-- PACK of a percentage up to 100. -/
theorem exec_pack {s : State} {q : Channel × Byte} (hi : Idle s) (hq : q.2.toNat ≤ 100) :
    exec (.pack q.1 q.2) s = .next { s with pixacc := putField s.pixacc q, pc := s.pc + 3 } := by
  have quiet := Quiet.of_idle hi
  have assign : setField q.1 (quant q.1 q.2.toNat) s.pixacc = putField s.pixacc q :=
    setField_eq q.1 ⟨q.2.toNat, by omega⟩ s.pixacc
  have body : Runs (packBody q.1 q.2.toNat) s { s with pixacc := putField s.pixacc q } :=
    Runs.cons (Runs.test quiet (by simpa [Check.passes] using hq))
      (Runs.silent (by rw [← assign]; rfl) quiet.halted quiet.busy)
  exact exec_completes (i := .pack q.1 q.2) hi rfl rfl ⟨rfl, fun _ => rfl⟩ body ⟨quiet.halted, quiet.busy⟩ rfl

/-- PACK of a percentage above 100. -/
theorem exec_pack_halts {s : State} {ch : Channel} {pct : Byte} (hi : Idle s) (hq : ¬ pct.toNat ≤ 100) :
    exec (.pack ch pct) s = .next (raiseHalt .percentInvalid s) :=
  have check : Stops [.require (.percent pct.toNat)] s (raiseHalt .percentInvalid s) :=
    Stops.check (by simpa [Check.passes] using hq)
  exec_halts (i := .pack ch pct) hi rfl rfl ⟨rfl, fun _ => rfl⟩ (check.append [.packField ch pct.toNat])

/-- Settles O28. -/
theorem packCompletes : Obligations.PackCompletes := by
  intro s ch pct hi
  split
  · next hq => exact exec_pack (q := (ch, pct)) hi hq
  · next hq => exact exec_pack_halts hi hq

/-! ## The fields (42_pixel_model.md R132, R133) -/

/-- What `unpack` reads of what `pack` wrote: each percentage on its own. -/
theorem unpack_pack : ∀ (ch ch' : Channel) (pct : Fin 101),
    unpack ch' (pack ch pct) = if ch' = ch then maxv ch * pct / 100 else 0 := by
  intro ch ch'
  cases ch <;> cases ch' <;> decide +kernel

/-- The fields as numbers (42_pixel_model.md R132). -/
theorem unpack_toNat (p : Pixel) : unpack .red p = p.toNat / 8 % 32 ∧
    unpack .green p = p.toNat % 8 * 8 + p.toNat / 8192 ∧ unpack .blue p = p.toNat / 256 % 32 := by
  have : p.toNat < 65536 := p.isLt
  have top : p.toNat / 8192 % 8 = p.toNat / 8192 := Nat.mod_eq_of_lt (by omega)
  simp [unpack, BitVec.extractLsb'_toNat, Nat.shiftRight_eq_div_pow, top]

/-- Settles O29. -/
theorem unpackRecoversThePercentage : Obligations.UnpackRecoversThePercentage := by
  refine ⟨fun ch pct hp => ?_, unpack_toNat⟩
  have h := fun ch' => unpack_pack ch ch' ⟨pct, by omega⟩
  exact ⟨(h ch).trans (if_pos rfl), fun ch' hne => (h ch').trans (if_neg hne)⟩

/-- The fields of the wire value, bit by bit: red in its high byte, green across the two, blue in its low byte
(42_pixel_model.md R130, R131). -/
theorem wirev_fields (p : Pixel) : (wirev p).extractLsb' 11 5 = p.extractLsb' 3 5 ∧
    (wirev p).extractLsb' 5 6 = p.extractLsb' 0 3 ++ p.extractLsb' 13 3 ∧
    (wirev p).extractLsb' 0 5 = p.extractLsb' 8 5 := by
  refine ⟨?_, ?_, ?_⟩ <;>
  · apply BitVec.eq_of_getLsbD_eq
    intro i hi
    simp only [wirev, be16, lo8, hi8, BitVec.getLsbD_extractLsb', BitVec.getLsbD_append, hi, decide_true, Bool.true_and]
    interval_cases i <;> rfl

/-- Settles O30. -/
theorem wireValueFields : Obligations.WireValueFields := by
  intro p
  obtain ⟨red, green, blue⟩ := wirev_fields p
  refine ⟨by simp [wirev], congrArg BitVec.toNat red, ?_, congrArg BitVec.toNat blue⟩
  rw [green, BitVec.toNat_append, ← Nat.shiftLeft_add_eq_or_of_lt (BitVec.isLt _), Nat.shiftLeft_eq]
  rfl

/-! ## Three PACKs (42_pixel_model.md R135) -/

/-- PACK's assignment bit by bit. -/
theorem putField_bit {q : Channel × Byte} (hq : q.2.toNat ≤ 100) (p : Pixel) {i : Nat} (hi : i < 16) :
    (putField p q).getLsbD i =
      if (channelMask q.1).getLsbD i then (pack q.1 q.2.toNat).getLsbD i else p.getLsbD i := by
  have own := pack_bit q.1 ⟨i, hi⟩ ⟨q.2.toNat, by omega⟩
  simp only [putField, BitVec.getLsbD_or, BitVec.getLsbD_and, BitVec.getLsbD_not, hi, decide_true, Bool.true_and]
  cases hm : (channelMask q.1).getLsbD i
  · simp [hm] at own; simp [own]
  · simp

/-- The fields of two channels share no bit (42_pixel_model.md R130). -/
theorem channelMask_disjoint : ∀ {a b : Channel}, a ≠ b →
    ∀ i : Fin 16, (channelMask a).getLsbD i = true → (channelMask b).getLsbD i = false := by
  intro a b
  cases a <;> cases b <;> decide

/-- Each bit that is neither red nor blue is green (42_pixel_model.md R130). -/
theorem channelMask_green : ∀ i : Fin 16, (channelMask .green).getLsbD i =
    (!(channelMask .red).getLsbD i && !(channelMask .blue).getLsbD i) := by
  decide

/-- Assignments to the fields of two channels commute. -/
theorem putField_comm {a b : Channel × Byte} (ha : a.2.toNat ≤ 100) (hb : b.2.toNat ≤ 100) (hne : a.1 ≠ b.1)
    (p : Pixel) : putField (putField p a) b = putField (putField p b) a := by
  apply BitVec.eq_of_getLsbD_eq
  intro i hi
  simp only [putField_bit ha _ hi, putField_bit hb _ hi]
  cases hm : (channelMask a.1).getLsbD i
  · simp
  · simp [channelMask_disjoint hne ⟨i, hi⟩ hm]

/-- `pack` writes bits of its channel's field only, so two channels' values share none. -/
theorem pack_and_pack {a b : Channel} (hne : a ≠ b) {pa pb : Nat} (ha : pa ≤ 100) (hb : pb ≤ 100) :
    pack a pa &&& pack b pb = 0 := by
  apply BitVec.eq_of_getLsbD_eq
  intro i hi
  rw [BitVec.getLsbD_and, pack_bit a ⟨i, hi⟩ ⟨pa, by omega⟩, pack_bit b ⟨i, hi⟩ ⟨pb, by omega⟩]
  cases hm : (channelMask a).getLsbD i
  · simp
  · simp [channelMask_disjoint hne ⟨i, hi⟩ hm]

/-- `rgb` joins the three fields: the sum has no carry. -/
theorem rgb_eq_or {pr pg pb : Nat} (hr : pr ≤ 100) (hg : pg ≤ 100) (hb : pb ≤ 100) :
    rgb pr pg pb = pack .red pr ||| pack .green pg ||| pack .blue pb := by
  have hrg := pack_and_pack (a := .red) (b := .green) (by decide) hr hg
  have hbr := pack_and_pack (a := .blue) (b := .red) (by decide) hb hr
  have hbg := pack_and_pack (a := .blue) (b := .green) (by decide) hb hg
  have hrgb : (pack .red pr ||| pack .green pg) &&& pack .blue pb = 0 := by
    rw [BitVec.and_comm, BitVec.and_or_distrib_left, hbr, hbg, BitVec.or_self]
  rw [rgb, BitVec.add_eq_or_of_and_eq_zero _ _ hrg, BitVec.add_eq_or_of_and_eq_zero _ _ hrgb]

/-- The three fields assigned, whatever the Pixel was. -/
theorem putField_three {pr pg pb : Byte} (hr : pr.toNat ≤ 100) (hg : pg.toNat ≤ 100) (hb : pb.toNat ≤ 100) (p : Pixel) :
    [(Channel.red, pr), (.green, pg), (.blue, pb)].foldl putField p = rgb pr.toNat pg.toNat pb.toNat := by
  rw [rgb_eq_or hr hg hb]
  apply BitVec.eq_of_getLsbD_eq
  intro i hi
  have green := channelMask_green ⟨i, hi⟩
  have disjoint := channelMask_disjoint (a := .red) (b := .blue) (by decide) ⟨i, hi⟩
  simp only [List.foldl_cons, List.foldl_nil, putField_bit (q := (.red, pr)) hr _ hi,
    putField_bit (q := (.green, pg)) hg _ hi, putField_bit (q := (.blue, pb)) hb _ hi, BitVec.getLsbD_or,
    pack_bit .red ⟨i, hi⟩ ⟨pr.toNat, by omega⟩, pack_bit .green ⟨i, hi⟩ ⟨pg.toNat, by omega⟩,
    pack_bit .blue ⟨i, hi⟩ ⟨pb.toNat, by omega⟩]
  cases hred : (channelMask .red).getLsbD i <;> cases hblue : (channelMask .blue).getLsbD i <;> simp_all

/-- Settles O31: three completions, and the assignments in the order red, green, blue. -/
theorem threePacksMakeAColour : Obligations.ThreePacksMakeAColour := by
  intro s pr pg pb order hi perm hr hg hb a b c horder
  have small : ∀ q ∈ order, q.2.toNat ≤ 100 := by
    intro q hq
    obtain rfl | rfl | rfl : q = (.red, pr) ∨ q = (.green, pg) ∨ q = (.blue, pb) := by simpa using perm.mem_iff.1 hq
    exacts [hr, hg, hb]
  have colour : order.foldl putField s.pixacc = rgb pr.toNat pg.toNat pb.toNat := by
    refine (perm.foldl_eq' ?_ _).trans (putField_three hr hg hb _)
    intro x hx y hy p
    by_cases same : x = y
    · rw [same]
    · refine putField_comm (small x hx) (small y hy) (fun h => same ?_) p
      have hx := perm.mem_iff.1 hx
      have hy := perm.mem_iff.1 hy
      simp only [List.mem_cons, List.not_mem_nil, or_false] at hx hy
      rcases hx with rfl | rfl | rfl <;> rcases hy with rfl | rfl | rfl <;> simp_all
  subst horder
  rw [← colour]
  simp only [List.forall_mem_cons] at small
  obtain ⟨ha, hb, hc, -⟩ := small
  refine ⟨_, _, _, exec_pack hi ha, exec_pack (by exact hi) hb, exec_pack (by exact hi) hc, ?_⟩
  simp

end Sys2Proof.Machine
end

section
/-! Proofs of the families 43_glyph_rasterizer.md and 44_line_primitive.md: characters, strings and lines. -/

namespace Sys2Proof.Machine

/-! ## DRAW_CHARACTER (43_glyph_rasterizer.md R141 to R144) -/

section Character
variable {s : State} {x y : BitVec 16} {code : Byte} {color : Pixel} {scale : Byte}

/-- DRAW_CHARACTER whose checks pass. -/
theorem exec_drawCharacter (hi : Idle s) (hp : Performs s) (wf : s.cfg.WellFormed) (hps : s.pstate = .configured)
    (hs : s.streaming = false) (ok : charHalt s.cfg x.toNat y.toNat code scale.toNat = none) :
    exec (.drawCharacter x y code color scale) s = .next { charDrawn x.toNat y.toNat scale.toNat
      (emitAll (charTrace s.cfg x.toNat y.toNat code color scale.toNat) s) with pc := s.pc + 9 } :=
  have l := Live.of_idle hi hp
  exec_completes (i := .drawCharacter x y code color scale) hi rfl rfl (allowed_closed (by simp [opLegal, hps]) hs)
    (runs_character l rfl wf ok) ⟨l.halted, l.busy⟩ rfl

/-- DRAW_CHARACTER with a check that fails. -/
theorem exec_drawCharacter_halts {k : Cause} (hi : Idle s) (hps : s.pstate = .configured) (hs : s.streaming = false)
    (bad : charHalt s.cfg x.toNat y.toNat code scale.toNat = some k) :
    exec (.drawCharacter x y code color scale) s = .next (raiseHalt k s) :=
  exec_halts (i := .drawCharacter x y code color scale) hi rfl rfl (allowed_closed (by simp [opLegal, hps]) hs)
    (stops_character (Quiet.of_idle hi) rfl bad)

end Character

/-- Settles O32. -/
theorem drawCharacterCompletes : Obligations.DrawCharacterCompletes := by
  intro s x y code color scale hi hp wf hps hs hscale hcode hx hy
  exact exec_drawCharacter hi hp wf hps hs (charHalt_none.mpr ⟨hscale, hcode, by omega, by omega, hx, hy⟩)

/-- Settles O33: `charHalt` is the cause the statement spells out. -/
theorem drawCharacterHaltsInOrder : Obligations.DrawCharacterHaltsInOrder := by
  intro s x y code color scale hi _ hps hs bad
  refine exec_drawCharacter_halts hi hps hs ?_
  have zero : scale.toNat < 1 ↔ scale = 0 := by rw [Nat.lt_one_iff, ← BitVec.toNat_inj]; rfl
  have font : ¬ s.cfg.InFont code ↔ code.toNat < s.cfg.fontFirst.toNat ∨ s.cfg.fontLast.toNat < code.toNat := by
    unfold Cfg.InFont; omega
  have box : ¬ scale.toNat < 1 → s.cfg.InFont code →
      ¬ WindowOk s.cfg x.toNat y.toNat (8 * scale.toNat) (8 * scale.toNat) := by
    rintro h1 h2 ⟨-, -, h3, h4⟩
    exact bad ⟨by omega, h2, h3, h4⟩
  simp only [charHalt, ← zero, ← font]
  by_cases h1 : scale.toNat < 1
  · simp only [h1, if_true]
  · by_cases h2 : s.cfg.InFont code
    · rw [if_neg h1, if_neg h1, if_neg (not_not.mpr h2), if_neg (not_not.mpr h2), if_pos (box h1 h2)]
    · simp only [h1, h2, not_false_iff, if_true, if_false]

/-- A character's patch, at a cell of its box (43_glyph_rasterizer.md R144). -/
theorem charPatch_over {c : Cfg} {x y : Nat} {code : Byte} {color : Pixel} {scale row col : Nat} (hr : row < 8 * scale)
    (hc : col < 8 * scale) (f : Nat → Nat → Option Pixel) :
    (charPatch c x y code color scale).over c f (y + c.margin + row) (x + c.margin + col) =
      some (wirev (if glyphBit c code (row / scale) (col / scale) then color else bg)) := by
  have inBox : CellIn c (charPatch c x y code color scale).box (y + c.margin + row) (x + c.margin + col) := by
    simp only [CellIn, charPatch, phys]; omega
  have index : (y + c.margin + row - phys c y) * (8 * scale) + (x + c.margin + col - phys c x) = 8 * scale * row + col := by
    simp only [phys, Nat.add_sub_cancel_left, Nat.mul_comm row]
  have inRaster : 8 * scale * row + col < 8 * scale * (8 * scale) := by
    have := Nat.mul_le_mul_left (8 * scale) (show row + 1 ≤ 8 * scale from hr)
    rw [Nat.mul_add] at this
    omega
  rw [Patch.over, if_pos inBox]
  simp only [charPatch, index, raster, List.getElem?_map, List.getElem?_range inRaster, Option.map_some, rasterPixel,
    Nat.mul_add_div (show 0 < 8 * scale by omega), Nat.mul_add_mod,
    Nat.mod_eq_of_lt hc, Nat.div_eq_of_lt hc, Nat.add_zero]

/-- Settles O34. -/
theorem drawCharacterPaintsItsBox : Obligations.DrawCharacterPaintsItsBox := by
  intro s x y code color scale hi hp wf inStep hps hs ok
  obtain ⟨t, e, drawn, -⟩ := exec_draws (i := .drawCharacter x y code color scale) rfl rfl (draws_character wf ok) hi hp
    (by simp [opLegal, hps]) hs
  obtain ⟨good, screen⟩ := drawn.screen_inStep inStep hps hs
  refine ⟨t, e, good, fun row col hr hc => (screen _ _).trans (charPatch_over hr hc _), fun row col hout => ?_⟩
  rw [screen, overlay_outside _ (by simpa [charPatch] using hout)]

/-- Settles O35: the origin (0, 0) fits wherever any origin does. -/
theorem scaleIsBoundedByTheWindow : Obligations.ScaleIsBoundedByTheWindow := by
  intro s code color scale hi wf hps hs hcode hscale
  have large : ∀ {x y : BitVec 16}, ¬ WindowOk s.cfg x.toNat y.toNat (8 * scale.toNat) (8 * scale.toNat) →
      exec (.drawCharacter x y code color scale) s = .next (raiseHalt .windowInvalid s) := by
    intro x y bad
    refine exec_drawCharacter_halts hi hps hs ?_
    rw [charHalt, if_neg (by omega), if_neg (not_not.mpr hcode), if_pos bad]
  have div : scale.toNat ≤ min s.cfg.usableCols s.cfg.usableRows / 8 ↔
      8 * scale.toNat ≤ min s.cfg.usableCols s.cfg.usableRows := by omega
  refine ⟨fun hp => ?_, fun hbig x y => ⟨_, large fun ok => ?_, rfl, rfl⟩⟩
  · have fits : (∃ x y t, exec (.drawCharacter x y code color scale) s = .next t ∧ t.halted = false) ↔
        8 * scale.toNat ≤ min s.cfg.usableCols s.cfg.usableRows := by
      constructor
      · rintro ⟨x, y, t, e, running⟩
        by_contra hbig
        rw [large fun ok => hbig (by obtain ⟨-, -, h1, h2⟩ := ok; omega)] at e
        cases e; cases running
      · intro hle
        have ok : charHalt s.cfg (0 : BitVec 16).toNat (0 : BitVec 16).toNat code scale.toNat = none :=
          charHalt_none.mpr ⟨hscale, hcode, by simp; omega⟩
        exact ⟨0, 0, _, exec_drawCharacter hi hp wf hps hs ok, hi.2.1⟩
    exact ⟨fits, fits.trans div.symm⟩
  · obtain ⟨-, -, h1, h2⟩ := ok
    omega

/-! ## DRAW_STRING (43_glyph_rasterizer.md R143) -/

/-- `draw_string` moves only the registers of the window, of the stream and RASTER_BUF. -/
theorem stringDrawn_frame (c : Cfg) (scale : Nat) (text : List Byte) (x y : Nat) {s : State} (q : Quiet s) :
    Quiet (stringDrawn c scale text x y s) ∧ (stringDrawn c scale text x y s).todo = s.todo ∧
      (stringDrawn c scale text x y s).pc = s.pc := by
  cases text <;> exact ⟨⟨q.halted, q.busy⟩, rfl, rfl⟩

/-- Settles O36. -/
theorem drawStringCompletes : Obligations.DrawStringCompletes := by
  intro s x y color scale text hi hp wf hps hs ok
  have l := Live.of_idle hi hp
  obtain ⟨quiet, todo, pc⟩ := stringDrawn_frame s.cfg scale.toNat text x.toNat y.toNat
    (l.emitAll (stringTrace s.cfg color scale.toNat text x.toNat y.toNat)).quiet
  have e := exec_completes (i := .drawString x y color scale text) hi rfl rfl (allowed_closed (by simp [opLegal, hps]) hs)
    (runs_string wf text x.toNat y.toNat s l rfl ok) quiet todo
  rw [pc] at e
  exact e

/-- A halt on the way, of an operation that has not moved PC. -/
theorem raiseHalt_at {u : State} {pc : Nat} (k : Cause) (hpc : u.pc = pc) (todo : u.todo = []) :
    ({ raiseHalt k u with todo := [] } : State) = { u with halted := true, haltCause := k, haltPc := pc } := by
  have same : ({ u with todo := [] } : State) = u := by rw [← todo]
  subst hpc
  exact congrArg (raiseHalt k) same

/-- Settles O37. -/
theorem drawStringHaltsAtTheFirstBadCharacter : Obligations.DrawStringHaltsAtTheFirstBadCharacter := by
  intro s x y color scale pre code post k hi hp wf hps hs ok bad
  have l := Live.of_idle hi hp
  obtain ⟨-, todo, pc⟩ := stringDrawn_frame s.cfg scale.toNat pre x.toNat y.toNat
    (l.emitAll (stringTrace s.cfg color scale.toNat pre x.toNat y.toNat)).quiet
  have stops := stops_string (color := color) wf pre code post x.toNat y.toNat s l rfl ok bad
  have e := perform_halts (len := 9 + (pre ++ code :: post).length) hi
    (allowed_closed (op := .drawString) (by simp [opLegal, hps]) hs) stops
  exact e.trans (congrArg _ (raiseHalt_at k pc (todo.trans hi.2.2.2.2)))

/-- Only the character at a cell reaches it: the later boxes begin where the string's axis has moved on
(43_glyph_rasterizer.md R143). -/
theorem overlay_stringPatches {c : Cfg} {color : Pixel} {scale row col : Nat} (hr : row < 8 * scale) (hc : col < 8 * scale)
    (text : List Byte) : ∀ {x y k : Nat} (f : Nat → Nat → Option Pixel) (hk : k < text.length),
      overlay c (stringPatches c color scale text x y) f (charY c y k scale + c.margin + row)
        (charX c x k scale + c.margin + col) =
          some (wirev (if glyphBit c text[k] (row / scale) (col / scale) then color else bg)) := by
  induction text with
  | nil => intro x y k f hk; exact absurd hk (Nat.not_lt_zero _)
  | cons code text ih =>
    intro x y k f hk
    cases k with
    | zero =>
      have later : ∀ P ∈ stringPatches c color scale text (charX c x 1 scale) (charY c y 1 scale),
          ¬ CellIn c P.box (y + c.margin + row) (x + c.margin + col) := by
        intro P hP
        obtain ⟨j, -, box⟩ := mem_stringPatches text hP
        have far : 8 * scale ≤ (j + 1) * (8 * scale) := Nat.le_mul_of_pos_left _ (Nat.succ_pos j)
        rw [box, ← charX_succ, ← charY_succ]
        simp only [CellIn, phys, charX, charY]
        cases c.stringAxis <;> dsimp only <;> omega
      rw [charX_zero, charY_zero]
      exact (overlay_outside _ later _).trans (charPatch_over hr hc f)
    | succ k =>
      rw [charX_succ, charY_succ]
      exact ih ((charPatch c x y code color scale).over c f) (Nat.lt_of_succ_lt_succ hk)

/-- Settles O38. -/
theorem drawStringPaintsItsBoxes : Obligations.DrawStringPaintsItsBoxes := by
  intro s x y color scale text hi hp wf inStep hps hs ok
  obtain ⟨t, e, drawn, -⟩ := exec_draws (i := .drawString x y color scale text) rfl rfl (draws_string wf text ok) hi hp
    (by simp [opLegal, hps]) hs
  obtain ⟨good, screen⟩ := drawn.screen_inStep inStep hps hs
  refine ⟨t, e, good, fun k hk row col hr hc => ?_, fun row col hout => ?_⟩
  · rw [screen]
    exact overlay_stringPatches hr hc text _ hk
  · rw [screen]
    refine overlay_outside _ (fun P hP => ?_) _
    obtain ⟨k, hk, box⟩ := mem_stringPatches text hP
    rw [box]
    exact hout k hk

/-! ## DRAW_LINE (44_line_primitive.md R150 to R153) -/

section Line
variable {s : State} {xs ys xe ye : BitVec 16} {color : Pixel}

/-- DRAW_LINE whose checks pass. -/
theorem exec_drawLine (hi : Idle s) (hp : Performs s) (wf : s.cfg.WellFormed) (hps : s.pstate = .configured)
    (hs : s.streaming = false) (ok : LineOk s.cfg xs.toNat ys.toNat xe.toNat ye.toNat) :
    exec (.drawLine xs ys xe ye color) s = .next { lineDrawn xs.toNat ys.toNat xe.toNat ye.toNat
      (emitAll (lineTrace s.cfg xs.toNat ys.toNat xe.toNat ye.toNat color) s) with pc := s.pc + 11 } := by
  have l := Live.of_idle hi hp
  have e := exec_completes (i := .drawLine xs ys xe ye color) hi rfl rfl (allowed_closed (by simp [opLegal, hps]) hs)
    (runs_line l rfl wf ok) (by unfold lineDrawn; split <;> exact ⟨l.halted, l.busy⟩)
    (by unfold lineDrawn; split <;> rfl)
  refine e.trans ?_
  unfold lineDrawn
  split <;> rfl

/-- DRAW_LINE with a check that fails. -/
theorem exec_drawLine_halts {k : Cause} (hi : Idle s) (hps : s.pstate = .configured) (hs : s.streaming = false)
    (bad : lineHalt s.cfg xs.toNat ys.toNat xe.toNat ye.toNat = some k) :
    exec (.drawLine xs ys xe ye color) s = .next (raiseHalt k s) :=
  exec_halts (i := .drawLine xs ys xe ye color) hi rfl rfl (allowed_closed (by simp [opLegal, hps]) hs)
    (stops_line (Quiet.of_idle hi) rfl bad)

end Line

/-- Settles O39. -/
theorem drawLineCompletes : Obligations.DrawLineCompletes := by
  intro s xs ys xe ye color hi hp wf hps hs
  refine ⟨fun hx hy hx' hy' => ?_, fun hy hx hy' hx' => ?_⟩
  · subst hx
    have e := exec_drawLine (color := color) hi hp wf hps hs (xs := xs) (xe := xs) (ys := ys) (ye := ye)
      (.inl ⟨rfl, hy, by omega, by omega, by omega, by omega⟩)
    simp only [lineDrawn, lineTrace, if_true] at e
    exact e
  · subst hy
    have hne : xs.toNat ≠ xe.toNat := by omega
    have e := exec_drawLine (color := color) hi hp wf hps hs (xs := xs) (xe := xe) (ys := ys) (ye := ys)
      (.inr ⟨rfl, hx, by omega, by omega, by omega, by omega⟩)
    simp only [lineDrawn, lineTrace, if_neg hne] at e
    exact e

/-- Settles O40: `lineHalt` in the cases of the statement. -/
theorem drawLineHalts : Obligations.DrawLineHalts := by
  intro s xs ys xe ye color hi _ hps hs
  simp only [ne_eq, ← BitVec.toNat_inj]
  refine ⟨fun bad => exec_drawLine_halts hi hps hs (if_pos bad), fun bad => exec_drawLine_halts hi hps hs ?_⟩
  rw [lineHalt, if_neg (by omega)]
  split
  · exact if_neg (by simp only [WindowOk]; omega)
  · exact if_neg (by simp only [WindowOk]; omega)

/-- A line's patch, at every cell (44_line_primitive.md R151, R152). -/
theorem linePatch_over {c : Cfg} {l : Line} (ok : LineOk c l.xs l.ys l.xe l.ye) (f : Nat → Nat → Option Pixel)
    (row col : Nat) : (linePatch l).over c f row col =
      if (l.xs = l.xe ∧ col = l.xs + c.margin ∧ l.ys + c.margin ≤ row ∧ row < l.ye + c.margin) ∨
        (l.ys = l.ye ∧ row = l.ys + c.margin ∧ l.xs + c.margin ≤ col ∧ col < l.xe + c.margin)
      then some (wirev l.color) else f row col := by
  rw [Patch.over, linePatch_box]
  have cells : CellIn c l.box row col ↔
      (l.xs = l.xe ∧ col = l.xs + c.margin ∧ l.ys + c.margin ≤ row ∧ row < l.ye + c.margin) ∨
        (l.ys = l.ye ∧ row = l.ys + c.margin ∧ l.xs + c.margin ≤ col ∧ col < l.xe + c.margin) := by
    unfold Line.box
    split <;> simp only [CellIn, phys] <;> omega
  simp only [cells]
  split
  · next inside =>
    unfold linePatch Line.box
    rcases ok with ⟨hx, hy, -⟩ | ⟨hy, hx, -⟩
    · simp only [if_pos hx, phys, List.getElem?_replicate]
      rw [if_pos (by omega), Option.map_some]
    · simp only [if_neg (show l.xs ≠ l.xe by omega), phys, List.getElem?_replicate]
      rw [show row - (l.ys + c.margin) = 0 by omega, Nat.zero_mul, if_pos (by omega), Option.map_some]
  · rfl

/-- Settles O41. -/
theorem drawLinePaintsItsSegment : Obligations.DrawLinePaintsItsSegment := by
  intro s t xs ys xe ye color hi hp wf inStep hps hs e running
  cases bad : lineHalt s.cfg xs.toNat ys.toNat xe.toNat ye.toNat with
  | some k =>
    rw [exec_drawLine_halts hi hps hs bad] at e
    cases e; cases running
  | none =>
    have ok := lineHalt_none.mp bad
    obtain ⟨u, e', drawn, -⟩ := exec_draws (i := .drawLine xs ys xe ye color) rfl rfl
      (draws_line (l := ⟨xs.toNat, ys.toNat, xe.toNat, ye.toNat, color⟩) wf ok) hi hp (by simp [opLegal, hps]) hs
    obtain rfl := Host.Outcome.next.inj (e.symm.trans e')
    obtain ⟨good, screen⟩ := drawn.screen_inStep inStep hps hs
    refine ⟨good, fun row col => (screen row col).trans ?_⟩
    simp only [← BitVec.toNat_inj]
    exact linePatch_over (l := ⟨xs.toNat, ys.toNat, xe.toNat, ye.toNat, color⟩) ok _ row col

end Sys2Proof.Machine
end

section
/-! Proofs of the family 45_display_session.md: INIT and REFRESH. -/

namespace Sys2Proof.Machine

/-! ## INIT (45_display_session.md R161) -/

/-- The state after `reset` and `configure`; `s` is the state after their traces. -/
abbrev wasBroughtUp (c : Cfg) (s : State) : State :=
  { painted 0 0 c.usableCols c.usableRows (wasReset s) with pstate := .configured }

/-- `reset` then `configure`: a settled state (41_panel_protocol.md R110, R111). -/
theorem runs_bringUp {c : Cfg} {s : State} (l : Live s) (hc : s.cfg = c) (wf : c.WellFormed) :
    Runs (resetBody c ++ configureBody c) s (wasBroughtUp c (emitAll (rstTrace c ++ cfgTrace c) s)) := by
  have reset := runs_reset c l
  generalize rstTrace c = tr at reset ⊢
  have configure := runs_configure (s := wasReset (emitAll tr s)) ⟨l.1, l.2, l.3, (l.emitAll _).4⟩ hc wf
  generalize cfgTrace c = tc at configure ⊢
  rw [← emitAll_emitAll]
  exact reset.append configure

/-- Settles O42: bring-up, then labels and lines that move the Draw Window and RASTER_BUF only. -/
theorem initCompletes : Obligations.InitCompletes := by
  intro s hi hp wf lw
  have l := Live.of_idle hi hp
  have bringUp := runs_bringUp l rfl wf
  have trace : initTrace s.cfg = (rstTrace s.cfg ++ cfgTrace s.cfg) ++
      (s.cfg.layout.labels.flatMap (fun l => stringTrace s.cfg l.color l.scale l.text l.x l.y) ++
        s.cfg.layout.lines.flatMap (fun l => lineTrace s.cfg l.xs l.ys l.xe l.ye l.color)) := by
    simp only [initTrace, List.append_assoc]
  generalize rstTrace s.cfg ++ cfgTrace s.cfg = tr at bringUp trace
  set u := wasBroughtUp s.cfg (emitAll tr s) with hu
  obtain ⟨t, adorn, lt, ht⟩ := repaints_init wf lw u ⟨l.1, l.2, l.3, (l.emitAll _).4⟩ rfl ⟨rfl, rfl, rfl, rfl⟩
  have body : Runs (initBody s.cfg) s t := (bringUp.append adorn).of_eq (by simp only [initBody, List.append_assoc]) rfl
  have todo : t.todo = s.todo := congrArg (·.todo) ht
  refine ⟨_, exec_completes (i := .init) hi rfl rfl ⟨rfl, fun _ => rfl⟩ body lt.quiet todo, congrArg (·.pstate) ht,
    congrArg (·.streaming) ht, congrArg (·.winValid) ht, ?_, ?_⟩
  · intro noLabels noLines
    rw [noLabels, noLines] at adorn
    exact congrArg (·.win) (adorn []).symm
  · rw [trace, ← emitAll_emitAll]
    generalize hw : t.win = w at ht
    generalize hb : t.rasterBuf = b at ht
    subst ht
    rfl

/-! ## REFRESH (45_display_session.md R163, R165, R166) -/

/-- A reading that is not negative is its natural value (45_display_session.md R162). -/
theorem toInt_of_lt {v : BitVec 16} (h : v.toNat < 10000) : v.toInt = v.toNat :=
  BitVec.toInt_eq_toNat_of_lt (by omega)

theorem readings_lt {it ih ot oh : BitVec 16} (small : ∀ v ∈ [it, ih, ot, oh], v.toNat < 10000) :
    it.toNat < 10000 ∧ ih.toNat < 10000 ∧ ot.toNat < 10000 ∧ oh.toNat < 10000 := by
  simpa using small

/-- REFRESH's body on readings from 0 to 999.9. -/
theorem refreshBody_of_lt {c : Cfg} {it ih ot oh : BitVec 16} (small : ∀ v ∈ [it, ih, ot, oh], v.toNat < 10000) :
    refreshBody c it.toInt ih.toInt ot.toInt oh.toInt = refreshBody c it.toNat ih.toNat ot.toNat oh.toNat := by
  obtain ⟨h1, h2, h3, h4⟩ := readings_lt small
  rw [toInt_of_lt h1, toInt_of_lt h2, toInt_of_lt h3, toInt_of_lt h4]

/-- Settles O43. -/
theorem refreshCompletes : Obligations.RefreshCompletes := by
  intro s it ih ot oh hi hp wf lw hps hs small
  have l := Live.of_idle hi hp
  obtain ⟨h1, h2, h3, h4⟩ := readings_lt small
  have body := runs_refresh wf lw h1 h2 h3 h4 l rfl
  rw [← refreshBody_of_lt small] at body
  exact exec_completes (i := .refresh it ih ot oh) hi rfl rfl (allowed_closed (by simp [opLegal, hps]) hs) body
    ⟨l.halted, l.busy⟩ rfl

/-- Settles O44: REFRESH's first check. -/
theorem negativeReadingHalts : Obligations.NegativeReadingHalts := by
  intro s it ih ot oh hi hps hs negative
  have check : Stops [.require (.readings it.toInt ih.toInt ot.toInt oh.toInt)] s (raiseHalt .readingInvalid s) :=
    Stops.check (by simp only [Check.passes, Bool.and_eq_false_iff, decide_eq_false_iff_not]; omega)
  exact exec_halts (i := .refresh it ih ot oh) hi rfl rfl (allowed_closed (by simp [opLegal, hps]) hs) (check.append _)

/-- What REFRESH puts on WIRE and on the screen, and the halt it ends in, are fixed by CFG and the readings. -/
theorem exec_refresh_drawing {c : Cfg} (wf : c.WellFormed) (it ih ot oh : BitVec 16) :
    ∃ k es Ps, ∀ s, s.cfg = c → Idle s → Performs s → s.pstate = .configured → s.streaming = false →
      ∃ t, exec (.refresh it ih ot oh) s = .next t ∧ Drawn c es Ps s t ∧
        ((k = none ∧ t.halted = false ∧ Idle t ∧ Performs t) ∨ (t.halted = true ∧ k = some t.haltCause)) := by
  obtain ⟨k, es, Ps, draws⟩ := drawing_refresh wf it.toInt ih.toInt ot.toInt oh.toInt
  refine ⟨k, es, Ps, fun s hc hi hp hps hs => ?_⟩
  subst hc
  have legal : opLegal .refresh s.pstate = true := by simp [opLegal, hps]
  cases k with
  | none =>
    obtain ⟨t, e, drawn, it', pt⟩ := exec_draws (i := .refresh it ih ot oh) rfl rfl draws hi hp legal hs
    exact ⟨t, e, drawn, .inl ⟨rfl, it'.2.1, it', pt⟩⟩
  | some k =>
    obtain ⟨t, e, drawn, halted, cause⟩ := exec_draws_halt (i := .refresh it ih ot oh) rfl rfl draws hi hp legal hs
    exact ⟨t, e, drawn, .inr ⟨halted, by rw [cause]⟩⟩

/-- Settles O45. -/
theorem refreshIsIdempotent : Obligations.RefreshIsIdempotent := by
  constructor
  · intro s u t v it ih ot oh hi hi' hp hp' hcfg wf hps hps' hs hs' e e'
    obtain ⟨k, es, Ps, run⟩ := exec_refresh_drawing wf it ih ot oh
    obtain ⟨t', f, drawn, fate⟩ := run s rfl hi hp hps hs
    obtain ⟨v', f', drawn', fate'⟩ := run u hcfg.symm hi' hp' hps' hs'
    obtain rfl := Host.Outcome.next.inj (e.symm.trans f)
    obtain rfl := Host.Outcome.next.inj (e'.symm.trans f')
    refine ⟨es, drawn.trace, drawn'.trace, ?_⟩
    rcases fate with ⟨rfl, h, -⟩ | ⟨h, rfl⟩ <;> rcases fate' with ⟨k', h', -⟩ | ⟨h', k'⟩
    · exact ⟨h.trans h'.symm, fun halted => absurd (h.symm.trans halted) (by decide)⟩
    · cases k'
    · cases k'
    · exact ⟨h.trans h'.symm, fun _ => Option.some.inj k'⟩
  · intro s t it ih ot oh hi hp wf inStep hps hs e running
    obtain ⟨k, es, Ps, run⟩ := exec_refresh_drawing wf it ih ot oh
    obtain ⟨t', f, drawn, fate⟩ := run s rfl hi hp hps hs
    obtain rfl := Host.Outcome.next.inj (e.symm.trans f)
    rcases fate with ⟨rfl, -, hi', hp'⟩ | ⟨halted, -⟩
    · obtain ⟨u, e', drawn', fate'⟩ := run t drawn.cfg hi' hp' (drawn.pstate.trans hps) drawn.streaming
      have running' : u.halted = false := by
        rcases fate' with ⟨-, h, -⟩ | ⟨-, h⟩
        · exact h
        · cases h
      refine ⟨u, e', running', fun row col => ?_⟩
      have ready := inStep.ready hps hs
      have first := drawn.screen ready row col
      rw [drawn'.screen (drawn.ready ready) row col, overlay_congr Ps first, overlay_overlay, first]
    · rw [running] at halted; cases halted

/-- Settles O46: REFRESH's patches lie in slot boxes, which meet no label box and no line. -/
theorem refreshLeavesLabelsAndLines : Obligations.RefreshLeavesLabelsAndLines := by
  intro s it ih ot oh hi hp wf lw inStep hps hs small
  obtain ⟨h1, h2, h3, h4⟩ := readings_lt small
  have draws := draws_refresh wf lw h1 h2 h3 h4
  rw [← refreshBody_of_lt small] at draws
  obtain ⟨t, e, drawn, -⟩ := exec_draws (i := .refresh it ih ot oh) rfl rfl draws hi hp (by simp [opLegal, hps]) hs
  obtain ⟨-, screen⟩ := drawn.screen_inStep inStep hps hs
  have kept : ∀ b : Box, (∀ slot ∈ s.cfg.slotBoxes, ¬ slot.Meets b) → ∀ row col, CellIn s.cfg b row col →
      t.panel.gramCell s.cfg row col = s.panel.gramCell s.cfg row col := by
    intro b apart row col hb
    rw [screen]
    refine overlay_outside _ (fun P hP hc => ?_) _
    obtain ⟨slot, hslot, hcell⟩ := refreshPatches_box h1 h2 h3 h4 hP hc
    exact apart slot hslot (meets_of_cell hcell hb)
  obtain ⟨-, -, -, -, apart⟩ := lw
  exact ⟨t, e, fun l hl => kept _ fun b hb => (apart b hb).1 l hl, fun l hl => kept _ fun b hb => (apart b hb).2 l hl⟩

end Sys2Proof.Machine
end

section
/-! Proofs of the family 20_memory.md section 6, PANEL and DHE in step: bring-up, and every host operation but the raw
bytes. -/

namespace Sys2Proof.Machine

/-! ## Operations that run to a state in step -/

theorem InStep.with_pc {t : State} (h : InStep t) (n : Nat) : InStep { t with pc := n, todo := [] } :=
  ⟨h.good, h.mode, h.window, h.closed, h.opened⟩

/-- An operation that does not halt passed the common checks (41_panel_protocol.md R119, R120). -/
theorem allowed_of_running {s t : State} {i : Instr} {op : Op} (hi : Idle s) (ho : opOf i = some op)
    (e : exec i s = .next t) (running : t.halted = false) : Allowed op s := by
  have stopped : ∀ {k : Cause}, exec i s ≠ .next (raiseHalt k s) := by
    intro k h
    rw [h] at e
    cases e; cases running
  cases legal : opLegal op s.pstate with
  | false => exact absurd (exec_illegal hi ho legal) stopped
  | true =>
    refine ⟨legal, fun open_ => ?_⟩
    cases exempt : streamExempt op with
    | false => exact absurd (exec_streaming hi ho legal open_ exempt) stopped
    | true => rfl

/-- One that streaming forbids was performed between streams. -/
theorem closed_of_allowed {s : State} {op : Op} (ha : Allowed op s) (he : streamExempt op = false) :
    s.streaming = false := by
  obtain ⟨-, open_⟩ := ha
  cases hs : s.streaming with
  | false => rfl
  | true => exact absurd ((open_ hs).symm.trans he) (by decide)

/-- An allowed operation whose body runs to `u`. -/
theorem exec_of_runs {s u : State} {i : Instr} {op : Op} {body : List Micro} (hi : Idle s) (ho : opOf i = some op)
    (hbody : seqProgram s.cfg i = operation op body (oplen i)) (ha : Allowed op s) (r : Runs body s u) (l : Live u) :
    ∃ t, exec i s = .next t ∧ t = { u with pc := u.pc + oplen i, todo := [] } ∧ Idle t ∧ Performs t :=
  ⟨_, by rw [exec_eq_perform ho, hbody, perform_completes hi ha r l.quiet], rfl, idle_of_runs hi r l _, l.bus⟩

/-- RESET brings the panel in step, cleared (41_panel_protocol.md R110, 20_memory.md R51). -/
theorem exec_reset_inStep {s : State} (wf : s.cfg.WellFormed) (hi : Idle s) (hp : Performs s) :
    ∃ t, exec .reset s = .next t ∧ InStep t ∧ t.panel = Panel.cleared ∧ t.cfg = s.cfg ∧ t.pstate = .reset ∧
      t.streaming = false ∧ Idle t ∧ Performs t := by
  obtain ⟨u, r, l, inStep, panel, hc, hps, hs, -⟩ := reset_inStep wf (Live.of_idle hi hp) rfl
  obtain ⟨t, e, rfl, it, pt⟩ := exec_of_runs (i := .reset) hi rfl rfl ⟨rfl, fun _ => rfl⟩ r l
  exact ⟨_, e, inStep.with_pc _, panel, hc, hps, hs, it, pt⟩

/-- CONFIGURE keeps it in step and paints the usable area (41_panel_protocol.md R111). -/
theorem exec_configure_inStep {s : State} (wf : s.cfg.WellFormed) (hi : Idle s) (hp : Performs s) (inStep : InStep s)
    (hps : s.pstate = .reset) (hs : s.streaming = false) :
    ∃ t, exec .configure s = .next t ∧ InStep t ∧ t.panel.on = true ∧ t.pstate = .configured ∧
      ∀ row col, t.panel.gramCell s.cfg row col = (fullPatch s.cfg).over s.cfg (s.panel.gramCell s.cfg) row col := by
  obtain ⟨u, r, l, inStep', on, -, hps', -, -, screen⟩ :=
    configure_inStep wf (Live.of_idle hi hp) rfl inStep.good (inStep.closed hs)
  obtain ⟨t, e, rfl, -, -⟩ := exec_of_runs (i := .configure) hi rfl rfl (allowed_closed (by simp [opLegal, hps]) hs) r l
  exact ⟨_, e, inStep'.with_pc _, on, hps', screen⟩

/-- Settles O53. -/
theorem bringUpWhitensTheUsableArea : Obligations.BringUpWhitensTheUsableArea := by
  intro s hi hp wf
  obtain ⟨t, e, inStep, -, hc, hps, hs, it, pt⟩ := exec_reset_inStep wf hi hp
  rw [← hc] at wf ⊢
  obtain ⟨u, e', inStep', on, hps', screen⟩ := exec_configure_inStep wf it pt inStep hps hs
  refine ⟨t, u, e, e', hps', inStep'.good, on, fun row col usable => ?_⟩
  rw [screen, over_fullPatch usable]
  rfl

/-! ## Cells outside the usable area -/

/-- Every cell outside the usable area reads as before (20_memory.md R62). -/
def KeepsMargin (c : Cfg) (p q : Panel) : Prop :=
  ∀ row col, ¬ UsableCell c row col → q.gramCell c row col = p.gramCell c row col

/-- Every cell reads as before. -/
def SameCells (c : Cfg) (p q : Panel) : Prop := ∀ row col, q.gramCell c row col = p.gramCell c row col

theorem SameCells.keepsMargin {c : Cfg} {p q : Panel} (h : SameCells c p q) : KeepsMargin c p q := fun row col _ => h row col

theorem KeepsMargin.trans {c : Cfg} {p q r : Panel} (h : KeepsMargin c p q) (k : KeepsMargin c q r) : KeepsMargin c p r :=
  fun row col hm => (k row col hm).trans (h row col hm)

/-- Patches that fit keep the margin. -/
theorem keepsMargin_of_overlay {c : Cfg} {p q : Panel} {Ps : List Patch} (fits : ∀ P ∈ Ps, P.Fits c)
    (screen : ∀ row col, q.gramCell c row col = overlay c Ps (p.gramCell c) row col) : KeepsMargin c p q :=
  fun row col hm => (screen row col).trans (overlay_margin fits hm _)

/-- A cleared panel shows nothing anywhere. -/
theorem gramCell_cleared (c : Cfg) (row col : Nat) : Panel.cleared.gramCell c row col = none := by
  rw [gramCell_eq]
  split <;> rfl

/-! ## Drawing operations -/

/-- Actions that bring the machine to a configured state in step, then draw: if the operation does not halt it ends in step,
and what it drew is off the margin. -/
theorem exec_runs_drawing {s u t : State} {i : Instr} {op : Op} {pre ms : List Micro} (hi : Idle s) (ho : opOf i = some op)
    (hbody : seqProgram s.cfg i = operation op (pre ++ ms) (oplen i)) (ha : Allowed op s) (r : Runs pre s u) (l : Live u)
    (hc : u.cfg = s.cfg) (inStep : InStep u) (hps : u.pstate = .configured) (hs : u.streaming = false)
    (d : Drawing s.cfg ms) (e : exec i s = .next t) (running : t.halted = false) :
    InStep t ∧ KeepsMargin s.cfg u.panel t.panel := by
  obtain ⟨k, es, Ps, draws⟩ := d
  obtain ⟨w, drawn, completes, halts⟩ := draws.run u l hc hs
  rw [exec_eq_perform ho, hbody] at e
  cases k with
  | some k =>
    obtain ⟨stops, halted, -⟩ := halts k rfl
    rw [perform_halts hi ha (r.stops stops)] at e
    cases e
    exact absurd (halted.symm.trans running) (by decide)
  | none =>
    obtain ⟨runs, lw⟩ := completes rfl
    rw [perform_completes hi ha (r.append runs) lw.quiet] at e
    cases e
    rw [← hc] at drawn ⊢
    obtain ⟨-, screen⟩ := drawn.screen_inStep inStep hps hs
    exact ⟨(drawn.inStep inStep hps hs).with_pc _, keepsMargin_of_overlay (hc ▸ draws.fits) screen⟩

/-- An operation of state Configured whose body draws. -/
theorem exec_drawing_inStep {s t : State} {i : Instr} {op : Op} {body : List Micro} (hi : Idle s) (hp : Performs s)
    (ho : opOf i = some op) (hbody : seqProgram s.cfg i = operation op body (oplen i)) (d : Drawing s.cfg body)
    (hop : streamExempt op = false) (hps : opLegal op s.pstate = true → s.pstate = .configured) (inStep : InStep s)
    (e : exec i s = .next t) (running : t.halted = false) : InStep t ∧ KeepsMargin s.cfg s.panel t.panel :=
  have ha := allowed_of_running hi ho e running
  exec_runs_drawing (pre := []) hi ho hbody ha (Runs.nil s) (Live.of_idle hi hp) rfl inStep (hps ha.1)
    (closed_of_allowed ha hop) d e running

/-- INIT's labels and lines. -/
theorem drawing_adornment {c : Cfg} (wf : c.WellFormed) :
    Drawing c (c.layout.labels.flatMap (labelBody c) ++ c.layout.lines.flatMap (decorationBody c)) :=
  (Drawing.flatMap c.layout.labels fun l => drawing_string wf l.color l.scale l.text l.x l.y).append
    (Drawing.flatMap c.layout.lines fun l => drawing_line wf l)

/-- INIT from any panel state: in step, and the margin as CMD_SWRESET leaves it (45_display_session.md R161). -/
theorem exec_init_inStep {s t : State} (wf : s.cfg.WellFormed) (hi : Idle s) (hp : Performs s)
    (e : exec .init s = .next t) (running : t.halted = false) :
    InStep t ∧ KeepsMargin s.cfg Panel.cleared t.panel := by
  obtain ⟨u, r, l, inStep, panel, hc, hps, hs, -⟩ := reset_inStep wf (Live.of_idle hi hp) rfl
  obtain ⟨v, r', l', inStep', -, hc', hps', hs', -, screen⟩ :=
    configure_inStep wf l hc inStep.good (hc ▸ inStep.closed hs)
  obtain ⟨inStepT, margin⟩ := exec_runs_drawing (i := .init) (pre := resetBody s.cfg ++ configureBody s.cfg) hi rfl
    (by simp only [seqProgram, initOp, initBody, List.append_assoc]; rfl) ⟨rfl, fun _ => rfl⟩ (r.append r') l' hc' inStep'
    hps' hs' (drawing_adornment wf) e running
  have white : KeepsMargin s.cfg u.panel v.panel :=
    keepsMargin_of_overlay (Ps := [fullPatch s.cfg]) (by simpa using fullPatch_fits wf) screen
  exact ⟨inStepT, (panel ▸ white).trans margin⟩

/-! ## Windows, streams, pixels -/

/-- SET_DRAW_WINDOW gives PANEL and DHE the same window (20_memory.md R44). -/
theorem exec_setDrawWindow_inStep {s t : State} {x y w h : BitVec 16} (wf : s.cfg.WellFormed) (hi : Idle s)
    (hp : Performs s) (inStep : InStep s) (e : exec (.setDrawWindow x y w h) s = .next t) (running : t.halted = false) :
    InStep t ∧ SameCells s.cfg s.panel t.panel := by
  have ha := allowed_of_running (op := .setDrawWindow) hi rfl e running
  have hps : s.pstate ≠ .uninitialized := by simpa [opLegal] using ha.1
  have hs := closed_of_allowed ha rfl
  by_cases ok : WindowOk s.cfg x.toNat y.toNat w.toNat h.toNat
  · have panel := panelEvents_win wf inStep.good (inStep.closed hs) ok
    rw [exec_setDrawWindow hi hp hps hs ok] at e
    cases e
    generalize winTrace s.cfg x.toNat y.toNat w.toNat h.toNat = tr at panel ⊢
    have bad := (congrArg Panel.bad panel).trans inStep.good
    exact ⟨⟨bad, fun mode => ⟨(congrArg Panel.fmt panel).trans (inStep.mode mode).1,
          (congrArg Panel.orient panel).trans (inStep.mode mode).2⟩,
        fun _ => sameWindow_of_painted wf ok rfl rfl ⟨congrArg Panel.xs panel, congrArg Panel.xe panel,
          congrArg Panel.ys panel, congrArg Panel.ye panel⟩,
        fun _ => streamOpen_of_cmd wf .raset (by decide) (congrArg Panel.cmd panel),
        fun open_ => absurd (open_.symm.trans hs) (by decide)⟩,
      fun _ _ => gramCell_congr (congrArg Panel.gram panel) (congrArg Panel.bad panel) _ _⟩
  · rw [exec_setDrawWindow_halts hi hps hs ok] at e
    cases e; cases running

/-- BEGIN_PIXEL_WRITE puts the cursor where DHE's stream starts (20_memory.md R53, 41_panel_protocol.md R115). -/
theorem exec_beginPixelWrite_inStep {s t : State} (wf : s.cfg.WellFormed) (hi : Idle s) (hp : Performs s)
    (inStep : InStep s) (e : exec .beginPixelWrite s = .next t) (running : t.halted = false) :
    InStep t ∧ SameCells s.cfg s.panel t.panel := by
  have ha := allowed_of_running (op := .beginPixelWrite) hi rfl e running
  have hps : s.pstate ≠ .uninitialized := by simpa [opLegal] using ha.1
  have hs := closed_of_allowed ha rfl
  cases hv : s.winValid with
  | false =>
    rw [exec_beginPixelWrite_halts hi hps hs hv] at e
    cases e; cases running
  | true =>
    obtain ⟨h1, h2, h3, h4⟩ := inStep.window hv
    have panel := panelEvents_ramwr wf (inStep.closed hs) h1 h2 h3 h4
    rw [panelEvents_cmd] at panel
    rw [exec_beginPixelWrite hi hp hps hs hv, panel] at e
    cases e
    refine ⟨⟨inStep.good, inStep.mode, inStep.window, nofun, fun _ => ⟨hv, le_rfl, rfl, rfl, ?_⟩⟩,
      fun _ _ => gramCell_congr rfl rfl _ _⟩
    simp [nextCell, sentPixels]

/-- PACK touches no pin. -/
theorem exec_pack_inStep {s t : State} {ch : Channel} {pct : Byte} (hi : Idle s) (inStep : InStep s)
    (e : exec (.pack ch pct) s = .next t) (running : t.halted = false) : InStep t ∧ SameCells s.cfg s.panel t.panel := by
  by_cases hq : pct.toNat ≤ 100
  · rw [exec_pack (q := (ch, pct)) hi hq] at e
    cases e
    exact ⟨⟨inStep.good, inStep.mode, inStep.window, inStep.closed, inStep.opened⟩, fun _ _ => rfl⟩
  · rw [exec_pack_halts hi hq] at e
    cases e; cases running

/-- The cell the stream's next pixel goes to is usable (10_state.md R23). -/
theorem nextCell_usable {s : State} (w : WindowRegs s) (hk : sentPixels s < s.win.w.toNat * s.win.h.toNat) :
    UsableCell s.cfg (nextCell s).2 (nextCell s).1 := by
  obtain ⟨w1, w2, w3, w4, w5, w6, -⟩ := w
  have hcol := Nat.mod_lt (sentPixels s) (show 0 < s.win.w.toNat by omega)
  have hrow := Nat.div_lt_of_lt_mul hk
  simp only [nextCell, phys]
  generalize sentPixels s % s.win.w.toNat = m at hcol ⊢
  generalize sentPixels s / s.win.w.toNat = n at hrow ⊢
  omega

theorem UsableCell.native {c : Cfg} (wf : c.WellFormed) {row col : Nat} (h : UsableCell c row col) :
    row < c.nativeRows ∧ col < c.nativeCols := by
  have := wf.2.2.1
  obtain ⟨-, h1, -, h2⟩ := h
  simp only [Cfg.usableRows, Cfg.usableCols] at h1 h2
  omega

/-- The pixels sent, after one more (41_panel_protocol.md R116). -/
theorem sentPixels_writePixel {s : State} {p : Pixel} (hpos : 0 < s.pxRemaining.toNat)
    (hsum : s.pxRemaining.toNat + sentPixels s = s.win.count.toNat) (n : Nat) :
    sentPixels { countPixel (emitAll (pixTrace p) s) with pc := n } = sentPixels s + 1 := by
  have count : (countPixel (emitAll (pixTrace p) s)).pxRemaining.toNat = s.pxRemaining.toNat - 1 := by
    rw [countPixel_px, emitAll_pxRemaining]
  change s.win.count.toNat - (countPixel (emitAll (pixTrace p) s)).pxRemaining.toNat = _
  omega

/-- A pixel of an open stream leaves the panel waiting for the pixel after it, or the stream closed on both sides
(41_panel_protocol.md R116, 20_memory.md R56, R57). -/
theorem InStep.writePixel {s : State} (v : Inv s) (inStep : InStep s) (hps : s.pstate = .configured)
    (hs : s.streaming = true) (p : Pixel) (n : Nat) : InStep { countPixel (emitAll (pixTrace p) s) with pc := n } := by
  obtain ⟨hv, hle, hcmd, hhalf, -⟩ := inStep.opened hs
  obtain ⟨hk, hsum, stream⟩ := inStep.stream v hps hs
  obtain ⟨-, -, -, -, -, -, hcount⟩ := v.window hv
  have panel := stream.pixel v.cfg hk p
  have sent := sentPixels_writePixel (p := p) (by omega) hsum n
  have count : (countPixel (emitAll (pixTrace p) s)).pxRemaining.toNat = s.pxRemaining.toNat - 1 := by
    rw [countPixel_px, emitAll_pxRemaining]
  have open_ : (countPixel (emitAll (pixTrace p) s)).streaming = decide (1 < s.pxRemaining.toNat) := by
    rw [countPixel_open, emitAll_streaming, emitAll_pxRemaining, hs, Bool.true_and]
  generalize pixTrace p = tr at panel count open_ sent ⊢
  refine ⟨(congrArg Panel.bad panel).trans inStep.good,
    fun mode => ⟨(congrArg Panel.fmt panel).trans (inStep.mode mode).1,
      (congrArg Panel.orient panel).trans (inStep.mode mode).2⟩, fun valid => ?_, fun closed => ?_, fun more => ?_⟩
  · obtain ⟨p1, p2, p3, p4⟩ := inStep.window valid
    exact ⟨(congrArg Panel.xs panel).trans p1, (congrArg Panel.xe panel).trans p2, (congrArg Panel.ys panel).trans p3,
      (congrArg Panel.ye panel).trans p4⟩
  · have last : ¬ 1 < s.pxRemaining.toNat := of_decide_eq_false (open_.symm.trans closed)
    refine (congrArg (Panel.streamOpen s.cfg) panel).trans ?_
    rw [cursorAt, if_neg (by omega)]
    simp [Panel.streamOpen, hhalf]
  · have another : 1 < s.pxRemaining.toNat := of_decide_eq_true (open_.symm.trans more)
    refine ⟨hv, count.le.trans (show s.pxRemaining.toNat - 1 ≤ s.win.count.toNat by omega),
      (congrArg Panel.cmd panel).trans hcmd, (congrArg Panel.half panel).trans hhalf,
      (congrArg Panel.cursor panel).trans ?_⟩
    rw [cursorAt, if_pos (by omega), nextCell, sent]
    simp only [phys]
    congr 1 <;> simp <;> omega

/-- A pixel of an open stream goes to the stream's next cell and no other (41_panel_protocol.md R116). -/
theorem exec_writePixel_inStep {s : State} {p : Pixel} (v : Inv s) (hi : Idle s) (hp : Performs s) (inStep : InStep s)
    (hps : s.pstate = .configured) (hs : s.streaming = true) :
    ∃ t, exec (.writePixel p) s = .next t ∧ InStep t ∧ ∀ row col, t.panel.gramCell s.cfg row col =
      if row = (nextCell s).2 ∧ col = (nextCell s).1 then some (wirev p) else s.panel.gramCell s.cfg row col := by
  obtain ⟨hv, -⟩ := inStep.opened hs
  obtain ⟨hk, -, stream⟩ := inStep.stream v hps hs
  have panel := stream.pixel v.cfg hk p
  have native := (nextCell_usable (v.window hv) hk).native v.cfg
  refine ⟨_, exec_writePixel v hi hp (by rw [hps]; decide) hs, inStep.writePixel v hps hs p _, ?_⟩
  refine gramCell_gramWrite inStep.good ((congrArg Panel.bad panel).trans inStep.good) ?_ native.2 native.1
  refine (congrArg Panel.gram panel).trans ?_
  simp only [nextCell, phys]
  congr 1 <;> omega

/-- Settles O27. -/
theorem writePixelGoesToTheNextCell : Obligations.WritePixelGoesToTheNextCell := by
  intro s p v hi hp inStep hps hs
  obtain ⟨t, e, inStep', cells⟩ := exec_writePixel_inStep v hi hp inStep hps hs (p := p)
  refine ⟨t, e, inStep'.good, (cells _ _).trans (if_pos ⟨rfl, rfl⟩), fun row col other => ?_⟩
  rw [cells, if_neg]
  rintro ⟨rfl, rfl⟩
  exact other rfl

/-- WRITE_PIXEL keeps the panel in step, and the margin: its cell is usable. -/
theorem exec_writePixel_keepsMargin {s t : State} {p : Pixel} (v : Inv s) (hi : Idle s) (hp : Performs s)
    (inStep : InStep s) (hps : s.pstate = .configured) (e : exec (.writePixel p) s = .next t) (running : t.halted = false) :
    InStep t ∧ KeepsMargin s.cfg s.panel t.panel := by
  cases hs : s.streaming with
  | false =>
    rw [streamingDisciplineHalts.2 s p hi (by rw [hps]; decide) hs] at e
    cases e; cases running
  | true =>
    obtain ⟨t', e', inStep', cells⟩ := exec_writePixel_inStep v hi hp inStep hps hs (p := p)
    obtain rfl := Host.Outcome.next.inj (e.symm.trans e')
    obtain ⟨hk, -, -⟩ := inStep.stream v hps hs
    obtain ⟨valid, -⟩ := inStep.opened hs
    refine ⟨inStep', fun row col margin => ?_⟩
    rw [cells, if_neg]
    rintro ⟨rfl, rfl⟩
    exact margin (nextCell_usable (v.window valid) hk)

/-! ## Every host operation but the raw bytes -/

/-- A host operation on an in-step panel, no raw byte and no reset of the panel, keeps it in step and the margin
(20_memory.md R60, R62). -/
theorem exec_inStep {s t : State} {i : Instr} (v : Inv s) (hi : Idle s) (hp : Performs s) (raw : notRaw i = true)
    (inStep : InStep s) (hw : (∃ p, i = .writePixel p) → s.pstate = .configured) (fresh : ¬ (i = .reset ∨ i = .init))
    (e : exec i s = .next t) (running : t.halted = false) : InStep t ∧ KeepsMargin s.cfg s.panel t.panel := by
  have wf := v.cfg
  cases i with
  | reset => exact absurd (.inl rfl) fresh
  | init => exact absurd (.inr rfl) fresh
  | configure =>
    have ha := allowed_of_running (op := .configure) hi rfl e running
    obtain ⟨t', e', inStep', -, -, screen⟩ := exec_configure_inStep wf hi hp inStep (by simpa [opLegal] using ha.1)
      (closed_of_allowed ha rfl)
    obtain rfl := Host.Outcome.next.inj (e.symm.trans e')
    exact ⟨inStep', keepsMargin_of_overlay (Ps := [fullPatch s.cfg]) (by simpa using fullPatch_fits wf) screen⟩
  | setDrawWindow x y w h => exact (exec_setDrawWindow_inStep wf hi hp inStep e running).imp_right SameCells.keepsMargin
  | beginPixelWrite => exact (exec_beginPixelWrite_inStep wf hi hp inStep e running).imp_right SameCells.keepsMargin
  | writePixel p => exact exec_writePixel_keepsMargin v hi hp inStep (hw ⟨p, rfl⟩) e running
  | pack ch pct => exact (exec_pack_inStep hi inStep e running).imp_right SameCells.keepsMargin
  | drawCharacter x y code color scale =>
    exact exec_drawing_inStep hi hp rfl rfl (drawing_character wf ..) rfl (by simp [opLegal]) inStep e running
  | drawString x y color scale text =>
    exact exec_drawing_inStep hi hp rfl rfl (drawing_string wf ..) rfl (by simp [opLegal]) inStep e running
  | drawLine xs ys xe ye color =>
    exact exec_drawing_inStep hi hp rfl rfl (drawing_line wf ⟨xs.toNat, ys.toNat, xe.toNat, ye.toNat, color⟩) rfl
      (by simp [opLegal]) inStep e running
  | refresh it ih ot oh =>
    exact exec_drawing_inStep hi hp rfl rfl (drawing_refresh wf ..) rfl (by simp [opLegal]) inStep e running
  | _ => cases raw

/-- RESET and INIT, from any panel state: in step, and the margin unspecified (20_memory.md R51, R60). -/
theorem exec_fresh_inStep {s t : State} {i : Instr} (wf : s.cfg.WellFormed) (hi : Idle s) (hp : Performs s)
    (fresh : i = .reset ∨ i = .init) (e : exec i s = .next t) (running : t.halted = false) :
    InStep t ∧ KeepsMargin s.cfg Panel.cleared t.panel := by
  rcases fresh with rfl | rfl
  · obtain ⟨t', e', inStep, panel, -⟩ := exec_reset_inStep wf hi hp
    obtain rfl := Host.Outcome.next.inj (e.symm.trans e')
    exact ⟨inStep, fun _ _ _ => by rw [panel]⟩
  · exact exec_init_inStep wf hi hp e running

/-- Settles O51. -/
theorem panelStaysInStep : Obligations.PanelStaysInStep := by
  intro s t i v hi hp raw before hw e running
  by_cases fresh : i = .reset ∨ i = .init
  · exact (exec_fresh_inStep v.cfg hi hp fresh e running).1
  · exact (exec_inStep v hi hp raw (before.resolve_right fresh) hw fresh e running).1

/-- Settles O52. -/
theorem marginIsNeverDrawn : Obligations.MarginIsNeverDrawn := by
  intro s t i v hi hp raw inStep hw e running
  refine ⟨fun row col margin => ?_, fun quiet => ?_⟩
  · by_cases fresh : i = .reset ∨ i = .init
    · refine .inr ⟨fresh, ?_⟩
      rw [(exec_fresh_inStep v.cfg hi hp fresh e running).2 row col margin, gramCell_cleared]
    · exact .inl ((exec_inStep v hi hp raw inStep hw fresh e running).2 row col margin)
  · cases i with
    | setDrawWindow x y w h => exact (exec_setDrawWindow_inStep v.cfg hi hp inStep e running).2
    | beginPixelWrite => exact (exec_beginPixelWrite_inStep v.cfg hi hp inStep e running).2
    | pack ch pct => exact (exec_pack_inStep hi inStep e running).2
    | _ => simp [opOf] at quiet

end Sys2Proof.Machine
end
